-- ==== Sys2Proof/Word.lean ====
section
/-! DEFINITION. The plain data of the block: bytes, byte strings of a fixed size, DWords and sequence numbers
(rules R7, R9, R38). All numbers of the block are unsigned (rule R7). -/

namespace Sys2Proof

/-- A byte: bit 7 is its most significant bit, bit 0 its least (R7). -/
abbrev Byte := BitVec 8

/-- A DWord: 4 bytes viewed as a 32-bit big-endian number (R7, R9). -/
abbrev DWord := BitVec 32

/-- A sequence number: 9 bits, 0 to 511; 1 to 511 are valid, 0 is reserved (R5, R95, decision D43). -/
abbrev Seq := BitVec 9

/-- A byte string of exactly `n` bytes, first byte first (R7). The size goes with the bytes, so that a flit is never
anything but 640 bytes and the data of a TL flit never anything but 64. -/
@[ext] structure Bytes (n : Nat) where
  val : List Byte
  size : val.length = n
  deriving DecidableEq, Repr

/-- A DL flit: 640 bytes, addressed 0 to 639 (R9, R30, R45). -/
abbrev Flit := Bytes 640

/-- The data of a TL flit: 64 opaque bytes (R9, R35). -/
abbrev TlData := Bytes 64

end Sys2Proof
end

