-- ==== Sys2Proof/Config.lean ====
section
/-! DEFINITION. What the environment or an implementation fixes before the first operation (rules R5, R23, R188): the
configuration that a machine carries, the open class codes of DL messages, and the message table the spec transcribes. -/

namespace Sys2Proof

/-- RR_FIRST_AFTER_NONE of R5 and R152: the class tried first while nothing has been served yet. -/
inductive RrFirst
  | control
  | uart
  deriving DecidableEq, Repr

/-- The parameters a model takes as arguments (R5, R23, R24). The step reads them and never writes them.
* `ackEveryN` is ACK_EVERY_N: 0 acknowledges every in-order flit, N > 0 batches (R134).
* `crcReflect` is CRC_REFLECT of R75, false in the spec (conflict C1).
* `rrFirstAfterNone` is RR_FIRST_AFTER_NONE of R152, Control in the spec (conflict C7).
* `statWidth` is STAT_WIDTH (decision D19): the width in bits of the statistics counters; none is the spec's default,
  unbounded.
* `arbFifoDepth` is ARB_FIFO_DEPTH (decision D30): how many packets each FIFO of the arbiter holds; none is the spec's
  default, unbounded. That the unit is the packet is DEDUCED (R20: "three FIFOs of packets"; log entry 14). -/
structure Config where
  ackEveryN : Nat
  crcReflect : Bool
  rrFirstAfterNone : RrFirst
  statWidth : Option Nat
  arbFifoDepth : Option Nat
  deriving DecidableEq, Repr

/-- The values the spec decides on (R5), with ACK_EVERY_N = 0.
DESIGN CHOICE (log entry 2): the spec gives ACK_EVERY_N no default. -/
def Config.standard : Config :=
  { ackEveryN := 0, crcReflect := false, rrFirstAfterNone := .control, statWidth := none, arbFifoDepth := none }

/-- The statistics counters of width STAT_WIDTH (R17, R18, R21). `flits_since_ack` is none of them (decision D24). -/
inductive Counter
  | replaySequences
  | acksSent
  | replayRequestsSent
  | acksReceived
  | replayRequestsReceived
  | rxCrcErrors
  | replayUnknownSeq
  deriving DecidableEq, Repr

/-- What a counter of `w` bits holds after counting past its top. The spec leaves it to the implementation (R198: "an
implementation with finite counters must say what happens at the top"), so that it is a free value: it wraps, stays or
does neither, and nothing in the model can tell which (log entry 14). -/
opaque Config.counterAtTop : Counter → (w : Nat) → BitVec w

/-- The three classes of DL messages, in the fixed order of R5 and R152. -/
inductive DlClass
  | basic
  | control
  | uart
  deriving DecidableEq, Repr

/-- MCLASS_BASIC, MCLASS_CONTROL, MCLASS_UART: the numeric codes of the `mclass` field, left open (R61, decision D38).
A free value: nothing in the model can tell what it is. -/
opaque Config.mclassCode : DlClass → BitVec 4

/-- The four UART messages, whose `mtype` the source does not give (R63). -/
inductive UartMessage
  | streamResetRequest
  | streamResetResponse
  | streamTransport
  | streamCreditUpdate
  deriving DecidableEq, Repr

/-- UART_MTYPE_*: the `mtype` codes of the UART messages, left open (R63, decision D38). A free value. -/
opaque Config.uartMtype : UartMessage → BitVec 3

/-- The DL messages of R63's table. -/
inductive Message
  | noOp
  | tlRateNotification
  | deviceId
  | portId
  | channelNegotiation
  | uart (m : UartMessage)
  deriving DecidableEq, Repr

/-- The class of a message (R63). -/
def Message.cls : Message → DlClass
  | .noOp | .tlRateNotification | .deviceId | .portId => .basic
  | .channelNegotiation => .control
  | .uart _ => .uart

/-- The `mtype` of a message (R63); of a UART message a free value. -/
def Message.mtype : Message → BitVec 3
  | .noOp => 0b000#3
  | .tlRateNotification => 0b100#3
  | .deviceId => 0b101#3
  | .portId => 0b110#3
  | .channelNegotiation => 0b100#3
  | .uart m => Config.uartMtype m

/-- The widths of a message's added fields, most significant first (R63). Their bit positions inside DWord bits 31:9 are
not given by the spec, so nothing is said of them here. -/
def Message.addedFieldWidths : Message → List Nat
  | .noOp => [23]
  | .tlRateNotification => [16, 1]
  | .deviceId => [1, 2, 10, 1]
  | .portId => [1, 12, 1]
  | .channelNegotiation => [4, 4, 4]
  | .uart .streamResetRequest => [1, 3]
  | .uart .streamResetResponse => [3, 1, 3]
  | .uart .streamTransport => [5, 3]
  | .uart .streamCreditUpdate => [12, 3]

end Sys2Proof
end

