-- ==== Sys2Proof/Syntax.lean ====
section
/-! DEFINITION. The instruction set as syntax: one constructor of `Instr` for each of the 41 rows of
spec/opcode_table.json (7 wire formats of rules R48 to R59, 30 primitive and 4 composite operations of rule R65), the
field sets the formats are made of, and the form in which a caller presents them. -/

namespace Sys2Proof

/-- A TL flit: 64 bytes of data and the 2-bit `message_field`, which carries no meaning of its own (R9, R52). -/
@[ext] structure Tl where
  data : TlData
  msg : BitVec 2
  deriving DecidableEq, Repr

/-- The fields of an explicit (payload) flit header that R53 names (format F-EXPL, R48). -/
structure ExplicitFields where
  op : BitVec 3
  payloadBit : BitVec 1
  flitSeqNo : Seq
  deriving DecidableEq, Repr

/-- The fields of a command flit header that R53 names (format F-CMD, R49). -/
structure CommandFields where
  op : BitVec 3
  payloadBit : BitVec 1
  ackReqSeq : Seq
  flitSeqLo : BitVec 3
  deriving DecidableEq, Repr

/-- Both readings of the same three header bytes (R55, R87). -/
structure HeaderFields where
  explicit : ExplicitFields
  command : CommandFields
  deriving DecidableEq, Repr

/-- The six fields of a segment header (format F-SEG, R52). -/
structure SegFields where
  tlFlit1 : BitVec 1
  message1 : BitVec 2
  tlFlit0 : BitVec 1
  message0 : BitVec 2
  reserved : BitVec 1
  dlAltSector : BitVec 1
  deriving DecidableEq, Repr

/-- The fields of a DL message's header DWord (format F-DW, R59); `compressed` is 0 in every such DWord. -/
structure DwordFields where
  messageSpecific : BitVec 23
  mtype : BitVec 3
  mclass : BitVec 4
  deriving DecidableEq, Repr

/-- What the receive path takes a flit header for (R50, R51, R58): by `payload_bit` alone a payload flit or not, and
among the others by `op`. -/
inductive HeaderKind
  | payload
  | ack
  | replayRequest
  | notConsumed
  deriving DecidableEq, Repr

/-- The names of the operations (R65): an operation is selected by its name, there is no opcode number (decision D3). -/
inductive OpName
  | crc32
  | crc32Check
  | flitPack
  | flitUnpack
  | flitUnpackChecked
  | hdrDecode
  | rbAdd
  | rbRetireThrough
  | rbOldestSeq
  | rbNewestSeq
  | rbClear
  | rbSize
  | rbReplayIter
  | stIsExpected
  | stIsDuplicate
  | stAdvance
  | stReset
  | txNextPayloadSeq
  | txNopSeq
  | txStartReplay
  | txFinishReplay
  | txTickExplicitCount
  | txMakeAck
  | txMakeReplayRequest
  | txReset
  | cmdProcess
  | armProcessReceived
  | dmqEnqueue
  | dmqPopNextDword
  | reset
  | epSendPayload
  | epReceiveFlit
  | epProcessAck
  | epReplayFrom
  deriving DecidableEq, Repr

/-- The instructions: the rows of spec/opcode_table.json in the table's order. The wire-format rows keep their reserved
bits as received (R56), so that no bit of a word is lost. -/
inductive Instr
  | explicitFlitHeader (reservedA : BitVec 3) (flitSeqNo : Seq) (reservedB : BitVec 8)
  | payloadFlitAsReceived (op : BitVec 3) (reservedA : BitVec 3) (flitSeqNo : Seq) (reservedB : BitVec 8)
  | ack (ackReqSeq : Seq) (flitSeqLo : BitVec 3) (reserved : BitVec 8)
  | replayRequest (ackReqSeq : Seq) (flitSeqLo : BitVec 3) (reserved : BitVec 8)
  | unassignedCommandOp (op : BitVec 3) (rest : BitVec 20)
  | segmentHeader (fields : SegFields)
  | dlMessageDword (messageSpecific : BitVec 23) (mtype : BitVec 3) (mclass : BitVec 4) (reserved : BitVec 1)
  | crc32 (b : List Byte)
  | crc32Check (f : Flit)
  | flitPack (tls : List Tl) (op : BitVec 3) (payloadBit : BitVec 1) (flitSeqNo : Seq)
  | flitUnpack (f : Flit)
  | flitUnpackChecked (f : Flit)
  | hdrDecode (f : Flit)
  | rbAdd (q : Seq) (f : Flit)
  | rbRetireThrough (ackSeq : Seq)
  | rbOldestSeq
  | rbNewestSeq
  | rbClear
  | rbSize
  | rbReplayIter (r : Seq)
  | stIsExpected (q : Seq)
  | stIsDuplicate (q : Seq)
  | stAdvance
  | stReset
  | txNextPayloadSeq
  | txNopSeq
  | txStartReplay
  | txFinishReplay
  | txTickExplicitCount
  | txMakeAck (ackSeq : Seq)
  | txMakeReplayRequest (r : Seq)
  | txReset (zeroStats : Bool)
  | cmdProcess (f : Flit)
  | armProcessReceived (q : Seq) (txLo : BitVec 3)
  | dmqEnqueue (c : DlClass) (dws : List DWord)
  | dmqPopNextDword
  | reset
  | epSendPayload (tls : List Tl)
  | epReceiveFlit (f : Flit)
  | epProcessAck (ackSeq : Seq)
  | epReplayFrom (r : Seq)
  deriving DecidableEq, Repr

/-- The name of an operation; a wire format has none (R6, R65). -/
def Instr.opName : Instr → Option OpName
  | .explicitFlitHeader _ _ _ => none
  | .payloadFlitAsReceived _ _ _ _ => none
  | .ack _ _ _ => none
  | .replayRequest _ _ _ => none
  | .unassignedCommandOp _ _ => none
  | .segmentHeader _ => none
  | .dlMessageDword _ _ _ _ => none
  | .crc32 _ => some .crc32
  | .crc32Check _ => some .crc32Check
  | .flitPack _ _ _ _ => some .flitPack
  | .flitUnpack _ => some .flitUnpack
  | .flitUnpackChecked _ => some .flitUnpackChecked
  | .hdrDecode _ => some .hdrDecode
  | .rbAdd _ _ => some .rbAdd
  | .rbRetireThrough _ => some .rbRetireThrough
  | .rbOldestSeq => some .rbOldestSeq
  | .rbNewestSeq => some .rbNewestSeq
  | .rbClear => some .rbClear
  | .rbSize => some .rbSize
  | .rbReplayIter _ => some .rbReplayIter
  | .stIsExpected _ => some .stIsExpected
  | .stIsDuplicate _ => some .stIsDuplicate
  | .stAdvance => some .stAdvance
  | .stReset => some .stReset
  | .txNextPayloadSeq => some .txNextPayloadSeq
  | .txNopSeq => some .txNopSeq
  | .txStartReplay => some .txStartReplay
  | .txFinishReplay => some .txFinishReplay
  | .txTickExplicitCount => some .txTickExplicitCount
  | .txMakeAck _ => some .txMakeAck
  | .txMakeReplayRequest _ => some .txMakeReplayRequest
  | .txReset _ => some .txReset
  | .cmdProcess _ => some .cmdProcess
  | .armProcessReceived _ _ => some .armProcessReceived
  | .dmqEnqueue _ _ => some .dmqEnqueue
  | .dmqPopNextDword => some .dmqPopNextDword
  | .reset => some .reset
  | .epSendPayload _ => some .epSendPayload
  | .epReceiveFlit _ => some .epReceiveFlit
  | .epProcessAck _ => some .epProcessAck
  | .epReplayFrom _ => some .epReplayFrom

/-- An operand as a caller presents it. A number comes in a carrier that may be wider than its field, as the source's
16-bit sequence numbers do (R170, decision D43); a flit comes as its bytes. -/
inductive Operand
  | num (n : Nat)
  | flag (b : Bool)
  | bytes (b : List Byte)
  | tls (l : List (List Byte × Nat))
  | cls (c : DlClass)
  | dwords (l : List Nat)
  deriving DecidableEq, Repr

/-- What the environment presents to the block (R6, R11): a call of an operation by its name with its operands, or the
bytes of one word of a wire format. -/
inductive Request
  | call (op : OpName) (operands : List Operand)
  | wire (bytes : List Byte)
  deriving DecidableEq, Repr

end Sys2Proof
end

