-- ==== Sys2Proof/WellFormed.lean ====
section
/-! DEFINITION. Which terms of `Instr` are instructions: the admitted operands of rules R82 and R150, and the words of
the wire formats, each under the one row it belongs to (rules R51, R58). -/

namespace Sys2Proof

/-- R82: `FLIT_PACK` admits at most seven TL flits (TL_PACK_ADMITTED). -/
def packAdmitted (tls : List Tl) : Bool := decide (tls.length ≤ 7)

/-- R150: a packet has 1 to 33 DWords, and more than one only in class Uart. -/
def packetAdmitted (c : DlClass) (dws : List DWord) : Bool :=
  decide (1 ≤ dws.length) && decide (dws.length ≤ 33) && (decide (dws.length = 1) || decide (c = .uart))

/-- The well-formed instructions. A header word with `payload_bit` = 1 and `op` = 0 belongs to EXPLICIT_FLIT_HEADER, so
PAYLOAD_FLIT_AS_RECEIVED holds the others (R51); the unassigned command words are those whose `op` is neither Ack nor
Replay Request (R58). -/
def Instr.wellFormed : Instr → Bool
  | .explicitFlitHeader _ _ _ => true
  | .payloadFlitAsReceived op _ _ _ => decide (op ≠ 0b000#3)
  | .ack _ _ _ => true
  | .replayRequest _ _ _ => true
  | .unassignedCommandOp op _ => decide (op ≠ 0b010#3) && decide (op ≠ 0b011#3)
  | .segmentHeader _ => true
  | .dlMessageDword _ _ _ _ => true
  | .crc32 _ => true
  | .crc32Check _ => true
  | .flitPack tls _ _ _ => packAdmitted tls
  | .flitUnpack _ => true
  | .flitUnpackChecked _ => true
  | .hdrDecode _ => true
  | .rbAdd _ _ => true
  | .rbRetireThrough _ => true
  | .rbOldestSeq => true
  | .rbNewestSeq => true
  | .rbClear => true
  | .rbSize => true
  | .rbReplayIter _ => true
  | .stIsExpected _ => true
  | .stIsDuplicate _ => true
  | .stAdvance => true
  | .stReset => true
  | .txNextPayloadSeq => true
  | .txNopSeq => true
  | .txStartReplay => true
  | .txFinishReplay => true
  | .txTickExplicitCount => true
  | .txMakeAck _ => true
  | .txMakeReplayRequest _ => true
  | .txReset _ => true
  | .cmdProcess _ => true
  | .armProcessReceived _ _ => true
  | .dmqEnqueue c dws => packetAdmitted c dws
  | .dmqPopNextDword => true
  | .reset => true
  | .epSendPayload tls => packAdmitted tls
  | .epReceiveFlit _ => true
  | .epProcessAck _ => true
  | .epReplayFrom _ => true

end Sys2Proof
end

