-- ==== Sys2Proof/Decode.lean ====
section
/-! DEFINITION. The wire formats bit by bit (rules R45 to R60), the BitCodec packing rule (R8), and the decoder and encoder
of what a caller presents: a wire word by its bits, an operation by its name and operands (R65). The decoder is total and
rejects by name. -/

namespace Sys2Proof

/-! ## Bytes and numbers -/

/-- The `n` bytes of a number, most significant first (R7, R35). -/
def bytesOfNat : Nat → Nat → List Byte
  | 0, _ => []
  | n + 1, v => BitVec.ofNat 8 (v / 2 ^ (8 * n)) :: bytesOfNat n v

/-- The number a big-endian byte string holds (R7, R35). -/
def natOfBytes (b : List Byte) : Nat := b.foldl (fun acc x => acc * 256 + x.toNat) 0

/-- The three bytes of a flit header, header bits 23:16 first (R35, R48). -/
def be24 (h : BitVec 24) : Bytes 3 := ⟨[h.extractLsb' 16 8, h.extractLsb' 8 8, h.extractLsb' 0 8], rfl⟩

/-- `be32`: the four bytes of a 32-bit value, most significant first (R7). -/
def be32 (v : BitVec 32) : Bytes 4 :=
  ⟨[v.extractLsb' 24 8, v.extractLsb' 16 8, v.extractLsb' 8 8, v.extractLsb' 0 8], rfl⟩

/-- The 24-bit header value H of three bytes (R7, R53). -/
def headerWord (b0 b1 b2 : Byte) : BitVec 24 := (b0 ++ b1 ++ b2 : BitVec (8 + 8 + 8))

/-- `u32be`: the 32-bit value of four bytes (R7). -/
def u32be (b0 b1 b2 b3 : Byte) : BitVec 32 := (b0 ++ b1 ++ b2 ++ b3 : BitVec (8 + 8 + 8 + 8))

/-! ## BitCodec (R3 item 6, R8) -/

/-- The bits of the fields written one after another, each most significant bit first, as one number; none when a value
does not fit its width (the source's FieldOutOfRange). -/
def packBits : List (Nat × Nat) → Nat → Option Nat
  | [], acc => some acc
  | (v, w) :: fs, acc => if v < 2 ^ w then packBits fs (acc * 2 ^ w + v) else none

/-- The total width of the fields. -/
def totalWidth (ws : List Nat) : Nat := ws.sum

/-- `pack_msb` of R8: the first bit becomes bit 7 of byte 0, and the low bits of the last byte are padding, zero by
decision D6. -/
def packMsb (fields : List (Nat × Nat)) : Option (List Byte) :=
  let w := totalWidth (fields.map Prod.snd)
  let n := (w + 7) / 8
  (packBits fields 0).map fun v => bytesOfNat n (v * 2 ^ (8 * n - w))

/-- The fields of a bit string of `w` bits, read from the most significant end. -/
def unpackBits : List Nat → Nat → Nat → List Nat
  | [], _, _ => []
  | k :: ks, w, v => v / 2 ^ (w - k) % 2 ^ k :: unpackBits ks (w - k) v

/-- `unpack_msb` of R8. -/
def unpackMsb (widths : List Nat) (b : List Byte) : List Nat := unpackBits widths (8 * b.length) (natOfBytes b)

/-! ## Formats: the words -/

/-- F-EXPL (R48), every field given: op 23:21, payload_bit 20, reserved_a 19:17, flit_seq_no 16:8, reserved_b 7:0. -/
def explicitWord (op : BitVec 3) (payloadBit : BitVec 1) (reservedA : BitVec 3) (flitSeqNo : Seq)
    (reservedB : BitVec 8) : BitVec 24 :=
  (op ++ payloadBit ++ reservedA ++ flitSeqNo ++ reservedB : BitVec (3 + 1 + 3 + 9 + 8))

/-- F-CMD (R49), every field given: op 23:21, payload_bit 20, ack_req_seq 19:11, flit_seq_lo 10:8, reserved 7:0. -/
def commandWord (op : BitVec 3) (payloadBit : BitVec 1) (ackReqSeq : Seq) (flitSeqLo : BitVec 3)
    (reserved : BitVec 8) : BitVec 24 :=
  (op ++ payloadBit ++ ackReqSeq ++ flitSeqLo ++ reserved : BitVec (3 + 1 + 9 + 3 + 8))

/-- F-SEG (R52): tl_flit1 7, message1 6:5, tl_flit0 4, message0 3:2, reserved 1, dl_alt_sector 0. -/
def segByte (f : SegFields) : Byte :=
  (f.tlFlit1 ++ f.message1 ++ f.tlFlit0 ++ f.message0 ++ f.reserved ++ f.dlAltSector : BitVec (1 + 2 + 1 + 2 + 1 + 1))

/-- F-DW (R59): message-specific 31:9, mtype 8:6, mclass 5:2, reserved 1, compressed 0 (= 0). -/
def dwordWord (messageSpecific : BitVec 23) (mtype : BitVec 3) (mclass : BitVec 4) (reserved : BitVec 1) : DWord :=
  (messageSpecific ++ mtype ++ mclass ++ reserved ++ 0#1 : BitVec (23 + 3 + 4 + 1 + 1))

/-! ## Formats: the block's own encoders (R54), reserved fields zero (R56) -/

/-- `enc_explicit` of R54. -/
def encExplicit (op : BitVec 3) (payloadBit : BitVec 1) (flitSeqNo : Seq) : Bytes 3 :=
  be24 (explicitWord op payloadBit 0#3 flitSeqNo 0#8)

/-- `enc_command` of R54: payload_bit 0. -/
def encCommand (op : BitVec 3) (ackReqSeq : Seq) (flitSeqLo : BitVec 3) : Bytes 3 :=
  be24 (commandWord op 0#1 ackReqSeq flitSeqLo 0#8)

/-- `enc_seg` of R54: reserved and dl_alt_sector 0 (decision D8). -/
def encSeg (tlFlit1 : BitVec 1) (message1 : BitVec 2) (tlFlit0 : BitVec 1) (message0 : BitVec 2) : Byte :=
  segByte { tlFlit1 := tlFlit1, message1 := message1, tlFlit0 := tlFlit0, message0 := message0,
            reserved := 0#1, dlAltSector := 0#1 }

/-! ## Formats: the decoders (R53, R55), total on every bit pattern -/

/-- `dec_explicit` of R55, from the header value H. -/
def decExplicit (h : BitVec 24) : ExplicitFields :=
  { op := h.extractLsb' 21 3, payloadBit := h.extractLsb' 20 1, flitSeqNo := h.extractLsb' 8 9 }

/-- `dec_command` of R55, from the header value H. -/
def decCommand (h : BitVec 24) : CommandFields :=
  { op := h.extractLsb' 21 3, payloadBit := h.extractLsb' 20 1, ackReqSeq := h.extractLsb' 11 9,
    flitSeqLo := h.extractLsb' 8 3 }

/-- `dec_seg` of R55. -/
def decSeg (b : Byte) : SegFields :=
  { tlFlit1 := b.extractLsb' 7 1, message1 := b.extractLsb' 5 2, tlFlit0 := b.extractLsb' 4 1,
    message0 := b.extractLsb' 2 2, reserved := b.extractLsb' 1 1, dlAltSector := b.extractLsb' 0 1 }

/-- The fields of a DWord that R59 names. -/
def decDword (w : DWord) : DwordFields :=
  { messageSpecific := w.extractLsb' 9 23, mtype := w.extractLsb' 6 3, mclass := w.extractLsb' 2 4 }

/-- The header DWord of the NoOp message, the one message whose header DWord R63 fixes up to its class code. -/
def noOpDword : DWord := dwordWord 0#23 Message.noOp.mtype (Config.mclassCode .basic) 0#1

/-- The receive path's reading of a header (R50, R51, R58): `payload_bit` first, then `op`. -/
def headerKind (h : BitVec 24) : HeaderKind :=
  if (decCommand h).payloadBit ≠ 0#1 then .payload
  else if (decCommand h).op = 0b010#3 then .ack
  else if (decCommand h).op = 0b011#3 then .replayRequest
  else .notConsumed

/-! ## Decoding what is presented -/

/-- The numeric fields an operand can overflow. -/
inductive Field
  | op
  | payloadBit
  | sequence
  | txLo
  | messageField
  | dword
  deriving DecidableEq, Repr

/-- Why a request is no instruction. `fieldOutOfRange` is the source's FieldOutOfRange(name, value, width) (R170);
the others are calls or words outside the syntax of R65 and the formats of R48 to R59. -/
inductive Reject
  | fieldOutOfRange (field : Field) (value width : Nat)
  | operandShape (op : OpName)
  | byteCount (op : OpName) (n : Nat)
  | noWireFormat (n : Nat)
  | compressedFlagSet (w : DWord)
  deriving DecidableEq, Repr

/-- A numeric operand into its field: refused when it does not fit, never truncated (R170, decision D43). -/
def fieldOf (field : Field) (w n : Nat) : Except Reject (BitVec w) :=
  if n < 2 ^ w then .ok (BitVec.ofNat w n) else .error (.fieldOutOfRange field n w)

/-- A byte operand into a byte string of exactly `n` bytes (R65: `flit` is 640 bytes, TL data 64). -/
def bytesOf (op : OpName) (n : Nat) (b : List Byte) : Except Reject (Bytes n) :=
  if h : b.length = n then .ok ⟨b, h⟩ else .error (.byteCount op b.length)

/-- A list of TL flits (R65: `tl` is a pair of 64 bytes and 2 bits), one after another, the data's size before the message
number's width: the first that does not fit decides (DESIGN CHOICE, log entry 21). -/
def tlsOf (op : OpName) : List (List Byte × Nat) → Except Reject (List Tl)
  | [] => .ok []
  | (d, m) :: rest => do
    let data ← bytesOf op 64 d
    let msg ← fieldOf .messageField 2 m
    let tls ← tlsOf op rest
    .ok ({ data := data, msg := msg } :: tls)

/-- A list of DWords (R65: each 32 bits); the first that does not fit decides (DESIGN CHOICE, log entry 21). -/
def dwordsOf : List Nat → Except Reject (List DWord)
  | [] => .ok []
  | n :: rest => do
    let d ← fieldOf .dword 32 n
    let ds ← dwordsOf rest
    .ok (d :: ds)

/-- An operation without operands. -/
def noOperands (op : OpName) (i : Instr) : List Operand → Except Reject Instr
  | [] => .ok i
  | _ :: _ => .error (.operandShape op)

/-- An operation on one sequence number. -/
def oneSeq (op : OpName) (mk : Seq → Instr) : List Operand → Except Reject Instr
  | [.num n] => (fieldOf .sequence 9 n).map mk
  | _ => .error (.operandShape op)

/-- An operation on one flit. -/
def oneFlit (op : OpName) (mk : Flit → Instr) : List Operand → Except Reject Instr
  | [.bytes b] => (bytesOf op 640 b).map mk
  | _ => .error (.operandShape op)

/-- A call into its instruction, by the operation syntax of R65. First the shape of the call, then the operands in R65's
order, each byte count and each number against its width. Whether the instruction is admitted (the at most seven TL flits
of R82, the packet lengths of R150) is looked at last, by its meaning, so that a call which is inadmissible AND has a
number too wide for its field reports FieldOutOfRange and is not refused: FLIT_PACK of eight TL flits with op 9, or
DMQ_ENQUEUE(Basic, two DWords, one of them 2^32). The spec gives no order between these checks (R65, R82, R150, R170):
DESIGN CHOICE, log entry 21. -/
def decodeCall : OpName → List Operand → Except Reject Instr
  | .crc32, ops =>
    match ops with
    | [.bytes b] => .ok (.crc32 b)
    | _ => .error (.operandShape .crc32)
  | .crc32Check, ops => oneFlit .crc32Check .crc32Check ops
  | .flitPack, ops =>
    match ops with
    | [.tls l, .num op, .num pb, .num sn] => do
      let tls ← tlsOf .flitPack l
      let op ← fieldOf .op 3 op
      let pb ← fieldOf .payloadBit 1 pb
      let sn ← fieldOf .sequence 9 sn
      .ok (.flitPack tls op pb sn)
    | _ => .error (.operandShape .flitPack)
  | .flitUnpack, ops => oneFlit .flitUnpack .flitUnpack ops
  | .flitUnpackChecked, ops => oneFlit .flitUnpackChecked .flitUnpackChecked ops
  | .hdrDecode, ops => oneFlit .hdrDecode .hdrDecode ops
  | .rbAdd, ops =>
    match ops with
    | [.num n, .bytes b] => do
      let q ← fieldOf .sequence 9 n
      let f ← bytesOf .rbAdd 640 b
      .ok (.rbAdd q f)
    | _ => .error (.operandShape .rbAdd)
  | .rbRetireThrough, ops => oneSeq .rbRetireThrough .rbRetireThrough ops
  | .rbOldestSeq, ops => noOperands .rbOldestSeq .rbOldestSeq ops
  | .rbNewestSeq, ops => noOperands .rbNewestSeq .rbNewestSeq ops
  | .rbClear, ops => noOperands .rbClear .rbClear ops
  | .rbSize, ops => noOperands .rbSize .rbSize ops
  | .rbReplayIter, ops => oneSeq .rbReplayIter .rbReplayIter ops
  | .stIsExpected, ops => oneSeq .stIsExpected .stIsExpected ops
  | .stIsDuplicate, ops => oneSeq .stIsDuplicate .stIsDuplicate ops
  | .stAdvance, ops => noOperands .stAdvance .stAdvance ops
  | .stReset, ops => noOperands .stReset .stReset ops
  | .txNextPayloadSeq, ops => noOperands .txNextPayloadSeq .txNextPayloadSeq ops
  | .txNopSeq, ops => noOperands .txNopSeq .txNopSeq ops
  | .txStartReplay, ops => noOperands .txStartReplay .txStartReplay ops
  | .txFinishReplay, ops => noOperands .txFinishReplay .txFinishReplay ops
  | .txTickExplicitCount, ops => noOperands .txTickExplicitCount .txTickExplicitCount ops
  | .txMakeAck, ops => oneSeq .txMakeAck .txMakeAck ops
  | .txMakeReplayRequest, ops => oneSeq .txMakeReplayRequest .txMakeReplayRequest ops
  | .txReset, ops =>
    match ops with
    | [.flag b] => .ok (.txReset b)
    | _ => .error (.operandShape .txReset)
  | .cmdProcess, ops => oneFlit .cmdProcess .cmdProcess ops
  | .armProcessReceived, ops =>
    match ops with
    | [.num n, .num lo] => do
      let q ← fieldOf .sequence 9 n
      let lo ← fieldOf .txLo 3 lo
      .ok (.armProcessReceived q lo)
    | _ => .error (.operandShape .armProcessReceived)
  | .dmqEnqueue, ops =>
    match ops with
    | [.cls c, .dwords l] => (dwordsOf l).map (Instr.dmqEnqueue c)
    | _ => .error (.operandShape .dmqEnqueue)
  | .dmqPopNextDword, ops => noOperands .dmqPopNextDword .dmqPopNextDword ops
  | .reset, ops => noOperands .reset .reset ops
  | .epSendPayload, ops =>
    match ops with
    | [.tls l] => (tlsOf .epSendPayload l).map Instr.epSendPayload
    | _ => .error (.operandShape .epSendPayload)
  | .epReceiveFlit, ops => oneFlit .epReceiveFlit .epReceiveFlit ops
  | .epProcessAck, ops => oneSeq .epProcessAck .epProcessAck ops
  | .epReplayFrom, ops => oneSeq .epReplayFrom .epReplayFrom ops

/-- A header word under its row of the table: the match and mask of R51, with R58 for the six unassigned `op` values. -/
def decodeHeader (h : BitVec 24) : Instr :=
  let e := decExplicit h
  let c := decCommand h
  match headerKind h with
  | .payload =>
    if e.op = 0b000#3 then .explicitFlitHeader (h.extractLsb' 17 3) e.flitSeqNo (h.extractLsb' 0 8)
    else .payloadFlitAsReceived e.op (h.extractLsb' 17 3) e.flitSeqNo (h.extractLsb' 0 8)
  | .ack => .ack c.ackReqSeq c.flitSeqLo (h.extractLsb' 0 8)
  | .replayRequest => .replayRequest c.ackReqSeq c.flitSeqLo (h.extractLsb' 0 8)
  | .notConsumed => .unassignedCommandOp c.op (h.extractLsb' 0 20)

/-- A DWord; one with `compressed` = 1 is rejected under the source's name for it (R58, R165). Bit 1 is ignored
(decision D6) and kept as received. -/
def decodeDword (w : DWord) : Except Reject Instr :=
  if w.extractLsb' 0 1 = 0#1 then
    .ok (.dlMessageDword (decDword w).messageSpecific (decDword w).mtype (decDword w).mclass (w.extractLsb' 1 1))
  else .error (.compressedFlagSet w)

/-- The wire formats by their size (R38): a segment header is one byte, a flit header three, a DWord four. -/
def decodeWire : List Byte → Except Reject Instr
  | [b] => .ok (.segmentHeader (decSeg b))
  | [b0, b1, b2] => .ok (decodeHeader (headerWord b0 b1 b2))
  | [b0, b1, b2, b3] => decodeDword (u32be b0 b1 b2 b3)
  | b => .error (.noWireFormat b.length)

/-- The decoder: total on every request. -/
def decode : Request → Except Reject Instr
  | .call op operands => decodeCall op operands
  | .wire b => decodeWire b

/-! ## Encoding -/

/-- A TL flit as an operand. -/
def tlOperand (t : Tl) : List Byte × Nat := (t.data.val, t.msg.toNat)

/-- The request a caller presents for an instruction: the bytes of a wire word (R48 to R59), or the call of R65. -/
def encode : Instr → Request
  | .explicitFlitHeader ra q rb => .wire (be24 (explicitWord 0b000#3 1#1 ra q rb)).val
  | .payloadFlitAsReceived op ra q rb => .wire (be24 (explicitWord op 1#1 ra q rb)).val
  | .ack a lo r => .wire (be24 (commandWord 0b010#3 0#1 a lo r)).val
  | .replayRequest a lo r => .wire (be24 (commandWord 0b011#3 0#1 a lo r)).val
  | .unassignedCommandOp op rest => .wire (be24 (op ++ 0#1 ++ rest : BitVec (3 + 1 + 20))).val
  | .segmentHeader f => .wire [segByte f]
  | .dlMessageDword p t c r => .wire (be32 (dwordWord p t c r)).val
  | .crc32 b => .call .crc32 [.bytes b]
  | .crc32Check f => .call .crc32Check [.bytes f.val]
  | .flitPack tls op pb sn => .call .flitPack [.tls (tls.map tlOperand), .num op.toNat, .num pb.toNat, .num sn.toNat]
  | .flitUnpack f => .call .flitUnpack [.bytes f.val]
  | .flitUnpackChecked f => .call .flitUnpackChecked [.bytes f.val]
  | .hdrDecode f => .call .hdrDecode [.bytes f.val]
  | .rbAdd q f => .call .rbAdd [.num q.toNat, .bytes f.val]
  | .rbRetireThrough q => .call .rbRetireThrough [.num q.toNat]
  | .rbOldestSeq => .call .rbOldestSeq []
  | .rbNewestSeq => .call .rbNewestSeq []
  | .rbClear => .call .rbClear []
  | .rbSize => .call .rbSize []
  | .rbReplayIter r => .call .rbReplayIter [.num r.toNat]
  | .stIsExpected q => .call .stIsExpected [.num q.toNat]
  | .stIsDuplicate q => .call .stIsDuplicate [.num q.toNat]
  | .stAdvance => .call .stAdvance []
  | .stReset => .call .stReset []
  | .txNextPayloadSeq => .call .txNextPayloadSeq []
  | .txNopSeq => .call .txNopSeq []
  | .txStartReplay => .call .txStartReplay []
  | .txFinishReplay => .call .txFinishReplay []
  | .txTickExplicitCount => .call .txTickExplicitCount []
  | .txMakeAck q => .call .txMakeAck [.num q.toNat]
  | .txMakeReplayRequest r => .call .txMakeReplayRequest [.num r.toNat]
  | .txReset z => .call .txReset [.flag z]
  | .cmdProcess f => .call .cmdProcess [.bytes f.val]
  | .armProcessReceived q lo => .call .armProcessReceived [.num q.toNat, .num lo.toNat]
  | .dmqEnqueue c dws => .call .dmqEnqueue [.cls c, .dwords (dws.map BitVec.toNat)]
  | .dmqPopNextDword => .call .dmqPopNextDword []
  | .reset => .call .reset []
  | .epSendPayload tls => .call .epSendPayload [.tls (tls.map tlOperand)]
  | .epReceiveFlit f => .call .epReceiveFlit [.bytes f.val]
  | .epProcessAck q => .call .epProcessAck [.num q.toNat]
  | .epReplayFrom r => .call .epReplayFrom [.num r.toNat]

/-! ## The words of the opcode table -/

/-- A word of the opcode table as the bytes it is stored in: the table numbers a wire format as ONE word of `nbits` bits
(a flit header is the 24-bit value H), and the bytes are its big-endian ones (R35, R48). A number is expected to be below
2^nbits and nbits a multiple of 8; of a larger number only the low nbits / 8 bytes are taken, so that 24 bits of 0x1402200
are the Ack 0x402200. The table has no such words, and the spec says nothing of them (DESIGN CHOICE, log entry 8). -/
def tableBytes (nbits w : Nat) : List Byte := bytesOfNat (nbits / 8) w

/-- The instruction the decoder reads from a word of the opcode table; none where it rejects the word. A number of 2^nbits
or more is cut as `tableBytes` says (log entry 8). -/
def decodeTableWord (nbits w : Nat) : Option Instr :=
  match decodeWire (tableBytes nbits w) with
  | .ok i => some i
  | .error _ => none

end Sys2Proof
end

