-- ==== Sys2Proof/Machine/State.lean ====
section
/-! DEFINITION. The machine's state as plain data (rules R10 to R27), what an operation answers (R65, R165, R172), the ways
a step can stop, and the state after reset (R26, R185). -/

namespace Sys2Proof.Machine

/-- Stops in a state the spec says cannot stand between operations (R20, R27): the block is left there, stuck.
* `explicitCountZero`: raised by TX_TICK_EXPLICIT_COUNT and EP_SEND_PAYLOAD when `explicit_count` is 0 on entry, where
  R119 has no value to decrement ("is 1 to 31 on entry"). Safe: a stop, and no legal state reaches it.
* `lockWithoutPending`: raised by DMQ_POP_NEXT_DWORD when the UART lock is held and no DWord is pending, where R151 has
  no DWord to return. Safe: a stop, and no legal state reaches it. -/
inductive Fault
  | explicitCountZero
  | lockWithoutPending
  deriving DecidableEq, Repr

/-- Requests the spec gives no meaning.
* `notModelled`: raised by a dispatch arm without a meaning; none is left. Safe.
* `tooManyTlFlits`: raised by FLIT_PACK and EP_SEND_PAYLOAD on eight or more TL flits (R82: refused). Safe.
* `illegalPacket`: raised by DMQ_ENQUEUE on a packet that breaks the `require` of R150 (refused there). Safe.
* `arbFifoFull`: raised by DMQ_ENQUEUE when ARB_FIFO_DEPTH is finite and the class's FIFO is full (decision D30: "overflow
  is not modelled"; log entry 14). Never at the spec's default, unbounded. Safe.
* `operandShape`: raised by the step on a call whose operands are not those of R65. Safe.
* `byteCount`: raised by the step on a flit operand that is not 640 bytes, or TL data that is not 64 (R65). Safe.
* `noWireFormat`: raised by the step on a word of a size no wire format has (R38). Safe.
* `compressedFlagSet`: raised by the step on a DWord with `compressed` = 1 (R58; the source's receiver, which is out of
  scope, answers None). Safe. -/
inductive Refusal
  | notModelled (mnemonic : String)
  | tooManyTlFlits (n : Nat)
  | illegalPacket (c : DlClass) (n : Nat)
  | arbFifoFull (c : DlClass)
  | operandShape (op : OpName)
  | byteCount (op : OpName) (n : Nat)
  | noWireFormat (n : Nat)
  | compressedFlagSet (w : DWord)
  deriving DecidableEq, Repr

/-- The events an operation signals to the environment (R172). -/
inductive Event
  | ackEvent (ackReqSeq : Seq)
  | replayRequestEvent (ackReqSeq : Seq)
  | transmit (f : Flit)
  | deliver (tls : List Tl)
  deriving DecidableEq, Repr

/-- An entry of the replay buffer: the number a flit was sent under, and the flit with its CRC (R14). -/
structure Entry where
  seq : Seq
  flit : Flit
  deriving DecidableEq, Repr

/-- How an arrival is classified (R110). -/
inductive Arrival
  | expected
  | duplicate
  | gap
  deriving DecidableEq, Repr

/-- What EP_RECEIVE_FLIT answers (R139). -/
inductive Received
  | command
  | crcError
  | accepted (tls : List Tl)
  | duplicate
  | gap
  deriving DecidableEq, Repr

/-- The result of an operation, in the form R65 gives it. `fieldOutOfRange` is the error result of R170 for an operand
wider than its field; `classified`, `segment` and `dword` are the field sets of a wire word (R51 to R59). -/
inductive Result
  | none
  | bool (b : Bool)
  | value (v : BitVec 32)
  | packed (f : Flit) (n : BitVec 4)
  | tls (l : List Tl)
  | checkedTls (r : Option (List Tl))
  | header (h : HeaderFields)
  | classified (k : HeaderKind) (h : HeaderFields)
  | segment (f : SegFields)
  | dword (f : DwordFields)
  | optSeq (r : Option Seq)
  | size (n : Nat)
  | entries (l : List Entry)
  | seqToBuffer (q : Seq) (shouldBuffer : Bool)
  | seq (q : Seq)
  | flit (f : Flit)
  | optFlit (r : Option Flit)
  | optBytes (r : Option (Bytes 4))
  | sent (q : Seq) (cmdOpportunity : Bool)
  | replayBufferFull
  | received (r : Received)
  | count (n : Nat)
  | fieldOutOfRange (field : Field) (value width : Nat)
  deriving DecidableEq, Repr

/-- What the environment sees of one operation: its events in the order raised (R42), and its result. -/
structure Answer where
  events : List Event
  result : Result
  deriving DecidableEq, Repr

/-- The transmit controller's registers (R16). -/
structure Tx where
  lastSeq : Seq
  explicitCount : BitVec 5
  inReplay : Bool
  firstReplay : Bool
  deriving DecidableEq, Repr

/-- The transmit statistics (R17): natural numbers that never wrap, unless STAT_WIDTH is finite (`countUp`). -/
structure TxStats where
  replaySequences : Nat
  acksSent : Nat
  replayRequestsSent : Nat
  deriving DecidableEq, Repr

/-- The command processor's counters (R18), counted like the statistics. -/
structure Cmd where
  acksReceived : Nat
  replayRequestsReceived : Nat
  deriving DecidableEq, Repr

/-- The Ack / Replay-Request manager (R19), an unbounded natural (decision D24). -/
structure Arm where
  flitsSinceAck : Nat
  deriving DecidableEq, Repr

/-- A packet of the arbiter: its first DWord and the others, so that it never is empty (R64). -/
structure Packet where
  first : DWord
  rest : List DWord
  deriving DecidableEq, Repr

/-- The DL-message arbiter (R20); `lastServed` none is the source's None. -/
structure Dmq where
  qBasic : List Packet
  qControl : List Packet
  qUart : List Packet
  lastServed : Option DlClass
  uartMultiProgress : Bool
  uartPending : List DWord
  deriving DecidableEq, Repr

/-- The architectural state S of the spec: replay buffer (R14, oldest first), receive tracker (R15), transmit controller
(R16, R17), command processor (R18), Ack manager (R19), arbiter (R20) and the counters of the composites (R21). -/
structure Block where
  rb : List Entry
  expectedSeq : Seq
  tx : Tx
  stats : TxStats
  cmd : Cmd
  arm : Arm
  dmq : Dmq
  rxCrcErrors : Nat
  replayUnknownSeq : Nat
  deriving DecidableEq, Repr

/-- The machine. `block` is the spec's S. `cfg` is the configuration of R23, which no step writes. The other two are the
model's own account of the boundary (log entries 1 and 3): `program` holds the requests the caller has presented and that
have not run, first to run first ("the caller's sequence of operations is the program"); `trace` holds what each operation
that has run answered, oldest first. -/
structure State where
  cfg : Config
  block : Block
  program : List Request
  trace : List Answer
  deriving DecidableEq, Repr

/-- The transmit controller after reset (R16, R26). -/
def Tx.reset : Tx := { lastSeq := 0#9, explicitCount := 0x1F#5, inReplay := false, firstReplay := false }

/-- The transmit statistics after reset (R17, R26). -/
def TxStats.reset : TxStats := { replaySequences := 0, acksSent := 0, replayRequestsSent := 0 }

/-- The arbiter after reset (R20, R26). -/
def Dmq.reset : Dmq :=
  { qBasic := [], qControl := [], qUart := [], lastServed := .none, uartMultiProgress := false, uartPending := [] }

/-- The power-on state of the block (R26, R185). -/
def Block.reset : Block :=
  { rb := [], expectedSeq := 1#9, tx := Tx.reset, stats := TxStats.reset,
    cmd := { acksReceived := 0, replayRequestsReceived := 0 }, arm := { flitsSinceAck := 0 }, dmq := Dmq.reset,
    rxCrcErrors := 0, replayUnknownSeq := 0 }

/-- The machine right after reset: nothing presented, nothing answered. -/
def State.reset : State := { cfg := Config.standard, block := Block.reset, program := [], trace := [] }

end Sys2Proof.Machine
end

