-- ==== Sys2Proof/Machine/Operands.lean ====
section
/-! DEFINITION. Reading and building the byte strings of a flit: slices, the segment geometry and slot map of rules R46, R47
and R81, and the regions of a flit (R39, R45). -/

namespace Sys2Proof.Machine

/-! ## Byte strings (R7, R8, R30) -/

/-- `zeros(n)`. -/
def zeros (n : Nat) : Bytes n := ⟨List.replicate n 0#8, List.length_replicate⟩

/-- Concatenation, the first string first. -/
def joinBytes {m n : Nat} (a : Bytes m) (b : Bytes n) : Bytes (m + n) :=
  ⟨a.val ++ b.val, by rw [List.length_append, a.size, b.size]⟩

/-- `MemRead`: the `n` bytes from address `a`, defined only inside the string (R30). -/
def readBytes {m : Nat} (b : Bytes m) (a n : Nat) (h : a + n ≤ m) : Bytes n :=
  ⟨(b.val.drop a).take n, by rw [List.length_take, List.length_drop, b.size]; omega⟩

/-- `b[i]`. -/
def byteAt {m : Nat} (b : Bytes m) (i : Nat) (h : i < m) : Byte := b.val[i]'(by rw [b.size]; exact h)

/-- `MemWrite`: the bytes from address `a` replaced by `d`, defined only inside the string (R8, R30). -/
def writeBytes {m n : Nat} (b : Bytes m) (a : Nat) (d : Bytes n) (h : a + n ≤ m) : Bytes m :=
  ⟨b.val.take a ++ d.val ++ b.val.drop (a + n), by
    rw [List.length_append, List.length_append, List.length_take, List.length_drop, b.size, d.size]; omega⟩

/-! ## Segments and slots (R46, R47) -/

/-- SEG_OFF: where a segment begins, as a payload offset (R5, R46). -/
def segOff : Fin 5 → Nat
  | 0 => 0
  | 1 => 128
  | 2 => 256
  | 3 => 384
  | 4 => 508

/-- SEG_SIZE: a segment's bytes (R5, R46). -/
def segSize : Fin 5 → Nat
  | 0 => 128
  | 1 => 128
  | 2 => 128
  | 3 => 124
  | 4 => 120

/-- The segments in index order. -/
def segments : List (Fin 5) := [0, 1, 2, 3, 4]

/-- A segment lies inside the payload. -/
theorem seg_inside (k : Fin 5) : segOff k + segSize k ≤ 628 := by revert k; decide

/-- Every segment has room for slot 0. -/
theorem seg_slot0_inside (k : Fin 5) : 64 ≤ segSize k := by revert k; decide

/-- `place` of R81: the segment an offset lies in, and its slot (integer division). -/
def place (off : Nat) : Option (Fin 5 × Nat) :=
  (segments.find? fun k => decide (segOff k ≤ off) && decide (off < segOff k + segSize k)).map
    fun k => (k, (off - segOff k) / 64)

/-! ## The regions of a flit (R39, R45) -/

/-- The covered region: flit bytes 0 to 635 (CRC_COVER, R72). -/
def covered (f : Flit) : Bytes 636 := readBytes f 0 636 (by decide)

/-- The CRC field: flit bytes 636 to 639 (R72). -/
def crcField (f : Flit) : Bytes 4 := readBytes f 636 4 (by decide)

/-- The header value H of flit bytes 0 to 2 (R7, R53). -/
def flitHeader (f : Flit) : BitVec 24 :=
  headerWord (byteAt f 0 (by decide)) (byteAt f 1 (by decide)) (byteAt f 2 (by decide))

/-- The segment header of segment k, flit byte 3 + k (R45, R52). -/
def segHeader (f : Flit) (k : Fin 5) : SegFields := decSeg (byteAt f (3 + k.val) (by omega))

/-- The 64 bytes of slot 0 of segment k, payload offset SEG_OFF[k], payload offset p being flit byte 8 + p (R31, R47). -/
def slot0 (f : Flit) (k : Fin 5) : TlData :=
  readBytes f (8 + segOff k) 64 (by have := seg_inside k; have := seg_slot0_inside k; omega)

/-- The 64 bytes of slot 1, which exists only in a segment of 128 bytes (R47). -/
def slot1 (f : Flit) (k : Fin 5) (h : 128 ≤ segSize k) : TlData :=
  readBytes f (8 + segOff k + 64) 64 (by have := seg_inside k; omega)

/-! ## Both readings of a header (R55, R87) -/

/-- Both field sets of a header value. -/
def headerFields (h : BitVec 24) : HeaderFields := { explicit := decExplicit h, command := decCommand h }

end Sys2Proof.Machine
end

