-- ==== Sys2Proof/Machine/Flags.lean ====
section
/-! DEFINITION. The block has no condition codes (rule R22); what is tested is computed here: distances and windows in the
modulo-511 sequence space, the classification of an arrival, the explicit-flit counter's tick, and one more on a statistic
(R17, R95 to R97, R106, R107, R110, R119, R133). -/

namespace Sys2Proof.Machine

/-- RETIRE_WINDOW (R5, R97, decision D13). -/
def retireWindow : Nat := 255

/-- DUP_WINDOW (R5, R107, decision D12). -/
def dupWindow : Nat := 255

/-- RB_CAPACITY (R5, R14). -/
def rbCapacity : Nat := 512

/-- `wrap_seq` of R95: 511 is followed by 1. -/
def wrapSeq (x : Seq) : Seq := if x = 511#9 then 1#9 else x + 1#9

/-- `fwd(a, b) = (a − b) mod 511` of R96. A sequence number is at most 511, so adding 511 first keeps it natural. -/
def fwd (a b : Seq) : Nat := (a.toNat + 511 - b.toNat) % 511

/-- `seq_leq` of R97: the retire comparison. -/
def seqLeq (q ackSeq : Seq) : Bool := decide (fwd ackSeq q < retireWindow)

/-- The test of R106. -/
def isExpected (expectedSeq q : Seq) : Bool := decide (q = expectedSeq)

/-- The half-window test of R107. -/
def isDuplicate (expectedSeq q : Seq) : Bool :=
  decide (1 ≤ fwd expectedSeq q) && decide (fwd expectedSeq q ≤ dupWindow)

/-- Expected before duplicate before gap (R110, R174). -/
def classify (expectedSeq q : Seq) : Arrival :=
  if isExpected expectedSeq q then .expected
  else if isDuplicate expectedSeq q then .duplicate
  else .gap

/-- Whether the in-order flit that brings the count to `n` is acknowledged (R133, R134). -/
def ackDue (ackEveryN n : Nat) : Bool := decide (ackEveryN = 0) || decide (ackEveryN ≤ n)

/-- A statistics counter one further (R17, R18, R21): unbounded by default, and with a finite STAT_WIDTH a free value past
the top (log entry 14). -/
def countUp (cfg : Config) (c : Counter) (n : Nat) : Nat :=
  match cfg.statWidth with
  | none => n + 1
  | some w => if n + 1 < 2 ^ w then n + 1 else (Config.counterAtTop c w).toNat

/-- EXPLICIT_COUNT_INIT (R5, R16). -/
def explicitCountInit : BitVec 5 := 0x1F#5

/-- The tick of R119: whether this is a command-flit opportunity, and the controller after it. A count of 0 on entry
never stands between operations (R16, R27). -/
def tick (t : Tx) : Except Fault (Bool × Tx) :=
  if t.firstReplay then .ok (true, { t with firstReplay := false, explicitCount := explicitCountInit })
  else if t.explicitCount = 0#5 then .error .explicitCountZero
  else if t.explicitCount - 1#5 = 0#5 then .ok (true, { t with explicitCount := explicitCountInit })
  else .ok (false, { t with explicitCount := t.explicitCount - 1#5 })

/-- The cyclic scan of R152 after the class served last; `rrFirst` says where it begins when nothing was served. -/
def scanOrder (rrFirst : RrFirst) : Option DlClass → List DlClass
  | some .basic => [.control, .uart, .basic]
  | some .control => [.uart, .basic, .control]
  | some .uart => [.basic, .control, .uart]
  | none =>
    match rrFirst with
    | .control => [.control, .uart, .basic]
    | .uart => [.uart, .basic, .control]

end Sys2Proof.Machine
end

