-- ==== Sys2Proof/Machine/Ops.lean ====
section
/-! DEFINITION. The named operations every meaning goes through: completing an operation with its events and result (R6,
R42), ending one with an error result (R165, R175: the block's only kind of exception, which saves nothing, switches no
mode and transfers control nowhere), fetching the next request, and the CRC-32 function with the command flit that R57
builds with it. -/

namespace Sys2Proof.Machine

/-! ## Completing an operation -/

/-- The state after an operation: the block as it leaves it, and its answer added to the trace. -/
def State.answer (s : State) (b : Block) (events : List Event) (r : Result) : State :=
  { s with block := b, trace := s.trace ++ [{ events := events, result := r }] }

/-- An operation that ends normally. -/
def State.complete (s : State) (b : Block) (events : List Event) (r : Result) : Host.Outcome State Fault Refusal :=
  .next (s.answer b events r)

/-- An operation that only reads: the block stays as it is and no event is raised. -/
def State.reply (s : State) (r : Result) : Host.Outcome State Fault Refusal := s.complete s.block [] r

/-- Taking an error (R165, R175): the operation ends with its error result, and of the state nothing is changed but the
one counter `b` differs in, where the error has one. The next operation proceeds normally, so that there is no return
to model (R176). -/
def State.raise (s : State) (b : Block) (r : Result) : Host.Outcome State Fault Refusal := s.complete b [] r

/-! ## Presenting and fetching (R6, R11) -/

/-- The next request the caller has presented, and the machine with it taken off. -/
def State.fetch (s : State) : Option (Request × State) :=
  match s.program with
  | [] => none
  | r :: rest => some (r, { s with program := rest })

/-- A request presented so that the very next step runs it. -/
def State.present (s : State) (r : Request) : State := { s with program := r :: s.program }

/-- What a request that is no instruction does. FieldOutOfRange is an error result and the machine goes on (R170:
"reproduce the error as a result variant"); the others have no meaning in the spec. -/
def State.reject (s : State) : Reject → Host.Outcome State Fault Refusal
  | .fieldOutOfRange field value width => s.raise s.block (.fieldOutOfRange field value width)
  | .operandShape op => .refused (.operandShape op)
  | .byteCount op n => .refused (.byteCount op n)
  | .noWireFormat n => .refused (.noWireFormat n)
  | .compressedFlagSet w => .refused (.compressedFlagSet w)

/-! ## CRC-32 (R70 to R76) -/

/-- CRC_POLY (R5, R70). -/
def crcPoly : BitVec 32 := 0x04C11DB7#32

/-- CRC_INIT (R5, R12). -/
def crcInit : BitVec 32 := 0xFFFFFFFF#32

/-- CRC_XOROUT (R5). -/
def crcXorOut : BitVec 32 := 0xFFFFFFFF#32

/-- One bit of the register: the inner loop of R70. -/
def crcBit (r : BitVec 32) : BitVec 32 := if r.msb then (r <<< 1) ^^^ crcPoly else r <<< 1

/-- `n` bits of the register. -/
def crcBits : Nat → BitVec 32 → BitVec 32
  | 0, r => r
  | n + 1, r => crcBits n (crcBit r)

/-- One byte, most significant bit first (R70). -/
def crcByte (r : BitVec 32) (x : Byte) : BitVec 32 := crcBits 8 (r ^^^ (x.setWidth 32 <<< 24))

/-- The register after a byte string, before the final XOR (R70, R76). -/
def crcRun (r : BitVec 32) (b : List Byte) : BitVec 32 := b.foldl crcByte r

/-- `CRC32` of R70; with CRC_REFLECT each input byte is bit-reversed before use and the register before the final XOR
(R75). -/
def crc32 (reflect : Bool) (b : List Byte) : BitVec 32 :=
  if reflect then (crcRun crcInit (b.map BitVec.reverse)).reverse ^^^ crcXorOut
  else crcRun crcInit b ^^^ crcXorOut

/-- Entry i of the table of R71. -/
def crcTable (i : Byte) : BitVec 32 := crcBits 8 (i.setWidth 32 <<< 24)

/-- The table-driven step of R71. -/
def crcByteByTable (r : BitVec 32) (x : Byte) : BitVec 32 := (r <<< 8) ^^^ crcTable (r.extractLsb' 24 8 ^^^ x)

/-- A body of 636 bytes with its CRC field (R57, R72, R80 step 4). -/
def sealFlit (reflect : Bool) (body : Bytes 636) : Flit := joinBytes body (be32 (crc32 reflect body.val))

/-- `CRC32_CHECK` of R73. -/
def crcGood (reflect : Bool) (f : Flit) : Bool := decide (be32 (crc32 reflect (covered f).val) = crcField f)

/-- `cmd_flit` of R57: the header, five zero segment headers, a zero payload, a valid CRC (decision D9). -/
def cmdFlit (reflect : Bool) (op : BitVec 3) (q : Seq) (lo : BitVec 3) : Flit :=
  sealFlit reflect (joinBytes (encCommand op q lo) (joinBytes (zeros 5) (zeros 628)))

/-- OP_ACK (R5, R51). -/
def opAck : BitVec 3 := 0b010#3

/-- OP_REPLAY_REQ (R5, R51). -/
def opReplayReq : BitVec 3 := 0b011#3

/-- `last_seq[2:0]` (R120, R135). -/
def txLo (t : Tx) : BitVec 3 := t.lastSeq.extractLsb' 0 3

/-! ## The wire words (R50 to R59) -/

/-- What a flit header by itself tells: both readings and the one the receive path takes (R50, R51, R87). -/
def State.describeHeader (s : State) (h : BitVec 24) : Host.Outcome State Fault Refusal :=
  s.reply (.classified (headerKind h) (headerFields h))

end Sys2Proof.Machine
end

