-- ==== Sys2Proof/Machine/Arbiter.lean ====
section
/-! DEFINITION. The round-robin DL-message arbiter with the UART multi-DWord lock (rules R150 to R159). It never reads inside
a DWord (R159). -/

namespace Sys2Proof.Machine

/-- The FIFO of a class (R20). -/
def queueOf (d : Dmq) : DlClass → List Packet
  | .basic => d.qBasic
  | .control => d.qControl
  | .uart => d.qUart

/-- The FIFO of a class replaced. -/
def setQueue (d : Dmq) (c : DlClass) (q : List Packet) : Dmq :=
  match c with
  | .basic => { d with qBasic := q }
  | .control => { d with qControl := q }
  | .uart => { d with qUart := q }

/-- Whether the FIFO of a class takes one more packet: always at the default of ARB_FIFO_DEPTH, unbounded (R5, decision
D30; log entry 14). -/
def fifoHasRoom (cfg : Config) (d : Dmq) (c : DlClass) : Bool :=
  match cfg.arbFifoDepth with
  | none => true
  | some depth => decide ((queueOf d c).length < depth)

/-- `DMQ_ENQUEUE` of R150 for an admitted packet: to the back of its class's FIFO. -/
def dmqEnqueue (c : DlClass) (p : Packet) (d : Dmq) : Dmq := setQueue d c (queueOf d c ++ [p])

/-- Step 3 of R151: the front packet of class c is started; more than one DWord takes the UART lock. -/
def servePacket (d : Dmq) (c : DlClass) (p : Packet) (others : List Packet) : Bytes 4 × Dmq :=
  if p.rest = [] then (be32 p.first, { setQueue d c others with lastServed := some c })
  else (be32 p.first,
    { setQueue d c others with uartPending := p.rest, uartMultiProgress := true, lastServed := some .uart })

/-- Step 2 of R151: the first class of the scan with a packet waiting; none leaves everything as it is. -/
def roundRobin : List DlClass → Dmq → Option (Bytes 4) × Dmq
  | [], d => (none, d)
  | c :: cs, d =>
    match queueOf d c with
    | [] => roundRobin cs d
    | p :: others => (some (servePacket d c p others).1, (servePacket d c p others).2)

/-- `DMQ_POP_NEXT_DWORD` of R151: the lock before the round robin (R174). A lock without a pending DWord never stands
between operations (R20). -/
def dmqPop (rrFirst : RrFirst) (d : Dmq) : Except Fault (Option (Bytes 4) × Dmq) :=
  if d.uartMultiProgress then
    match d.uartPending with
    | [] => .error .lockWithoutPending
    | x :: rest => .ok (some (be32 x), { d with uartPending := rest, uartMultiProgress := !rest.isEmpty })
  else .ok (roundRobin (scanOrder rrFirst d.lastServed) d)

/-- DMQ_ENQUEUE: R150; a packet that breaks its `require` is refused, and one a finite FIFO has no room for (decision D30). -/
def execDmqEnqueue (c : DlClass) (dws : List DWord) (s : State) : Host.Outcome State Fault Refusal :=
  match dws with
  | [] => .refused (.illegalPacket c 0)
  | first :: rest =>
    if packetAdmitted c (first :: rest) then
      if fifoHasRoom s.cfg s.block.dmq c then
        s.complete { s.block with dmq := dmqEnqueue c { first := first, rest := rest } s.block.dmq } [] .none
      else .refused (.arbFifoFull c)
    else .refused (.illegalPacket c (rest.length + 1))

/-- DMQ_POP_NEXT_DWORD: R151, R158 (at most one DWord a call). -/
def execDmqPopNextDword (s : State) : Host.Outcome State Fault Refusal :=
  match dmqPop s.cfg.rrFirstAfterNone s.block.dmq with
  | .ok r => s.complete { s.block with dmq := r.2 } [] (.optBytes r.1)
  | .error e => .fault e

end Sys2Proof.Machine
end

