-- ==== Sys2Proof/Machine/CmdAck.lean ====
section
/-! DEFINITION. Recognising a command flit, and deciding what to send back for an arrival (rules R130 to R135). -/

namespace Sys2Proof.Machine

/-- `CMD_PROCESS` of R130, in the normative order payload_bit, CRC, op (R131): whether the flit is consumed, the events
raised (R132), and the block after it. A command flit with a bad CRC is consumed and nothing else happens (R169). -/
def cmdProcess (cfg : Config) (f : Flit) (b : Block) : Bool × List Event × Block :=
  let h := decCommand (flitHeader f)
  if h.payloadBit ≠ 0#1 then (false, [], b)
  else if !crcGood cfg.crcReflect f then (true, [], b)
  else if h.op = opAck then
    (true, [.ackEvent h.ackReqSeq],
      { b with cmd := { b.cmd with acksReceived := countUp cfg .acksReceived b.cmd.acksReceived } })
  else if h.op = opReplayReq then
    (true, [.replayRequestEvent h.ackReqSeq],
      { b with cmd := { b.cmd with
          replayRequestsReceived := countUp cfg .replayRequestsReceived b.cmd.replayRequestsReceived } })
  else (false, [], b)

/-- `ARM_PROCESS_RECEIVED` of R133: the command flit to send back, if any, and the block after it. -/
def armProcessReceived (cfg : Config) (q : Seq) (lo : BitVec 3) (b : Block) : Option Flit × Block :=
  match classify b.expectedSeq q with
  | .expected =>
    let advanced := { b with expectedSeq := wrapSeq b.expectedSeq }
    if ackDue cfg.ackEveryN (b.arm.flitsSinceAck + 1) then
      (some (cmdFlit cfg.crcReflect opAck q lo), { advanced with arm := { flitsSinceAck := 0 } })
    else (none, { advanced with arm := { flitsSinceAck := b.arm.flitsSinceAck + 1 } })
  | .duplicate => (none, b)
  | .gap => (some (cmdFlit cfg.crcReflect opReplayReq b.expectedSeq lo), b)

/-- CMD_PROCESS: R130. -/
def execCmdProcess (f : Flit) (s : State) : Host.Outcome State Fault Refusal :=
  let r := cmdProcess s.cfg f s.block
  s.complete r.2.2 r.2.1 (.bool r.1)

/-- ARM_PROCESS_RECEIVED: R133. -/
def execArmProcessReceived (q : Seq) (lo : BitVec 3) (s : State) : Host.Outcome State Fault Refusal :=
  let r := armProcessReceived s.cfg q lo s.block
  s.complete r.2 [] (.optFlit r.1)

end Sys2Proof.Machine
end

