-- ==== Sys2Proof/Machine/FlitCodec.lean ====
section
/-! DEFINITION. The flit frame assembler and disassembler (rules R80 to R87): pure functions of their operands (R13). -/

namespace Sys2Proof.Machine

/-! ## Assembly (R80, R81) -/

/-- A segment header record before any slot is filled (R80). -/
def emptySeg : SegFields :=
  { tlFlit1 := 0#1, message1 := 0#2, tlFlit0 := 0#1, message0 := 0#2, reserved := 0#1, dlAltSector := 0#1 }

/-- Step 2 of R80: the slot's `tl_flit` and `message` fields set in its segment's record. -/
def markSlot (target : Option (Fin 5 × Nat)) (msg : BitVec 2) (sh : Fin 5 → SegFields) : Fin 5 → SegFields :=
  match target with
  | none => sh
  | some (k, slot) => fun j =>
    if j = k then
      if slot = 0 then { sh k with tlFlit0 := 1#1, message0 := msg }
      else { sh k with tlFlit1 := 1#1, message1 := msg }
    else sh j

/-- The loop of R80 from TL flit i on: each goes to payload offset 64·i and marks the slot `place` gives (R81). -/
def packLoop : (i : Nat) → (tls : List Tl) → i + tls.length ≤ 7 → Bytes 628 → (Fin 5 → SegFields) →
    Bytes 628 × (Fin 5 → SegFields)
  | _, [], _, payload, sh => (payload, sh)
  | i, t :: rest, h, payload, sh =>
    packLoop (i + 1) rest (by rw [List.length_cons] at h; omega)
      (writeBytes payload (64 * i) t.data (by rw [List.length_cons] at h; omega))
      (markSlot (place (64 * i)) t.msg sh)

/-- A record's byte as the assembler writes it: reserved and dl_alt_sector 0 (R54, decision D8). -/
def recordByte (f : SegFields) : Byte := encSeg f.tlFlit1 f.message1 f.tlFlit0 f.message0

/-- Step 3 of R80: the five segment-header bytes. -/
def segBytes (sh : Fin 5 → SegFields) : Bytes 5 :=
  ⟨[recordByte (sh 0), recordByte (sh 1), recordByte (sh 2), recordByte (sh 3), recordByte (sh 4)], rfl⟩

/-- `FLIT_PACK` of R80 for the admitted lists of TL flits. -/
def flitPack (reflect : Bool) (tls : List Tl) (h : tls.length ≤ 7) (op : BitVec 3) (payloadBit : BitVec 1)
    (flitSeqNo : Seq) : Flit :=
  let r := packLoop 0 tls (by omega) (zeros 628) (fun _ => emptySeg)
  sealFlit reflect (joinBytes (encExplicit op payloadBit flitSeqNo) (joinBytes (segBytes r.2) r.1))

/-! ## Disassembly (R83, R84) -/

/-- The TL flits of one segment, slot 0 before slot 1 (R83). -/
def unpackSegment (f : Flit) (k : Fin 5) : List Tl :=
  (if (segHeader f k).tlFlit0 = 1#1 then [{ data := slot0 f k, msg := (segHeader f k).message0 }] else []) ++
  (if h : (segHeader f k).tlFlit1 = 1#1 ∧ 128 ≤ segSize k then
    [{ data := slot1 f k h.2, msg := (segHeader f k).message1 }] else [])

/-- `FLIT_UNPACK` of R83: in segment index order. -/
def flitUnpack (f : Flit) : List Tl := segments.flatMap (unpackSegment f)

/-- `FLIT_UNPACK_CHECKED` of R84; none is the CrcError. -/
def flitUnpackChecked (reflect : Bool) (f : Flit) : Option (List Tl) :=
  if crcGood reflect f then some (flitUnpack f) else none

/-! ## The meanings -/

/-- FLIT_PACK: R80; eight or more TL flits are refused (R82). -/
def execFlitPack (tls : List Tl) (op : BitVec 3) (payloadBit : BitVec 1) (flitSeqNo : Seq) (s : State) :
    Host.Outcome State Fault Refusal :=
  if h : tls.length ≤ 7 then
    s.reply (.packed (flitPack s.cfg.crcReflect tls h op payloadBit flitSeqNo) (BitVec.ofNat 4 tls.length))
  else .refused (.tooManyTlFlits tls.length)

/-- FLIT_UNPACK: R83. -/
def execFlitUnpack (f : Flit) (s : State) : Host.Outcome State Fault Refusal := s.reply (.tls (flitUnpack f))

/-- FLIT_UNPACK_CHECKED: R84. -/
def execFlitUnpackChecked (f : Flit) (s : State) : Host.Outcome State Fault Refusal :=
  s.reply (.checkedTls (flitUnpackChecked s.cfg.crcReflect f))

/-- HDR_DECODE: R87. -/
def execHdrDecode (f : Flit) (s : State) : Host.Outcome State Fault Refusal :=
  s.reply (.header (headerFields (flitHeader f)))

end Sys2Proof.Machine
end

