-- ==== Sys2Proof/Machine/ReplaySeq.lean ====
section
/-! DEFINITION. The replay buffer and the receive sequence tracker (rules R98 to R104, R106 to R109). -/

namespace Sys2Proof.Machine

/-! ## Replay buffer -/

/-- `RB_ADD` of R98: appends unless the buffer holds 512 entries; no check of the number (decision D17). -/
def rbAdd (q : Seq) (f : Flit) (b : Block) : Bool × Block :=
  if b.rb.length = rbCapacity then (false, b) else (true, { b with rb := b.rb ++ [{ seq := q, flit := f }] })

/-- The loop of R99: entries leave from the head while they are at or before `ackSeq`, and the loop stops after the
entry whose number is `ackSeq`. -/
def retire (ackSeq : Seq) : List Entry → List Entry
  | [] => []
  | e :: rest => if seqLeq e.seq ackSeq then (if e.seq = ackSeq then rest else retire ackSeq rest) else e :: rest

/-- `RB_RETIRE_THROUGH` of R99. -/
def rbRetireThrough (ackSeq : Seq) (b : Block) : Block := { b with rb := retire ackSeq b.rb }

/-- `RB_REPLAY_ITER` of R104: from the oldest entry numbered `r` to the newest; empty when there is none. -/
def rbReplayIter (r : Seq) (b : Block) : List Entry := b.rb.dropWhile fun e => decide (e.seq ≠ r)

/-- RB_ADD: R98; a full buffer is the error ReplayBufferFull (R167), reported as false. -/
def execRbAdd (q : Seq) (f : Flit) (s : State) : Host.Outcome State Fault Refusal :=
  s.complete (rbAdd q f s.block).2 [] (.bool (rbAdd q f s.block).1)

/-- RB_RETIRE_THROUGH: R99. -/
def execRbRetireThrough (ackSeq : Seq) (s : State) : Host.Outcome State Fault Refusal :=
  s.complete (rbRetireThrough ackSeq s.block) [] .none

/-- RB_OLDEST_SEQ: R100. -/
def execRbOldestSeq (s : State) : Host.Outcome State Fault Refusal :=
  s.reply (.optSeq (s.block.rb.head?.map Entry.seq))

/-- RB_NEWEST_SEQ: R101. -/
def execRbNewestSeq (s : State) : Host.Outcome State Fault Refusal :=
  s.reply (.optSeq (s.block.rb.getLast?.map Entry.seq))

/-- RB_CLEAR: R102. -/
def execRbClear (s : State) : Host.Outcome State Fault Refusal := s.complete { s.block with rb := [] } [] .none

/-- RB_SIZE: R103. -/
def execRbSize (s : State) : Host.Outcome State Fault Refusal := s.reply (.size s.block.rb.length)

/-- RB_REPLAY_ITER: R104. -/
def execRbReplayIter (r : Seq) (s : State) : Host.Outcome State Fault Refusal :=
  s.reply (.entries (rbReplayIter r s.block))

/-! ## Receive sequence tracker -/

/-- ST_IS_EXPECTED: R106. -/
def execStIsExpected (q : Seq) (s : State) : Host.Outcome State Fault Refusal :=
  s.reply (.bool (isExpected s.block.expectedSeq q))

/-- ST_IS_DUPLICATE: R107. -/
def execStIsDuplicate (q : Seq) (s : State) : Host.Outcome State Fault Refusal :=
  s.reply (.bool (isDuplicate s.block.expectedSeq q))

/-- ST_ADVANCE: R108. -/
def execStAdvance (s : State) : Host.Outcome State Fault Refusal :=
  s.complete { s.block with expectedSeq := wrapSeq s.block.expectedSeq } [] .none

/-- ST_RESET: R109; `flits_since_ack` stays. -/
def execStReset (s : State) : Host.Outcome State Fault Refusal :=
  s.complete { s.block with expectedSeq := 1#9 } [] .none

end Sys2Proof.Machine
end

