-- ==== Sys2Proof/Machine/TxController.lean ====
section
/-! DEFINITION. The transmit controller: sequence allocator, replay mode, explicit-flit counter, command-flit builders (rules
R115 to R122). -/

namespace Sys2Proof.Machine

/-- `TX_NEXT_PAYLOAD_SEQ` of R115: the number, whether to buffer, and the block after it. -/
def txNextPayloadSeq (b : Block) : (Seq × Bool) × Block :=
  ((wrapSeq b.tx.lastSeq, !b.tx.inReplay), { b with tx := { b.tx with lastSeq := wrapSeq b.tx.lastSeq } })

/-- `TX_START_REPLAY` of R117. -/
def txStartReplay (cfg : Config) (b : Block) : Block :=
  { b with tx := { b.tx with inReplay := true, firstReplay := true },
           stats := { b.stats with replaySequences := countUp cfg .replaySequences b.stats.replaySequences } }

/-- `TX_FINISH_REPLAY` of R118. -/
def txFinishReplay (b : Block) : Block := { b with tx := { b.tx with inReplay := false, firstReplay := false } }

/-- `TX_TICK_EXPLICIT_COUNT` of R119 on the block. -/
def txTick (b : Block) : Except Fault (Bool × Block) := (tick b.tx).map fun r => (r.1, { b with tx := r.2 })

/-- TX_NEXT_PAYLOAD_SEQ: R115. -/
def execTxNextPayloadSeq (s : State) : Host.Outcome State Fault Refusal :=
  s.complete (txNextPayloadSeq s.block).2 []
    (.seqToBuffer (txNextPayloadSeq s.block).1.1 (txNextPayloadSeq s.block).1.2)

/-- TX_NOP_SEQ: R116. -/
def execTxNopSeq (s : State) : Host.Outcome State Fault Refusal := s.reply (.seq s.block.tx.lastSeq)

/-- TX_START_REPLAY: R117. -/
def execTxStartReplay (s : State) : Host.Outcome State Fault Refusal :=
  s.complete (txStartReplay s.cfg s.block) [] .none

/-- TX_FINISH_REPLAY: R118. -/
def execTxFinishReplay (s : State) : Host.Outcome State Fault Refusal := s.complete (txFinishReplay s.block) [] .none

/-- TX_TICK_EXPLICIT_COUNT: R119. -/
def execTxTickExplicitCount (s : State) : Host.Outcome State Fault Refusal :=
  match txTick s.block with
  | .ok r => s.complete r.2 [] (.bool r.1)
  | .error e => .fault e

/-- TX_MAKE_ACK: R120. -/
def execTxMakeAck (ackSeq : Seq) (s : State) : Host.Outcome State Fault Refusal :=
  s.complete
    { s.block with stats := { s.block.stats with acksSent := countUp s.cfg .acksSent s.block.stats.acksSent } } []
    (.flit (cmdFlit s.cfg.crcReflect opAck ackSeq (txLo s.block.tx)))

/-- TX_MAKE_REPLAY_REQUEST: R121. -/
def execTxMakeReplayRequest (r : Seq) (s : State) : Host.Outcome State Fault Refusal :=
  s.complete
    { s.block with stats := { s.block.stats with
        replayRequestsSent := countUp s.cfg .replayRequestsSent s.block.stats.replayRequestsSent } } []
    (.flit (cmdFlit s.cfg.crcReflect opReplayReq r (txLo s.block.tx)))

/-- TX_RESET: R122. -/
def execTxReset (zeroStats : Bool) (s : State) : Host.Outcome State Fault Refusal :=
  s.complete { s.block with tx := Tx.reset, stats := if zeroStats then TxStats.reset else s.block.stats } [] .none

end Sys2Proof.Machine
end

