-- ==== Sys2Proof/Machine/Composite.lean ====
section
/-! DEFINITION. The composite operations (rules R138 to R142), each a fixed sequence of the primitives (R66), and the events
they raise in the order of their pseudocode (R42). -/

namespace Sys2Proof.Machine

/-- `EP_SEND_PAYLOAD` of R138: room is tested before a number is taken (R174). -/
def epSendPayload (reflect : Bool) (tls : List Tl) (h : tls.length ≤ 7) (b : Block) :
    Except Fault (Result × List Event × Block) :=
  if b.rb.length = rbCapacity then .ok (.replayBufferFull, [], b)
  else
    let q := (txNextPayloadSeq b).1.1
    let f := flitPack reflect tls h 0b000#3 1#1 q
    let numbered := (txNextPayloadSeq b).2
    let kept := if (txNextPayloadSeq b).1.2 then (rbAdd q f numbered).2 else numbered
    (txTick kept).map fun r => (.sent q r.1, [.transmit f], r.2)

/-- `EP_REPLAY_FROM` of R141: the count of flits re-emitted, the TRANSMIT events, and the block after it. An unknown
number is dropped and counted (R168). -/
def epReplayFrom (cfg : Config) (r : Seq) (b : Block) : Nat × List Event × Block :=
  let view := rbReplayIter r b
  if view = [] then (0, [], { b with replayUnknownSeq := countUp cfg .replayUnknownSeq b.replayUnknownSeq })
  else (view.length, view.map fun e => .transmit e.flit, txFinishReplay (txStartReplay cfg b))

/-- The fixed handlers of R142: what an event raised by the CMD_PROCESS inside EP_RECEIVE_FLIT sets off. -/
def handleEvent (cfg : Config) (e : Event) (b : Block) : List Event × Block :=
  match e with
  | .ackEvent a => ([], rbRetireThrough a b)
  | .replayRequestEvent r => ((epReplayFrom cfg r b).2.1, (epReplayFrom cfg r b).2.2)
  | .transmit _ => ([], b)
  | .deliver _ => ([], b)

/-- The events of a list with what each sets off, one after another (R42, R142). -/
def handleEvents (cfg : Config) : List Event → Block → List Event × Block
  | [], b => ([], b)
  | e :: rest, b =>
    let one := handleEvent cfg e b
    let others := handleEvents cfg rest one.2
    (e :: one.1 ++ others.1, others.2)

/-- The payload path of `EP_RECEIVE_FLIT` (R139): a good flit is classified, what the Ack manager answers is transmitted
at once, and the TL flits are delivered only when it was expected (decision D26). -/
def receivePayload (cfg : Config) (f : Flit) (tls : List Tl) (b : Block) : Received × List Event × Block :=
  let q := (decExplicit (flitHeader f)).flitSeqNo
  let r := armProcessReceived cfg q (txLo b.tx) b
  let sent : List Event := match r.1 with
    | none => []
    | some cf => [.transmit cf]
  match classify b.expectedSeq q with
  | .expected => (.accepted tls, sent ++ [.deliver tls], r.2)
  | .duplicate => (.duplicate, sent, r.2)
  | .gap => (.gap, sent, r.2)

/-- `EP_RECEIVE_FLIT` of R139: command recognition, then the payload's CRC, then its sequence number (R174). -/
def epReceiveFlit (cfg : Config) (f : Flit) (b : Block) : Received × List Event × Block :=
  let c := cmdProcess cfg f b
  if c.1 then
    let handled := handleEvents cfg c.2.1 c.2.2
    (.command, handled.1, handled.2)
  else
    match flitUnpackChecked cfg.crcReflect f with
    | none => (.crcError, c.2.1, { c.2.2 with rxCrcErrors := countUp cfg .rxCrcErrors c.2.2.rxCrcErrors })
    | some tls => receivePayload cfg f tls c.2.2

/-- EP_SEND_PAYLOAD: R138; eight or more TL flits are refused (R82). -/
def execEpSendPayload (tls : List Tl) (s : State) : Host.Outcome State Fault Refusal :=
  if h : tls.length ≤ 7 then
    match epSendPayload s.cfg.crcReflect tls h s.block with
    | .ok r => s.complete r.2.2 r.2.1 r.1
    | .error e => .fault e
  else .refused (.tooManyTlFlits tls.length)

/-- EP_RECEIVE_FLIT: R139, R142. -/
def execEpReceiveFlit (f : Flit) (s : State) : Host.Outcome State Fault Refusal :=
  let r := epReceiveFlit s.cfg f s.block
  s.complete r.2.2 r.2.1 (.received r.1)

/-- EP_PROCESS_ACK: R140. -/
def execEpProcessAck (ackSeq : Seq) (s : State) : Host.Outcome State Fault Refusal :=
  s.complete (rbRetireThrough ackSeq s.block) [] .none

/-- EP_REPLAY_FROM: R141. -/
def execEpReplayFrom (r : Seq) (s : State) : Host.Outcome State Fault Refusal :=
  let v := epReplayFrom s.cfg r s.block
  s.complete v.2.2 v.2.1 (.count v.1)

end Sys2Proof.Machine
end

