-- ==== Sys2Proof/Machine/Crc.lean ====
section
/-! DEFINITION. CRC32 and CRC32_CHECK (rules R70, R73, R75): pure functions of their operand (R12). -/

namespace Sys2Proof.Machine

/-- CRC32: R70. -/
def execCrc32 (b : List Byte) (s : State) : Host.Outcome State Fault Refusal :=
  s.reply (.value (crc32 s.cfg.crcReflect b))

/-- CRC32_CHECK: R73. -/
def execCrc32Check (f : Flit) (s : State) : Host.Outcome State Fault Refusal :=
  s.reply (.bool (crcGood s.cfg.crcReflect f))

end Sys2Proof.Machine
end

