-- ==== Sys2Proof/Machine/Reset.lean ====
section
/-! DEFINITION. The whole-block reset (rules R185, R186). -/

namespace Sys2Proof.Machine

/-- RESET: the block goes to its power-on state; configuration and what the caller has presented stay (R186). -/
def execReset (s : State) : Host.Outcome State Fault Refusal := s.complete Block.reset [] .none

end Sys2Proof.Machine
end

