-- ==== Sys2Proof/Machine/Wire.lean ====
section
/-! DEFINITION. The wire-format rows of the opcode table (rules R48 to R59). A format is not an operation (R6): what the
block does with one of its words by itself is to take it apart (R53, R55), and for a flit header to tell which kind it is
(R50, R51, R58). No state of the block is touched; what a whole flit does is the meaning of the operations (log entry 4). -/

namespace Sys2Proof.Machine

/-- EXPLICIT_FLIT_HEADER: R48, R51. -/
def execExplicitFlitHeader (reservedA : BitVec 3) (flitSeqNo : Seq) (reservedB : BitVec 8) (s : State) :
    Host.Outcome State Fault Refusal :=
  s.describeHeader (explicitWord 0b000#3 1#1 reservedA flitSeqNo reservedB)

/-- PAYLOAD_FLIT_AS_RECEIVED: R50, R58 (`op` is not looked at when `payload_bit` is 1). -/
def execPayloadFlitAsReceived (op : BitVec 3) (reservedA : BitVec 3) (flitSeqNo : Seq) (reservedB : BitVec 8)
    (s : State) : Host.Outcome State Fault Refusal :=
  s.describeHeader (explicitWord op 1#1 reservedA flitSeqNo reservedB)

/-- ACK: R49, R51. -/
def execAck (ackReqSeq : Seq) (flitSeqLo : BitVec 3) (reserved : BitVec 8) (s : State) :
    Host.Outcome State Fault Refusal :=
  s.describeHeader (commandWord opAck 0#1 ackReqSeq flitSeqLo reserved)

/-- REPLAY_REQUEST: R49, R51. -/
def execReplayRequest (ackReqSeq : Seq) (flitSeqLo : BitVec 3) (reserved : BitVec 8) (s : State) :
    Host.Outcome State Fault Refusal :=
  s.describeHeader (commandWord opReplayReq 0#1 ackReqSeq flitSeqLo reserved)

/-- UNASSIGNED_COMMAND_OP: R51, R58 (not consumed as a command). -/
def execUnassignedCommandOp (op : BitVec 3) (rest : BitVec 20) (s : State) : Host.Outcome State Fault Refusal :=
  s.describeHeader (op ++ 0#1 ++ rest : BitVec (3 + 1 + 20))

/-- SEGMENT_HEADER: R52, R55. -/
def execSegmentHeader (fields : SegFields) (s : State) : Host.Outcome State Fault Refusal :=
  s.reply (.segment (decSeg (segByte fields)))

/-- DL_MESSAGE_DWORD: R59. -/
def execDlMessageDword (messageSpecific : BitVec 23) (mtype : BitVec 3) (mclass : BitVec 4) (reserved : BitVec 1)
    (s : State) : Host.Outcome State Fault Refusal :=
  s.reply (.dword (decDword (dwordWord messageSpecific mtype mclass reserved)))

end Sys2Proof.Machine
end

