-- ==== Sys2Proof/Machine/Dispatch.lean ====
section
/-! DEFINITION. One arm per instruction, each a direct call of its meaning. -/

namespace Sys2Proof.Machine

def exec (i : Instr) (s : State) : Host.Outcome State Fault Refusal :=
  match i with
  | .explicitFlitHeader reservedA flitSeqNo reservedB => Sys2Proof.Machine.execExplicitFlitHeader reservedA flitSeqNo reservedB s
  | .payloadFlitAsReceived op reservedA flitSeqNo reservedB => Sys2Proof.Machine.execPayloadFlitAsReceived op reservedA flitSeqNo reservedB s
  | .ack ackReqSeq flitSeqLo reserved => Sys2Proof.Machine.execAck ackReqSeq flitSeqLo reserved s
  | .replayRequest ackReqSeq flitSeqLo reserved => Sys2Proof.Machine.execReplayRequest ackReqSeq flitSeqLo reserved s
  | .unassignedCommandOp op rest => Sys2Proof.Machine.execUnassignedCommandOp op rest s
  | .segmentHeader fields => Sys2Proof.Machine.execSegmentHeader fields s
  | .dlMessageDword messageSpecific mtype mclass reserved => Sys2Proof.Machine.execDlMessageDword messageSpecific mtype mclass reserved s
  | .crc32 b => Sys2Proof.Machine.execCrc32 b s
  | .crc32Check f => Sys2Proof.Machine.execCrc32Check f s
  | .flitPack tls op payloadBit flitSeqNo => Sys2Proof.Machine.execFlitPack tls op payloadBit flitSeqNo s
  | .flitUnpack f => Sys2Proof.Machine.execFlitUnpack f s
  | .flitUnpackChecked f => Sys2Proof.Machine.execFlitUnpackChecked f s
  | .hdrDecode f => Sys2Proof.Machine.execHdrDecode f s
  | .rbAdd q f => Sys2Proof.Machine.execRbAdd q f s
  | .rbRetireThrough ackSeq => Sys2Proof.Machine.execRbRetireThrough ackSeq s
  | .rbOldestSeq => Sys2Proof.Machine.execRbOldestSeq s
  | .rbNewestSeq => Sys2Proof.Machine.execRbNewestSeq s
  | .rbClear => Sys2Proof.Machine.execRbClear s
  | .rbSize => Sys2Proof.Machine.execRbSize s
  | .rbReplayIter r => Sys2Proof.Machine.execRbReplayIter r s
  | .stIsExpected q => Sys2Proof.Machine.execStIsExpected q s
  | .stIsDuplicate q => Sys2Proof.Machine.execStIsDuplicate q s
  | .stAdvance => Sys2Proof.Machine.execStAdvance s
  | .stReset => Sys2Proof.Machine.execStReset s
  | .txNextPayloadSeq => Sys2Proof.Machine.execTxNextPayloadSeq s
  | .txNopSeq => Sys2Proof.Machine.execTxNopSeq s
  | .txStartReplay => Sys2Proof.Machine.execTxStartReplay s
  | .txFinishReplay => Sys2Proof.Machine.execTxFinishReplay s
  | .txTickExplicitCount => Sys2Proof.Machine.execTxTickExplicitCount s
  | .txMakeAck ackSeq => Sys2Proof.Machine.execTxMakeAck ackSeq s
  | .txMakeReplayRequest r => Sys2Proof.Machine.execTxMakeReplayRequest r s
  | .txReset zeroStats => Sys2Proof.Machine.execTxReset zeroStats s
  | .cmdProcess f => Sys2Proof.Machine.execCmdProcess f s
  | .armProcessReceived q txLo => Sys2Proof.Machine.execArmProcessReceived q txLo s
  | .dmqEnqueue c dws => Sys2Proof.Machine.execDmqEnqueue c dws s
  | .dmqPopNextDword => Sys2Proof.Machine.execDmqPopNextDword s
  | .reset => Sys2Proof.Machine.execReset s
  | .epSendPayload tls => Sys2Proof.Machine.execEpSendPayload tls s
  | .epReceiveFlit f => Sys2Proof.Machine.execEpReceiveFlit f s
  | .epProcessAck ackSeq => Sys2Proof.Machine.execEpProcessAck ackSeq s
  | .epReplayFrom r => Sys2Proof.Machine.execEpReplayFrom r s

end Sys2Proof.Machine
end

