-- ==== Sys2Proof/Machine/Step.lean ====
section
/-! DEFINITION. One step: the next request the caller has presented is fetched, decoded and executed (rules R6, R11). -/

namespace Sys2Proof.Machine

/-- A step runs the operation the caller presented next, as one atomic transition (R6). With nothing presented nothing
happens: "Nothing inside the block happens except as part of an operation the caller started" (R173). -/
def step (s : State) : Host.Outcome State Fault Refusal :=
  match s.fetch with
  | none => .next s
  | some (r, s') =>
    match decode r with
    | .ok i => exec i s'
    | .error e => s'.reject e

/-- The machine with a word of the opcode table presented so that the very next step runs it (log entry 3); a
number of 2^nbits or more is cut as `tableBytes` says (log entry 8). -/
def State.withFetchWord (s : State) (nbits w : Nat) : State := s.present (.wire (tableBytes nbits w))

end Sys2Proof.Machine
end

