-- ==== Sys2Proof/Safety.lean ====
section
/-! DEFINITION. The terms claims use: what a legal state is (rules R5, R20, R27), what an operation's answer leaves alone, error
kinds (R165), several operations in a row (R6, R41), and the spec's formulas for header bytes, distances, CRC checks and
command flits, written apart from the model's own functions. -/

namespace Sys2Proof.Machine

/-! ## Legal states -/

/-- The statistics counters, whose width is STAT_WIDTH (R17, R18, R21). -/
def Block.counters (b : Block) : List Nat :=
  [b.stats.replaySequences, b.stats.acksSent, b.stats.replayRequestsSent, b.cmd.acksReceived,
    b.cmd.replayRequestsReceived, b.rxCrcErrors, b.replayUnknownSeq]

/-- The invariants of R27 (a) to (f) with the bounds of R19, R20 and R64, and those a finite STAT_WIDTH or ARB_FIFO_DEPTH
sets (R5). R27 (c) is the width of `lastSeq`; R27 (g) is `StoredFlitsSound`. -/
structure Block.Legal (cfg : Config) (b : Block) : Prop where
  rbBound : b.rb.length ≤ 512
  expectedValid : b.expectedSeq ≠ 0#9
  countNonzero : b.tx.explicitCount ≠ 0#5
  firstInReplay : b.tx.firstReplay = true → b.tx.inReplay = true
  lockPending : b.dmq.uartMultiProgress = true ↔ b.dmq.uartPending ≠ []
  pendingBound : b.dmq.uartPending.length ≤ 32
  basicSingle : ∀ p ∈ b.dmq.qBasic, p.rest = []
  controlSingle : ∀ p ∈ b.dmq.qControl, p.rest = []
  uartBound : ∀ p ∈ b.dmq.qUart, p.rest.length ≤ 32
  batchBound : b.arm.flitsSinceAck ≤ cfg.ackEveryN - 1
  countersFit : ∀ w, cfg.statWidth = some w → ∀ n ∈ b.counters, n < 2 ^ w
  queuesFit : ∀ depth, cfg.arbFifoDepth = some depth → ∀ c, (queueOf b.dmq c).length ≤ depth

/-- A machine whose block is legal under its configuration. -/
def State.Legal (s : State) : Prop := s.block.Legal s.cfg

/-- A statistics counter went from `before` to `after` by counting one event: one more where it is unbounded or has room,
and past the top of a finite one any value its width holds (R5, R17, R198; log entry 14). -/
def Counted (width : Option Nat) (before after : Nat) : Prop :=
  match width with
  | none => after = before + 1
  | some w => (before + 1 < 2 ^ w → after = before + 1) ∧ after < 2 ^ w

/-! ## Answers -/

/-- `t` is reached from `s` by one operation that raised `es` and answered `r`: configuration and what the caller has
presented are as before, and the trace is longer by that one answer. Of the block it says nothing. -/
def State.Answered (s t : State) (es : List Event) (r : Result) : Prop :=
  t.cfg = s.cfg ∧ t.program = s.program ∧ t.trace = s.trace ++ [{ events := es, result := r }]

/-- `Answered`, with the whole block unchanged: what an operation that only reads does. -/
def State.Read (s t : State) (es : List Event) (r : Result) : Prop := s.Answered t es r ∧ t.block = s.block

/-- The operations of a list one after another, each on the state the one before left (R6, R41). -/
def runOps : List Instr → State → Host.Outcome State Fault Refusal
  | [], s => .next s
  | i :: rest, s =>
    match exec i s with
    | .next t => runOps rest t
    | .fault f => .fault f
    | .refused r => .refused r

/-- The answers of a trace after the first `n`, as the result of each. -/
def resultsAfter (n : Nat) (t : State) : List Result := (t.trace.drop n).map Answer.result

/-- The DWords a list of results emits (R151), each as its four bytes. -/
def emittedDwords : List Result → List (List Byte)
  | [] => []
  | .optBytes (some b) :: rest => b.val :: emittedDwords rest
  | _ :: rest => emittedDwords rest

/-! ## Error kinds (R165) -/

/-- The error kinds an operation in scope reports. The command-flit CRC drop has no name and no report (R169);
CompressedFlagSet, ReservedMessageClass and CallbackPanic belong outside the block (R171). -/
inductive ErrorKind
  | crcError
  | replayBufferFull
  | replayRequestForUnknownSeq
  | fieldOutOfRange
  deriving DecidableEq, Repr

/-- The error an instruction's result reports, by the table of R165. -/
def reportedError : Instr → Result → Option ErrorKind
  | .flitUnpackChecked _, .checkedTls none => some .crcError
  | .epReceiveFlit _, .received .crcError => some .crcError
  | .rbAdd _ _, .bool false => some .replayBufferFull
  | .epSendPayload _, .replayBufferFull => some .replayBufferFull
  | .rbReplayIter _, .entries [] => some .replayRequestForUnknownSeq
  | .epReplayFrom _, .count 0 => some .replayRequestForUnknownSeq
  | _, .fieldOutOfRange _ _ _ => some .fieldOutOfRange
  | _, _ => none

/-! ## The spec's formulas, for statements -/

/-- Byte i of a flit as a number (R30, R53). -/
def flitByte (f : Flit) (i : Nat) : Nat := (f.val.getD i 0#8).toNat

/-- `payload_bit` of a flit's header by R53's formula. -/
def hdrPayloadBit (f : Flit) : Nat := flitByte f 0 / 16 % 2

/-- `op` of a flit's header by R53's formula. -/
def hdrOp (f : Flit) : Nat := flitByte f 0 / 32

/-- `flit_seq_no` of a flit's header by R53's formula. -/
def hdrSeqNo (f : Flit) : Nat := flitByte f 0 % 2 * 256 + flitByte f 1

/-- `ack_req_seq` of a flit's header by R53's formula. -/
def hdrAckReqSeq (f : Flit) : Nat := flitByte f 0 % 16 * 32 + flitByte f 1 / 8

/-- Whether flit bytes 636 to 639 hold, big-endian, the CRC of bytes 0 to 635 (R72, R73). -/
def CrcMatches (reflect : Bool) (f : Flit) : Prop :=
  natOfBytes (f.val.drop 636) = (crc32 reflect (f.val.take 636)).toNat

/-- The forward distance of R96, over the integers. -/
def distance (a b : Seq) : Int := ((a.toNat : Int) - (b.toNat : Int)) % 511

/-- The successor of R95, on numbers. -/
def nextSeqNo (x : Nat) : Nat := if x = 511 then 1 else x + 1

/-- `n` consecutive sequence numbers from `a` on (R95). -/
def ringFrom (a : Seq) : Nat → List Seq
  | 0 => []
  | n + 1 => a :: ringFrom (wrapSeq a) n

/-- A whole command flit, byte by byte (R49, R53, R57): `op` 2 is Ack, 3 is Replay Request. -/
def IsCommandFlit (reflect : Bool) (op : Nat) (q : Seq) (lo : Nat) (f : Flit) : Prop :=
  f.val = [BitVec.ofNat 8 (op * 32 + q.toNat / 32), BitVec.ofNat 8 (q.toNat % 32 * 8 + lo), 0#8] ++
    List.replicate 633 0#8 ++ bytesOfNat 4 (crc32 reflect (f.val.take 636)).toNat

/-- The eight slots in visit order (R47): the flit byte of the segment header that describes the slot, the place in it of
the `tl_flit` bit and of the `message` field's low bit, and the slot's first flit byte. -/
def slotMap : List (Nat × Nat × Nat × Nat) :=
  [(3, 4, 2, 8), (3, 7, 5, 72), (4, 4, 2, 136), (4, 7, 5, 200), (5, 4, 2, 264), (5, 7, 5, 328), (6, 4, 2, 392),
   (7, 4, 2, 516)]

/-- What the slots of a flit hold, by R47 and R83: data bytes and message number of each marked slot in visit order. -/
def markedSlots (f : Flit) : List (List Byte × Nat) :=
  slotMap.filterMap fun (hdr, tlBit, msgBit, start) =>
    if flitByte f hdr / 2 ^ tlBit % 2 = 1 then
      some ((f.val.drop start).take 64, flitByte f hdr / 2 ^ msgBit % 4)
    else none

/-- The bits of a byte string, each byte most significant bit first. -/
def bitsMsbFirst (b : List Byte) : List Bool :=
  b.flatMap fun x => [x.getLsbD 7, x.getLsbD 6, x.getLsbD 5, x.getLsbD 4, x.getLsbD 3, x.getLsbD 2, x.getLsbD 1, x.getLsbD 0]

/-- The bits of a byte string, each byte least significant bit first. -/
def bitsLsbFirst (b : List Byte) : List Bool :=
  b.flatMap fun x => [x.getLsbD 0, x.getLsbD 1, x.getLsbD 2, x.getLsbD 3, x.getLsbD 4, x.getLsbD 5, x.getLsbD 6, x.getLsbD 7]

/-- A bit-serial CRC circuit (R33, R71): the register shifts one place for each bit of the message, and the generator is
added when the bit shifted out differs from the message's bit. -/
def serialCrc (r : BitVec 32) (bits : List Bool) : BitVec 32 :=
  bits.foldl (fun r bit => if (r.msb ^^ bit) = true then (r <<< 1) ^^^ 0x04C11DB7#32 else r <<< 1) r

/-- An entry of the replay buffer as FLIT_PACK makes it (R14, R27 (g)): a payload flit with a valid CRC that carries the
number it is stored under. -/
def Entry.Sound (reflect : Bool) (e : Entry) : Prop :=
  CrcMatches reflect e.flit ∧ hdrPayloadBit e.flit = 1 ∧ hdrSeqNo e.flit = e.seq.toNat

/-- Every stored flit is sound (R27 (g)). -/
def StoredFlitsSound (s : State) : Prop := ∀ e ∈ s.block.rb, e.Sound s.cfg.crcReflect

end Sys2Proof.Machine
end

