-- ==== Sys2Proof/Certificates/Slice0/Obligations.lean ====
section
/-! DEFINITION. The statements for the provers. Each one's docstring names the rules of the spec it formalises. -/

open Sys2Proof Sys2Proof.Machine

/-! ## Presenting, decoding, encoding -/

/-- Words of the opcode table written out from R48 to R59 decode to their rows. Three things are the model's choice, not
the spec's: how a row's bits are numbered in a table word (log entry 8, DEDUCED), that a DWord with `compressed` = 1 decodes
to nothing (log entry 9, DEDUCED), and that a word of 16 bits, a size no format has, decodes to nothing (log entry 17,
DESIGN CHOICE). -/
def Obligations.TableWordsDecodeToTheirRows : Prop :=
  decodeTableWord 24 0x100100 = some (.explicitFlitHeader 0 1 0) ∧
  decodeTableWord 24 0x3B2CAA = some (.payloadFlitAsReceived 1 5 300 0xAA) ∧
  decodeTableWord 24 0x402200 = some (.ack 4 2 0) ∧
  decodeTableWord 24 0x600A00 = some (.replayRequest 1 2 0) ∧
  decodeTableWord 24 0x812345 = some (.unassignedCommandOp 4 0x12345) ∧
  decodeTableWord 8 0xD4 = some (.segmentHeader ⟨1, 2, 1, 1, 0, 0⟩) ∧
  decodeTableWord 32 0xB24 = some (.dlMessageDword 5 4 9 0) ∧
  decodeTableWord 32 0xB25 = none ∧
  decodeTableWord 16 0x1001 = none

/-- R53, both directions: the fields of three header bytes, and the bytes of the three formats' fields. -/
def Obligations.HeaderFieldAssembly : Prop :=
  (∀ b0 b1 b2 : Byte,
    (headerWord b0 b1 b2).toNat = b0.toNat * 65536 + b1.toNat * 256 + b2.toNat ∧
    (decExplicit (headerWord b0 b1 b2)).op.toNat = b0.toNat / 32 ∧
    (decExplicit (headerWord b0 b1 b2)).payloadBit.toNat = b0.toNat / 16 % 2 ∧
    (decExplicit (headerWord b0 b1 b2)).flitSeqNo.toNat = b0.toNat % 2 * 256 + b1.toNat ∧
    (decCommand (headerWord b0 b1 b2)).op.toNat = b0.toNat / 32 ∧
    (decCommand (headerWord b0 b1 b2)).payloadBit.toNat = b0.toNat / 16 % 2 ∧
    (decCommand (headerWord b0 b1 b2)).ackReqSeq.toNat = b0.toNat % 16 * 32 + b1.toNat / 8 ∧
    (decCommand (headerWord b0 b1 b2)).flitSeqLo.toNat = b1.toNat % 8) ∧
  (∀ (op : BitVec 3) (pb : BitVec 1) (ra : BitVec 3) (q : Seq) (rb : BitVec 8),
    (be24 (explicitWord op pb ra q rb)).val.map BitVec.toNat =
      [op.toNat * 32 + pb.toNat * 16 + ra.toNat * 2 + q.toNat / 256, q.toNat % 256, rb.toNat]) ∧
  (∀ (op : BitVec 3) (pb : BitVec 1) (a : Seq) (lo : BitVec 3) (r : BitVec 8),
    (be24 (commandWord op pb a lo r)).val.map BitVec.toNat =
      [op.toNat * 32 + pb.toNat * 16 + a.toNat / 32, a.toNat % 32 * 8 + lo.toNat, r.toNat]) ∧
  (∀ f : SegFields,
    (segByte f).toNat = f.tlFlit1.toNat * 128 + f.message1.toNat * 32 + f.tlFlit0.toNat * 16 + f.message0.toNat * 4 +
      f.reserved.toNat * 2 + f.dlAltSector.toNat)

/-- BitCodec (R8): `unpack_msb` inverts `pack_msb` on fields that fit, `pack_msb` gives nothing when one does not, and the
encoders of R54 are `pack_msb` of the field lists of R48, R49 and R52. -/
def Obligations.BitCodecRoundTrip : Prop :=
  (∀ fields : List (Nat × Nat), (∀ f ∈ fields, f.1 < 2 ^ f.2) →
    ∃ b, packMsb fields = some b ∧ b.length = ((fields.map Prod.snd).sum + 7) / 8 ∧
      unpackMsb (fields.map Prod.snd) b = fields.map Prod.fst) ∧
  (∀ fields : List (Nat × Nat), (∃ f ∈ fields, ¬ f.1 < 2 ^ f.2) → packMsb fields = none) ∧
  (∀ (op : BitVec 3) (pb : BitVec 1) (q : Seq),
    packMsb [(op.toNat, 3), (pb.toNat, 1), (0, 3), (q.toNat, 9), (0, 8)] = some (encExplicit op pb q).val) ∧
  (∀ (op : BitVec 3) (a : Seq) (lo : BitVec 3),
    packMsb [(op.toNat, 3), (0, 1), (a.toNat, 9), (lo.toNat, 3), (0, 8)] = some (encCommand op a lo).val) ∧
  (∀ (t1 : BitVec 1) (m1 : BitVec 2) (t0 : BitVec 1) (m0 : BitVec 2),
    packMsb [(t1.toNat, 1), (m1.toNat, 2), (t0.toNat, 1), (m0.toNat, 2), (0, 1), (0, 1)] =
      some [encSeg t1 m1 t0 m0])

/-- Every well-formed instruction, whatever its operands, is read back from the request it encodes to (R48 to R59, R65). -/
def Obligations.DecodeInvertsEncode : Prop :=
  ∀ i : Instr, i.wellFormed = true → decode (encode i) = .ok i

/-- No two requests decode to one instruction: encoding what was decoded gives the request back, and a wire word decodes
only to a well-formed instruction (R48 to R59, R65). -/
def Obligations.EncodeInvertsDecode : Prop :=
  ∀ (r : Request) (i : Instr), decode r = .ok i →
    encode i = r ∧ (∀ b, r = .wire b → i.wellFormed = true)

/-- R170, decision D43: a number that does not fit its field is never truncated, whichever operand of R65 it is (the
operands before it fitting); the operation ends with the error FieldOutOfRange (field, value, width), the block is
unchanged and the machine goes on. That it is an error result rather than a refusal is the model's choice between the two
R170 allows (log entry 5), and so is that the first operand in R65's order decides, before the number of TL flits or of
DWords is looked at (log entry 21). -/
def Obligations.WideOperandIsReportedNotTruncated : Prop :=
  ∀ (s : State) (req : Request) (rest : List Request) (field : Field) (n w : Nat),
    s.program = req :: rest →
    ((∃ op ∈ [OpName.rbRetireThrough, .rbReplayIter, .stIsExpected, .stIsDuplicate, .txMakeAck, .txMakeReplayRequest,
        .epProcessAck, .epReplayFrom], req = .call op [.num n]) ∧ field = .sequence ∧ w = 9 ∨
     (∃ b, req = .call .rbAdd [.num n, .bytes b]) ∧ field = .sequence ∧ w = 9 ∨
     (∃ lo, req = .call .armProcessReceived [.num n, .num lo]) ∧ field = .sequence ∧ w = 9 ∨
     (∃ q, q < 512 ∧ req = .call .armProcessReceived [.num q, .num n]) ∧ field = .txLo ∧ w = 3 ∨
     (∃ (tls : List Tl) (d : TlData) (more : List (List Byte × Nat)),
        (∃ op pb sn : Nat,
          req = .call .flitPack [.tls (tls.map tlOperand ++ (d.val, n) :: more), .num op, .num pb, .num sn]) ∨
        req = .call .epSendPayload [.tls (tls.map tlOperand ++ (d.val, n) :: more)]) ∧ field = .messageField ∧ w = 2 ∨
     (∃ (tls : List Tl) (pb sn : Nat), req = .call .flitPack [.tls (tls.map tlOperand), .num n, .num pb, .num sn]) ∧
        field = .op ∧ w = 3 ∨
     (∃ (tls : List Tl) (op sn : Nat), op < 8 ∧
        req = .call .flitPack [.tls (tls.map tlOperand), .num op, .num n, .num sn]) ∧ field = .payloadBit ∧ w = 1 ∨
     (∃ (tls : List Tl) (op pb : Nat), op < 8 ∧ pb < 2 ∧
        req = .call .flitPack [.tls (tls.map tlOperand), .num op, .num pb, .num n]) ∧ field = .sequence ∧ w = 9 ∨
     (∃ (c : DlClass) (ds : List DWord) (more : List Nat),
        req = .call .dmqEnqueue [.cls c, .dwords (ds.map BitVec.toNat ++ n :: more)]) ∧ field = .dword ∧ w = 32) →
    ¬ n < 2 ^ w →
    ∃ t, step s = .next t ∧ t.block = s.block ∧ t.cfg = s.cfg ∧ t.program = rest ∧
      t.trace = s.trace ++ [{ events := [], result := .fieldOutOfRange field n w }]

/-- A step runs the decoded instruction: it takes the request off what is presented and executes the instruction it
decodes to; with nothing presented nothing happens (R6, R11, R173); a word placed by `withFetchWord` runs at once. -/
def Obligations.StepRunsTheDecodedInstruction : Prop :=
  (∀ (s : State) (r : Request) (rest : List Request) (i : Instr), s.program = r :: rest → decode r = .ok i →
    step s = exec i { s with program := rest }) ∧
  (∀ s : State, s.program = [] → step s = .next s) ∧
  (∀ (s : State) (nbits w : Nat) (i : Instr), decodeTableWord nbits w = some i →
    step (s.withFetchWord nbits w) = exec i s)

/-! ## The wire-format rows -/

/-- A flit header by itself (R50, R51, R53, R58): whichever of the five rows it belongs to, the instruction answers both
readings of its three bytes and the kind the receive path takes it for, and touches nothing. -/
def Obligations.HeaderWordsAreReadBothWays : Prop :=
  ∀ (s : State) (i : Instr) (b0 b1 b2 : Byte), encode i = .wire [b0, b1, b2] →
    ∃ t k h, exec i s = .next t ∧ s.Read t [] (.classified k h) ∧
      h.explicit.op.toNat = b0.toNat / 32 ∧ h.explicit.payloadBit.toNat = b0.toNat / 16 % 2 ∧
      h.explicit.flitSeqNo.toNat = b0.toNat % 2 * 256 + b1.toNat ∧
      h.command.op.toNat = b0.toNat / 32 ∧ h.command.payloadBit.toNat = b0.toNat / 16 % 2 ∧
      h.command.ackReqSeq.toNat = b0.toNat % 16 * 32 + b1.toNat / 8 ∧ h.command.flitSeqLo.toNat = b1.toNat % 8 ∧
      (k = .payload ↔ b0.toNat / 16 % 2 = 1) ∧
      (k = .ack ↔ b0.toNat / 16 % 2 = 0 ∧ b0.toNat / 32 = 2) ∧
      (k = .replayRequest ↔ b0.toNat / 16 % 2 = 0 ∧ b0.toNat / 32 = 3) ∧
      (k = .notConsumed ↔ b0.toNat / 16 % 2 = 0 ∧ b0.toNat / 32 ≠ 2 ∧ b0.toNat / 32 ≠ 3)

/-- A segment header and a DWord by themselves (R52, R59, R60): the instruction whose word is one byte, or four, answers
the fields of the format at the bit positions the rules give them, and touches nothing; and the DWord of given fields is
their weighted sum, `compressed` (bit 0) being 0. -/
def Obligations.SegmentAndDwordFieldsAreRead : Prop :=
  (∀ (s : State) (i : Instr) (b : Byte), encode i = .wire [b] →
    ∃ t f, exec i s = .next t ∧ s.Read t [] (.segment f) ∧
      f.tlFlit1.toNat = b.toNat / 128 ∧ f.message1.toNat = b.toNat / 32 % 4 ∧ f.tlFlit0.toNat = b.toNat / 16 % 2 ∧
      f.message0.toNat = b.toNat / 4 % 4 ∧ f.reserved.toNat = b.toNat / 2 % 2 ∧ f.dlAltSector.toNat = b.toNat % 2) ∧
  (∀ (s : State) (i : Instr) (b0 b1 b2 b3 : Byte), encode i = .wire [b0, b1, b2, b3] →
    ∃ t f, exec i s = .next t ∧ s.Read t [] (.dword f) ∧
      f.messageSpecific.toNat = b0.toNat * 32768 + b1.toNat * 128 + b2.toNat / 2 ∧
      f.mtype.toNat = b2.toNat % 2 * 4 + b3.toNat / 64 ∧ f.mclass.toNat = b3.toNat / 4 % 16 ∧ b3.toNat % 2 = 0) ∧
  (∀ (p : BitVec 23) (mt : BitVec 3) (mc : BitVec 4) (r : BitVec 1),
    encode (.dlMessageDword p mt mc r) =
      .wire (bytesOfNat 4 (p.toNat * 512 + mt.toNat * 64 + mc.toNat * 4 + r.toNat * 2)))

/-! ## Reset -/

/-- R185: the power-on state, field by field. -/
def Obligations.PowerOnState : Prop :=
  let b := State.reset.block
  b.rb = [] ∧ b.expectedSeq.toNat = 1 ∧ b.tx.lastSeq.toNat = 0 ∧ b.tx.explicitCount.toNat = 0x1F ∧
  b.tx.inReplay = false ∧ b.tx.firstReplay = false ∧
  b.stats.replaySequences = 0 ∧ b.stats.acksSent = 0 ∧ b.stats.replayRequestsSent = 0 ∧
  b.cmd.acksReceived = 0 ∧ b.cmd.replayRequestsReceived = 0 ∧ b.rxCrcErrors = 0 ∧ b.replayUnknownSeq = 0 ∧
  b.arm.flitsSinceAck = 0 ∧
  b.dmq.qBasic = [] ∧ b.dmq.qControl = [] ∧ b.dmq.qUart = [] ∧ b.dmq.uartPending = [] ∧
  b.dmq.lastServed = none ∧ b.dmq.uartMultiProgress = false

/-- R186: RESET, from every state, goes to the power-on state and leaves configuration and what is presented. -/
def Obligations.ResetRestoresPowerOnState : Prop :=
  ∀ s : State, ∃ t, exec .reset s = .next t ∧ s.Answered t [] .none ∧ t.block = State.reset.block

/-- R122, R109, R102: each partial reset resets its own part and nothing else. -/
def Obligations.PartialResetsTouchOnePart : Prop :=
  ∀ s : State,
    (∀ z : Bool, ∃ t, exec (.txReset z) s = .next t ∧ s.Answered t [] .none ∧
      t.block.tx.lastSeq.toNat = 0 ∧ t.block.tx.explicitCount.toNat = 0x1F ∧ t.block.tx.inReplay = false ∧
      t.block.tx.firstReplay = false ∧
      t.block = { s.block with
        tx := t.block.tx,
        stats := if z then { replaySequences := 0, acksSent := 0, replayRequestsSent := 0 } else s.block.stats }) ∧
    (∃ t, exec .stReset s = .next t ∧ s.Answered t [] .none ∧ t.block = { s.block with expectedSeq := 1#9 }) ∧
    (∃ t, exec .rbClear s = .next t ∧ s.Answered t [] .none ∧ t.block = { s.block with rb := [] })

/-! ## CRC-32 -/

/-- R71: the table-driven step equals the bit-by-bit one on every register and byte, so both forms compute the same
function, and the table's entries are those the rule lists. -/
def Obligations.CrcTableFormComputesTheSame : Prop :=
  (∀ (r : BitVec 32) (x : Byte), crcByte r x = (r <<< 8) ^^^ crcTable (r.extractLsb' 24 8 ^^^ x)) ∧
  (∀ b : List Byte, crc32 false b = b.foldl crcByteByTable 0xFFFFFFFF#32 ^^^ 0xFFFFFFFF#32) ∧
  [0, 1, 2, 3, 4, 5, 6, 7, 0x10, 0x80, 0xFF].map crcTable =
    [0x00000000, 0x04C11DB7, 0x09823B6E, 0x0D4326D9, 0x130476DC, 0x17C56B6B, 0x1A864DB2, 0x1E475005, 0x4C11DB70,
     0x690CE0EE, 0xB1F740B4]

/-- R70, R75: CRC32 completes on every byte string and answers what a bit-serial circuit computes (R33); with CRC_REFLECT
the bits of each byte come the other way round and the register is reversed. Nothing else happens. -/
def Obligations.CrcEqualsBitSerialCircuit : Prop :=
  ∀ (s : State) (b : List Byte), ∃ t, exec (.crc32 b) s = .next t ∧
    s.Read t [] (.value (
      if s.cfg.crcReflect then (serialCrc 0xFFFFFFFF#32 (bitsLsbFirst b)).reverse ^^^ 0xFFFFFFFF#32
      else serialCrc 0xFFFFFFFF#32 (bitsMsbFirst b) ^^^ 0xFFFFFFFF#32))

/-- R74 (b), in both variants: for strings of equal length CRC32 is affine over exclusive or. -/
def Obligations.CrcIsAffine : Prop :=
  ∀ (reflect : Bool) (a b : List Byte), a.length = b.length →
    crc32 reflect a ^^^ crc32 reflect b =
      crc32 reflect (List.zipWith (· ^^^ ·) a b) ^^^ crc32 reflect (List.replicate a.length 0#8)

/-- R74 (d): a message followed by its own big-endian CRC has the fixed CRC 0x38FB2284. -/
def Obligations.CrcResidueIsConstant : Prop :=
  ∀ m : List Byte, crc32 false (m ++ (be32 (crc32 false m)).val) = 0x38FB2284#32

/-- R73: CRC32_CHECK completes on every flit, answers whether bytes 636 to 639 are the big-endian CRC of bytes 0 to 635,
and touches nothing. -/
def Obligations.CrcCheckComparesTheField : Prop :=
  ∀ (s : State) (f : Flit), ∃ t r, exec (.crc32Check f) s = .next t ∧ s.Read t [] (.bool r) ∧
    (r = true ↔ natOfBytes (f.val.drop 636) = (crc32 s.cfg.crcReflect (f.val.take 636)).toNat)

/-! ## Flit codec -/

/-- R86: for every list of at most seven TL flits and every header operands the packed count is the list's length, the
flit passes its CRC check, unpacks to the list, and its header decodes to the operands. -/
def Obligations.PackedFlitRoundTrips : Prop :=
  ∀ (s : State) (tls : List Tl) (op : BitVec 3) (pb : BitVec 1) (q : Seq), tls.length ≤ 7 →
    ∃ t f n u1 u2 u3 h, exec (.flitPack tls op pb q) s = .next t ∧ s.Read t [] (.packed f n) ∧
      n.toNat = tls.length ∧
      exec (.crc32Check f) s = .next u1 ∧ s.Read u1 [] (.bool true) ∧
      exec (.flitUnpackChecked f) s = .next u2 ∧ s.Read u2 [] (.checkedTls (some tls)) ∧
      exec (.hdrDecode f) s = .next u3 ∧ s.Read u3 [] (.header h) ∧
      h.explicit = { op := op, payloadBit := pb, flitSeqNo := q }

/-- R80: every byte of the packed flit: header, segment headers with the marks of the slots used, the TL flits back to
back, zeros, and the CRC of the 636 bytes before it. FLIT_PACK changes nothing in the block. -/
def Obligations.PackedFlitLayout : Prop :=
  ∀ (s : State) (tls : List Tl) (op : BitVec 3) (pb : BitVec 1) (q : Seq), tls.length ≤ 7 →
    ∃ t f n, exec (.flitPack tls op pb q) s = .next t ∧ s.Read t [] (.packed f n) ∧ n.toNat = tls.length ∧
      f.val.take 3 = [BitVec.ofNat 8 (op.toNat * 32 + pb.toNat * 16 + q.toNat / 256), BitVec.ofNat 8 q.toNat, 0#8] ∧
      (∀ k < 5, flitByte f (3 + k) =
        (match tls[2 * k + 1]? with | some t1 => 128 + 32 * t1.msg.toNat | none => 0) +
        (match tls[2 * k]? with | some t0 => 16 + 4 * t0.msg.toNat | none => 0)) ∧
      (f.val.drop 8).take 628 = tls.flatMap (fun x => x.data.val) ++ List.replicate (628 - 64 * tls.length) 0#8 ∧
      f.val.drop 636 = bytesOfNat 4 (crc32 s.cfg.crcReflect (f.val.take 636)).toNat

/-- R82: eight or more TL flits are refused, by FLIT_PACK and by the composite that uses it. -/
def Obligations.EightTlFlitsAreRefused : Prop :=
  ∀ (s : State) (tls : List Tl) (op : BitVec 3) (pb : BitVec 1) (q : Seq), 8 ≤ tls.length →
    exec (.flitPack tls op pb q) s = .refused (.tooManyTlFlits tls.length) ∧
    exec (.epSendPayload tls) s = .refused (.tooManyTlFlits tls.length)

/-- R83: FLIT_UNPACK completes on any 640 bytes, answers the marked slots of the slot map of R47 in visit order, and
touches nothing. -/
def Obligations.UnpackLiftsTheMarkedSlots : Prop :=
  ∀ (s : State) (f : Flit), ∃ t l, exec (.flitUnpack f) s = .next t ∧ s.Read t [] (.tls l) ∧
    l.map (fun x => (x.data.val, x.msg.toNat)) = markedSlots f

/-- R84: FLIT_UNPACK_CHECKED answers None exactly when the CRC does not match, and otherwise what FLIT_UNPACK answers;
nothing is touched. -/
def Obligations.CheckedUnpackRejectsExactlyBadCrc : Prop :=
  ∀ (s : State) (f : Flit),
    (CrcMatches s.cfg.crcReflect f → ∃ t u l, exec (.flitUnpackChecked f) s = .next t ∧
      s.Read t [] (.checkedTls (some l)) ∧ exec (.flitUnpack f) s = .next u ∧ s.Read u [] (.tls l)) ∧
    (¬ CrcMatches s.cfg.crcReflect f → ∃ t, exec (.flitUnpackChecked f) s = .next t ∧ s.Read t [] (.checkedTls none))

/-- R87: HDR_DECODE completes on any 640 bytes and answers both readings of bytes 0 to 2 by R53's formulas; nothing is
touched. -/
def Obligations.HeaderDecodeGivesBothReadings : Prop :=
  ∀ (s : State) (f : Flit), ∃ t h, exec (.hdrDecode f) s = .next t ∧ s.Read t [] (.header h) ∧
    h.explicit.op.toNat = hdrOp f ∧ h.explicit.payloadBit.toNat = hdrPayloadBit f ∧
    h.explicit.flitSeqNo.toNat = hdrSeqNo f ∧
    h.command.op.toNat = hdrOp f ∧ h.command.payloadBit.toNat = hdrPayloadBit f ∧
    h.command.ackReqSeq.toNat = hdrAckReqSeq f ∧ h.command.flitSeqLo.toNat = flitByte f 1 % 8

/-! ## Sequence arithmetic, replay buffer, receive tracker -/

/-- R95, R96: the successor function on the ring, and the forward distance as the number of successor steps. -/
def Obligations.SequenceRingArithmetic : Prop :=
  (∀ x : Seq, (wrapSeq x).toNat = nextSeqNo x.toNat ∧ wrapSeq x ≠ 0#9) ∧
  (∀ a b : Seq, (fwd a b : Int) = distance a b ∧ fwd a b ≤ 510) ∧
  (∀ a b : Seq, a ≠ 0#9 → b ≠ 0#9 →
    (fwd a b = 0 ↔ a = b) ∧ (a ≠ b → fwd a b + fwd b a = 511) ∧
    (∀ d < 511, fwd a b = d ↔ a = wrapSeq^[d] b))

/-- R98: RB_ADD appends a copy of the flit under the number given and answers true, unless the buffer holds 512 entries:
then it answers false and changes nothing (R167). -/
def Obligations.ReplayBufferAdd : Prop :=
  ∀ (s : State) (q : Seq) (f : Flit),
    (s.block.rb.length ≠ 512 → ∃ t, exec (.rbAdd q f) s = .next t ∧ s.Answered t [] (.bool true) ∧
      t.block = { s.block with rb := s.block.rb ++ [{ seq := q, flit := f }] }) ∧
    (s.block.rb.length = 512 → ∃ t, exec (.rbAdd q f) s = .next t ∧ s.Read t [] (.bool false))

/-- R99, R140: RB_RETIRE_THROUGH and EP_PROCESS_ACK retire j entries from the head. All of them are less than 255 behind
the Ack, none but the last carries its number, and they stop for one of three reasons: the buffer is empty, the last one
carries the Ack's number, or the next one is 255 or more behind. Nothing but the buffer changes. -/
def Obligations.RetireThroughStopsWhereTheRuleSays : Prop :=
  ∀ (s : State) (a : Seq), ∀ i ∈ [Instr.rbRetireThrough a, .epProcessAck a],
    ∃ t j, exec i s = .next t ∧ s.Answered t [] .none ∧ j ≤ s.block.rb.length ∧
      t.block = { s.block with rb := s.block.rb.drop j } ∧
      (∀ n e, n < j → s.block.rb[n]? = some e → distance a e.seq < 255) ∧
      (∀ n e, n + 1 < j → s.block.rb[n]? = some e → e.seq ≠ a) ∧
      (∀ e, s.block.rb[j]? = some e →
        ¬ distance a e.seq < 255 ∨ ∃ e', 0 < j ∧ s.block.rb[j - 1]? = some e' ∧ e'.seq = a)

/-- R105: after k consecutive adds to an empty buffer and an Ack of the j-th number, k − j entries are left when j is at
most 255; when j is 256 or more nothing is retired. -/
def Obligations.CumulativeAckAndItsLimit : Prop :=
  ∀ (s : State) (a : Seq) (flits : List Flit) (j : Nat),
    a ≠ 0#9 → s.block.rb = [] → flits.length ≤ 511 → 1 ≤ j → j ≤ flits.length →
    ∃ t, runOps (((ringFrom a flits.length).zip flits).map (fun e => .rbAdd e.1 e.2) ++
        [.rbRetireThrough (wrapSeq^[j - 1] a)]) s = .next t ∧
      t.block.rb.length = (if j ≤ 255 then flits.length - j else flits.length) ∧
      t.block.rb.map Entry.flit = (if j ≤ 255 then flits.drop j else flits)

/-- R104: RB_REPLAY_ITER answers the entries from the oldest one numbered r to the newest, or the empty list when there is
none; nothing is touched. -/
def Obligations.ReplayIteratorStartsAtOldestMatch : Prop :=
  ∀ (s : State) (r : Seq), ∃ t l, exec (.rbReplayIter r) s = .next t ∧ s.Read t [] (.entries l) ∧
    ((l = [] ∧ ∀ e ∈ s.block.rb, e.seq ≠ r) ∨
     (∃ j e, s.block.rb[j]? = some e ∧ e.seq = r ∧ l = s.block.rb.drop j ∧
       ∀ n e', n < j → s.block.rb[n]? = some e' → e'.seq ≠ r))

/-- R100, R101, R103: the oldest and newest numbers, None on an empty buffer, and the size; nothing is touched. -/
def Obligations.ReplayBufferEndsAndSize : Prop :=
  ∀ s : State,
    (∃ t r, exec .rbOldestSeq s = .next t ∧ s.Read t [] (.optSeq r) ∧ (r = none ↔ s.block.rb = []) ∧
      ∀ e rest, s.block.rb = e :: rest → r = some e.seq) ∧
    (∃ t r, exec .rbNewestSeq s = .next t ∧ s.Read t [] (.optSeq r) ∧ (r = none ↔ s.block.rb = []) ∧
      ∀ e before, s.block.rb = before ++ [e] → r = some e.seq) ∧
    (∃ t, exec .rbSize s = .next t ∧ s.Read t [] (.size s.block.rb.length))

/-- R106, R107, R110: ST_IS_EXPECTED and ST_IS_DUPLICATE answer by the rules' formulas, never both true, and touch
nothing. -/
def Obligations.ArrivalsAreClassifiedOnce : Prop :=
  ∀ (s : State) (q : Seq), ∃ t u e d, exec (.stIsExpected q) s = .next t ∧ s.Read t [] (.bool e) ∧
    exec (.stIsDuplicate q) s = .next u ∧ s.Read u [] (.bool d) ∧
    (e = true ↔ q = s.block.expectedSeq) ∧
    (d = true ↔ 1 ≤ distance s.block.expectedSeq q ∧ distance s.block.expectedSeq q ≤ 255) ∧
    ¬ (e = true ∧ d = true)

/-- R112: the reserved value 0 as an operand, in every state with a valid `expected_seq`: never expected, a duplicate
exactly below 256, never accepted; an Ack of 0 compares like one of 511 and never stops at an entry numbered 1 to 511; no
replay starts at 0. -/
def Obligations.SequenceZeroIsNeverAccepted : Prop :=
  ∀ (s : State) (lo : BitVec 3), s.block.expectedSeq ≠ 0#9 → (∀ e ∈ s.block.rb, e.seq ≠ 0#9) →
    (∃ t, exec (.stIsExpected 0#9) s = .next t ∧ s.Read t [] (.bool false)) ∧
    (∃ t, exec (.stIsDuplicate 0#9) s = .next t ∧ s.Read t [] (.bool (decide (s.block.expectedSeq.toNat ≤ 255)))) ∧
    (∃ t, exec (.armProcessReceived 0#9 lo) s = .next t ∧ t.block = s.block) ∧
    (∃ t, exec (.rbRetireThrough 0#9) s = .next t ∧ s.Answered t [] .none ∧
      t.block = { s.block with rb := s.block.rb.dropWhile fun e => decide (distance 511#9 e.seq < 255) }) ∧
    (∃ t, exec (.rbReplayIter 0#9) s = .next t ∧ s.Read t [] (.entries []))

/-- R108, R111: ST_ADVANCE steps the tracker through 1, 2, …, 511, 1, 2, … and changes nothing else. -/
def Obligations.TrackerAdvancesRoundTheRing : Prop :=
  (∀ s : State, ∃ t, exec .stAdvance s = .next t ∧ s.Answered t [] .none ∧
    t.block = { s.block with expectedSeq := BitVec.ofNat 9 (nextSeqNo s.block.expectedSeq.toNat) }) ∧
  (∀ (s : State) (m : Nat), s.block.expectedSeq = 1#9 →
    ∃ t, runOps (List.replicate m .stAdvance) s = .next t ∧ t.block.expectedSeq.toNat = m % 511 + 1)

/-! ## Transmit controller -/

/-- R115: the next number is the successor of `last_seq`, which becomes it; it is to be buffered exactly outside replay;
nothing else changes, and the buffer is not looked at. -/
def Obligations.NextPayloadSeqAllocates : Prop :=
  ∀ s : State, ∃ t q, exec .txNextPayloadSeq s = .next t ∧ q.toNat = nextSeqNo s.block.tx.lastSeq.toNat ∧
    s.Answered t [] (.seqToBuffer q (!s.block.tx.inReplay)) ∧
    t.block = { s.block with tx := { s.block.tx with lastSeq := q } }

/-- R123: from `last_seq` = 0 the m-th allocation gives ((m − 1) mod 511) + 1, inside replay mode as outside. -/
def Obligations.AllocatedNumbersRunRoundTheRing : Prop :=
  ∀ (s : State) (m : Nat), s.block.tx.lastSeq = 0#9 →
    ∃ t, runOps (List.replicate m .txNextPayloadSeq) s = .next t ∧
      resultsAfter s.trace.length t =
        (List.range m).map fun i => .seqToBuffer (BitVec.ofNat 9 (i % 511 + 1)) (!s.block.tx.inReplay)

/-- R116, R117, R118: NOP's number, and entering and leaving replay mode, where one more replay is counted. What a
statistic of finite STAT_WIDTH holds past its top is left open (log entry 14). -/
def Obligations.ReplayModeFlags : Prop :=
  ∀ s : State,
    (∃ t, exec .txNopSeq s = .next t ∧ s.Read t [] (.seq s.block.tx.lastSeq)) ∧
    (∃ t n, exec .txStartReplay s = .next t ∧ s.Answered t [] .none ∧
      Counted s.cfg.statWidth s.block.stats.replaySequences n ∧
      t.block = { s.block with
        tx := { s.block.tx with inReplay := true, firstReplay := true },
        stats := { s.block.stats with replaySequences := n } }) ∧
    (∃ t, exec .txFinishReplay s = .next t ∧ s.Answered t [] .none ∧
      t.block = { s.block with tx := { s.block.tx with inReplay := false, firstReplay := false } })

/-- R119: the tick. After a replay was entered it reloads 31 and answers true; otherwise it counts down, reloading and
answering true on reaching 0. Where `explicit_count` is 0 on entry outside that first tick, which R16 excludes between
operations, the model stops with a fault (log entry 6: the model's choice). -/
def Obligations.ExplicitCountTick : Prop :=
  ∀ s : State,
    (s.block.tx.firstReplay = true → ∃ t, exec .txTickExplicitCount s = .next t ∧ s.Answered t [] (.bool true) ∧
      t.block = { s.block with tx := { s.block.tx with firstReplay := false, explicitCount := 0x1F#5 } }) ∧
    (s.block.tx.firstReplay = false → s.block.tx.explicitCount.toNat = 1 →
      ∃ t, exec .txTickExplicitCount s = .next t ∧ s.Answered t [] (.bool true) ∧
        t.block = { s.block with tx := { s.block.tx with explicitCount := 0x1F#5 } }) ∧
    (s.block.tx.firstReplay = false → 2 ≤ s.block.tx.explicitCount.toNat →
      ∃ t, exec .txTickExplicitCount s = .next t ∧ s.Answered t [] (.bool false) ∧
        t.block = { s.block with
          tx := { s.block.tx with explicitCount := BitVec.ofNat 5 (s.block.tx.explicitCount.toNat - 1) } }) ∧
    (s.block.tx.firstReplay = false → s.block.tx.explicitCount.toNat = 0 →
      exec .txTickExplicitCount s = .fault .explicitCountZero)

/-- R124: outside replay, from a count of 31, exactly the calls number 31, 62, 93, … answer true; and entering replay makes
the next call true, whatever the count was, and restarts the period from 31. -/
def Obligations.TickPeriodIsThirtyOne : Prop :=
  (∀ (s : State) (m : Nat), s.block.tx.firstReplay = false → s.block.tx.explicitCount.toNat = 31 →
    ∃ t, runOps (List.replicate m .txTickExplicitCount) s = .next t ∧
      resultsAfter s.trace.length t = (List.range m).map fun i => .bool (decide ((i + 1) % 31 = 0))) ∧
  (∀ (s : State) (m : Nat),
    ∃ t, runOps (.txStartReplay :: List.replicate m .txTickExplicitCount) s = .next t ∧
      resultsAfter s.trace.length t = .none :: (List.range m).map fun i => .bool (decide (i % 31 = 0)))

/-- R57, R120, R121: the command flit TX_MAKE_ACK and TX_MAKE_REPLAY_REQUEST answer, byte by byte, with the low three bits
of `last_seq`; the statistic counts one more (past the top of a finite STAT_WIDTH: log entry 14) and nothing else
changes. -/
def Obligations.CommandFlitsAreBuiltAsTheRuleSays : Prop :=
  ∀ (s : State) (q : Seq),
    (∃ t f n, exec (.txMakeAck q) s = .next t ∧ s.Answered t [] (.flit f) ∧
      IsCommandFlit s.cfg.crcReflect 2 q (s.block.tx.lastSeq.toNat % 8) f ∧
      Counted s.cfg.statWidth s.block.stats.acksSent n ∧
      t.block = { s.block with stats := { s.block.stats with acksSent := n } }) ∧
    (∃ t f n, exec (.txMakeReplayRequest q) s = .next t ∧ s.Answered t [] (.flit f) ∧
      IsCommandFlit s.cfg.crcReflect 3 q (s.block.tx.lastSeq.toNat % 8) f ∧
      Counted s.cfg.statWidth s.block.stats.replayRequestsSent n ∧
      t.block = { s.block with stats := { s.block.stats with replayRequestsSent := n } })

/-! ## Command processor, Ack manager -/

/-- R130, R131: CMD_PROCESS in the order payload_bit, CRC, op, with all its outcomes. What a counter of finite STAT_WIDTH
holds past its top is left open (log entry 14). -/
def Obligations.CommandRecognition : Prop :=
  ∀ (s : State) (f : Flit), ∃ t, exec (.cmdProcess f) s = .next t ∧
    (hdrPayloadBit f = 1 → s.Read t [] (.bool false)) ∧
    (hdrPayloadBit f = 0 → ¬ CrcMatches s.cfg.crcReflect f → s.Read t [] (.bool true)) ∧
    (hdrPayloadBit f = 0 → CrcMatches s.cfg.crcReflect f → hdrOp f = 2 →
      s.Answered t [.ackEvent (BitVec.ofNat 9 (hdrAckReqSeq f))] (.bool true) ∧
      ∃ n, Counted s.cfg.statWidth s.block.cmd.acksReceived n ∧
        t.block = { s.block with cmd := { s.block.cmd with acksReceived := n } }) ∧
    (hdrPayloadBit f = 0 → CrcMatches s.cfg.crcReflect f → hdrOp f = 3 →
      s.Answered t [.replayRequestEvent (BitVec.ofNat 9 (hdrAckReqSeq f))] (.bool true) ∧
      ∃ n, Counted s.cfg.statWidth s.block.cmd.replayRequestsReceived n ∧
        t.block = { s.block with cmd := { s.block.cmd with replayRequestsReceived := n } }) ∧
    (hdrPayloadBit f = 0 → CrcMatches s.cfg.crcReflect f → hdrOp f ≠ 2 → hdrOp f ≠ 3 → s.Read t [] (.bool false))

/-- What one side's builders send, the other side's processor recognises, with the number it carries (R57, R120, R121,
R130), whatever the two sides' states are, if their CRC variant is one. -/
def Obligations.BuiltCommandsAreRecognised : Prop :=
  ∀ (x y : State) (q : Seq), x.cfg.crcReflect = y.cfg.crcReflect →
    (∃ x' f y', exec (.txMakeAck q) x = .next x' ∧ x.Answered x' [] (.flit f) ∧
      exec (.cmdProcess f) y = .next y' ∧ y.Answered y' [.ackEvent q] (.bool true)) ∧
    (∃ x' f y', exec (.txMakeReplayRequest q) x = .next x' ∧ x.Answered x' [] (.flit f) ∧
      exec (.cmdProcess f) y = .next y' ∧ y.Answered y' [.replayRequestEvent q] (.bool true))

/-- R133: ARM_PROCESS_RECEIVED on an expected arrival that is acknowledged, one that is not, a duplicate and a gap, with
the whole block after each. -/
def Obligations.AckManagerDecides : Prop :=
  ∀ (s : State) (q : Seq) (lo : BitVec 3), ∃ t r, exec (.armProcessReceived q lo) s = .next t ∧
    s.Answered t [] (.optFlit r) ∧
    (q = s.block.expectedSeq → s.cfg.ackEveryN = 0 ∨ s.cfg.ackEveryN ≤ s.block.arm.flitsSinceAck + 1 →
      (∃ f, r = some f ∧ IsCommandFlit s.cfg.crcReflect 2 q lo.toNat f) ∧
      t.block = { s.block with
        expectedSeq := BitVec.ofNat 9 (nextSeqNo q.toNat), arm := { flitsSinceAck := 0 } }) ∧
    (q = s.block.expectedSeq → s.cfg.ackEveryN ≠ 0 → s.block.arm.flitsSinceAck + 1 < s.cfg.ackEveryN →
      r = none ∧
      t.block = { s.block with
        expectedSeq := BitVec.ofNat 9 (nextSeqNo q.toNat),
        arm := { flitsSinceAck := s.block.arm.flitsSinceAck + 1 } }) ∧
    (1 ≤ distance s.block.expectedSeq q → distance s.block.expectedSeq q ≤ 255 → r = none ∧ t.block = s.block) ∧
    (q ≠ s.block.expectedSeq → ¬ (1 ≤ distance s.block.expectedSeq q ∧ distance s.block.expectedSeq q ≤ 255) →
      (∃ f, r = some f ∧ IsCommandFlit s.cfg.crcReflect 3 s.block.expectedSeq lo.toNat f) ∧ t.block = s.block)

/-- R134: from `flits_since_ack` = 0, of in-order arrivals exactly those number N, 2N, 3N, … are acknowledged, every one
when N is 0 or 1; and an arrival that is not expected leaves the count as it is. -/
def Obligations.AcksAreBatchedByN : Prop :=
  (∀ (s : State) (lo : BitVec 3) (m : Nat), s.block.arm.flitsSinceAck = 0 →
    ∃ t, runOps ((ringFrom s.block.expectedSeq m).map fun q => .armProcessReceived q lo) s = .next t ∧
      (resultsAfter s.trace.length t).length = m ∧
      ∀ i < m,
        (s.cfg.ackEveryN = 0 ∨ (i + 1) % s.cfg.ackEveryN = 0 →
          ∃ f, (resultsAfter s.trace.length t)[i]? = some (.optFlit (some f)) ∧
            IsCommandFlit s.cfg.crcReflect 2 (wrapSeq^[i] s.block.expectedSeq) lo.toNat f) ∧
        (s.cfg.ackEveryN ≠ 0 → (i + 1) % s.cfg.ackEveryN ≠ 0 →
          (resultsAfter s.trace.length t)[i]? = some (.optFlit none))) ∧
  (∀ (s : State) (q : Seq) (lo : BitVec 3), q ≠ s.block.expectedSeq →
    ∃ t, exec (.armProcessReceived q lo) s = .next t ∧ t.block.arm = s.block.arm)

/-! ## Composite operations -/

/-- R138: EP_SEND_PAYLOAD. With room in the buffer it takes the next number, packs, stores outside replay, transmits and
ticks; with 512 entries stored it answers ReplayBufferFull and changes nothing (R167). -/
def Obligations.SendPayload : Prop :=
  ∀ (s : State) (tls : List Tl), tls.length ≤ 7 →
    (s.block.rb.length ≠ 512 → s.block.tx.explicitCount ≠ 0#5 →
      ∃ t u f n q opp, q.toNat = nextSeqNo s.block.tx.lastSeq.toNat ∧
        exec (.flitPack tls 0b000#3 1#1 q) s = .next u ∧ s.Read u [] (.packed f n) ∧
        exec (.epSendPayload tls) s = .next t ∧ s.Answered t [.transmit f] (.sent q opp) ∧
        (opp = true ↔ s.block.tx.firstReplay = true ∨ s.block.tx.explicitCount.toNat = 1) ∧
        t.block = { s.block with
          rb := if s.block.tx.inReplay then s.block.rb else s.block.rb ++ [{ seq := q, flit := f }],
          tx := { lastSeq := q,
                  explicitCount := if opp then 0x1F#5 else BitVec.ofNat 5 (s.block.tx.explicitCount.toNat - 1),
                  inReplay := s.block.tx.inReplay, firstReplay := false } }) ∧
    (s.block.rb.length = 512 → ∃ t, exec (.epSendPayload tls) s = .next t ∧ s.Read t [] .replayBufferFull)

/-- R166, R169: a payload flit with a bad CRC is counted (past the top of a finite STAT_WIDTH: log entry 14) and nothing
else happens; a flit whose `payload_bit` is 0 is swallowed as a bad command without a trace in the block. -/
def Obligations.BadCrcIsDroppedOnReceive : Prop :=
  ∀ (s : State) (f : Flit), ¬ CrcMatches s.cfg.crcReflect f →
    (hdrPayloadBit f = 1 → ∃ t n, exec (.epReceiveFlit f) s = .next t ∧ s.Answered t [] (.received .crcError) ∧
      Counted s.cfg.statWidth s.block.rxCrcErrors n ∧ t.block = { s.block with rxCrcErrors := n }) ∧
    (hdrPayloadBit f = 0 → ∃ t, exec (.epReceiveFlit f) s = .next t ∧ s.Read t [] (.received .command))

/-- R139, payload path: a good flit that is no command is unpacked and answered by what ARM_PROCESS_RECEIVED answers for
its number and `last_seq[2:0]`: the block is as that operation leaves it, a command flit it gives is transmitted, and the
TL flits are delivered, after it, exactly when the number was expected. -/
def Obligations.PayloadReception : Prop :=
  ∀ (s : State) (f : Flit), CrcMatches s.cfg.crcReflect f →
    hdrPayloadBit f = 1 ∨ (hdrOp f ≠ 2 ∧ hdrOp f ≠ 3) →
    ∃ t u v l r es,
      exec (.flitUnpack f) s = .next u ∧ s.Read u [] (.tls l) ∧
      exec (.armProcessReceived (BitVec.ofNat 9 (hdrSeqNo f)) (BitVec.ofNat 3 s.block.tx.lastSeq.toNat)) s = .next v ∧
      s.Answered v [] (.optFlit r) ∧ (es = match r with | some cf => [.transmit cf] | none => []) ∧
      exec (.epReceiveFlit f) s = .next t ∧ t.block = v.block ∧
      (hdrSeqNo f = s.block.expectedSeq.toNat → s.Answered t (es ++ [.deliver l]) (.received (.accepted l))) ∧
      (hdrSeqNo f ≠ s.block.expectedSeq.toNat →
        (1 ≤ (s.block.expectedSeq.toNat - hdrSeqNo f : Int) % 511 ∧
          (s.block.expectedSeq.toNat - hdrSeqNo f : Int) % 511 ≤ 255 → s.Answered t es (.received .duplicate)) ∧
        (¬ (1 ≤ (s.block.expectedSeq.toNat - hdrSeqNo f : Int) % 511 ∧
          (s.block.expectedSeq.toNat - hdrSeqNo f : Int) % 511 ≤ 255) → s.Answered t es (.received .gap)))

/-- R142: a good Ack inside EP_RECEIVE_FLIT runs EP_PROCESS_ACK, a good Replay Request EP_REPLAY_FROM, in the same step;
the command's own counter counts one more (past the top of a finite STAT_WIDTH: log entry 14), and the block is otherwise
as that operation leaves it. -/
def Obligations.CommandReceptionRunsItsHandler : Prop :=
  ∀ (s : State) (f : Flit), CrcMatches s.cfg.crcReflect f → hdrPayloadBit f = 0 →
    (hdrOp f = 2 →
      ∃ t u n, exec (.epProcessAck (BitVec.ofNat 9 (hdrAckReqSeq f))) s = .next u ∧
        exec (.epReceiveFlit f) s = .next t ∧
        s.Answered t [.ackEvent (BitVec.ofNat 9 (hdrAckReqSeq f))] (.received .command) ∧
        Counted s.cfg.statWidth s.block.cmd.acksReceived n ∧
        t.block = { u.block with cmd := { s.block.cmd with acksReceived := n } }) ∧
    (hdrOp f = 3 →
      ∃ t u es k n, exec (.epReplayFrom (BitVec.ofNat 9 (hdrAckReqSeq f))) s = .next u ∧
        s.Answered u es (.count k) ∧ exec (.epReceiveFlit f) s = .next t ∧
        s.Answered t (.replayRequestEvent (BitVec.ofNat 9 (hdrAckReqSeq f)) :: es) (.received .command) ∧
        Counted s.cfg.statWidth s.block.cmd.replayRequestsReceived n ∧
        t.block = { u.block with cmd := { s.block.cmd with replayRequestsReceived := n } })

/-- R141: EP_REPLAY_FROM re-emits, unchanged and in order, what RB_REPLAY_ITER answers, leaves them in the buffer and ends
outside replay mode with one more replay counted; an unknown number is counted and dropped (R168). What a statistic of
finite STAT_WIDTH holds past its top is left open (log entry 14). -/
def Obligations.ReplayReemitsStoredFlits : Prop :=
  ∀ (s : State) (r : Seq), ∃ t u v n, exec (.rbReplayIter r) s = .next u ∧ s.Read u [] (.entries v) ∧
    exec (.epReplayFrom r) s = .next t ∧
    (v = [] → s.Answered t [] (.count 0) ∧ Counted s.cfg.statWidth s.block.replayUnknownSeq n ∧
      t.block = { s.block with replayUnknownSeq := n }) ∧
    (v ≠ [] → s.Answered t (v.map fun e => .transmit e.flit) (.count v.length) ∧
      Counted s.cfg.statWidth s.block.stats.replaySequences n ∧
      t.block = { s.block with
        tx := { s.block.tx with inReplay := false, firstReplay := false },
        stats := { s.block.stats with replaySequences := n } })

/-- Two sides of a link in step (R180, R138, R139): what one side sends, the other accepts, delivers in full and unchanged,
and both stay in step. -/
def Obligations.SentPayloadIsDelivered : Prop :=
  ∀ (x y : State) (tls : List Tl), tls.length ≤ 7 → x.cfg.crcReflect = y.cfg.crcReflect →
    x.block.rb.length ≠ 512 → x.block.tx.explicitCount ≠ 0#5 →
    y.block.expectedSeq = wrapSeq x.block.tx.lastSeq →
    ∃ x' f q opp y' es, exec (.epSendPayload tls) x = .next x' ∧ x.Answered x' [.transmit f] (.sent q opp) ∧
      exec (.epReceiveFlit f) y = .next y' ∧ y.Answered y' (es ++ [.deliver tls]) (.received (.accepted tls)) ∧
      (es = [] ∨ ∃ cf, es = [.transmit cf]) ∧
      y'.block.expectedSeq = wrapSeq x'.block.tx.lastSeq

/-- The whole exchange (R105, R138, R139, R142): with fewer than 255 consecutive flits outstanding (R192) and a peer that
acknowledges every flit, the Ack the peer transmits for a sent flit, received back, empties the sender's replay buffer. -/
def Obligations.AckOfSentPayloadEmptiesTheBuffer : Prop :=
  ∀ (x y : State) (tls : List Tl) (a : Seq) (k : Nat), tls.length ≤ 7 → x.cfg.crcReflect = y.cfg.crcReflect →
    y.cfg.ackEveryN = 0 → x.block.tx.explicitCount ≠ 0#5 → x.block.tx.inReplay = false →
    a ≠ 0#9 → k ≤ 254 → x.block.rb.map Entry.seq = ringFrom a k → wrapSeq x.block.tx.lastSeq = wrapSeq^[k] a →
    y.block.expectedSeq = wrapSeq x.block.tx.lastSeq →
    ∃ x' f q opp y' cf x'', exec (.epSendPayload tls) x = .next x' ∧ x.Answered x' [.transmit f] (.sent q opp) ∧
      exec (.epReceiveFlit f) y = .next y' ∧
      y.Answered y' [.transmit cf, .deliver tls] (.received (.accepted tls)) ∧
      exec (.epReceiveFlit cf) x' = .next x'' ∧ x'.Answered x'' [.ackEvent q] (.received .command) ∧
      x''.block.rb = []

/-- The stored flits as an invariant: each has a valid CRC (R27 (g)), `payload_bit` 1 (R80) and the number it is stored
under (R138). Every operation keeps it, RB_ADD, which takes any flit, where the flit it is given is such a one. -/
def Obligations.StoredFlitsStaySound : Prop :=
  ∀ (i : Instr) (s t : State), (∀ q f, i = .rbAdd q f → Entry.Sound s.cfg.crcReflect { seq := q, flit := f }) →
    StoredFlitsSound s → exec i s = .next t → StoredFlitsSound t

/-! ## Arbiter -/

/-- R150: an admitted packet goes to the back of its class's FIFO, where that is unbounded or has room, and nothing else
changes; a packet that is not admitted is refused. What a full FIFO of finite ARB_FIFO_DEPTH does is said in
WellFormedInstructionsComplete. -/
def Obligations.EnqueueAppendsOrRefuses : Prop :=
  (∀ (s : State) (c : DlClass) (x : DWord) (rest : List DWord),
    rest.length ≤ 32 → (rest = [] ∨ c = .uart) →
    (∀ depth, s.cfg.arbFifoDepth = some depth → (queueOf s.block.dmq c).length < depth) →
    ∃ t, exec (.dmqEnqueue c (x :: rest)) s = .next t ∧ s.Answered t [] .none ∧
      queueOf t.block.dmq c = queueOf s.block.dmq c ++ [{ first := x, rest := rest }] ∧
      (∀ c', c' ≠ c → queueOf t.block.dmq c' = queueOf s.block.dmq c') ∧
      t.block = { s.block with dmq := { s.block.dmq with
        qBasic := t.block.dmq.qBasic, qControl := t.block.dmq.qControl, qUart := t.block.dmq.qUart } }) ∧
  (∀ (s : State) (c : DlClass) (dws : List DWord),
    dws.length = 0 ∨ 33 < dws.length ∨ (dws.length ≠ 1 ∧ c ≠ .uart) →
    exec (.dmqEnqueue c dws) s = .refused (.illegalPacket c dws.length))

/-- R151 step 1: while the lock is held a pop gives the next DWord of the packet in flight, most significant byte first,
and clears the lock with the last one; the FIFOs are not looked at. Where the lock is held with nothing pending, which R20
excludes between operations, the model stops with a fault (log entry 6: the model's choice). -/
def Obligations.PopUnderTheLock : Prop :=
  (∀ (s : State) (x : DWord) (rest : List DWord), s.block.dmq.uartMultiProgress = true →
    s.block.dmq.uartPending = x :: rest →
    ∃ t b, exec .dmqPopNextDword s = .next t ∧ s.Answered t [] (.optBytes (some b)) ∧ b.val = bytesOfNat 4 x.toNat ∧
      t.block = { s.block with dmq := { s.block.dmq with
        uartPending := rest, uartMultiProgress := decide (rest ≠ []) } }) ∧
  (∀ s : State, s.block.dmq.uartMultiProgress = true → s.block.dmq.uartPending = [] →
    exec .dmqPopNextDword s = .fault .lockWithoutPending)

/-- R151 steps 2 to 4, R152: without the lock a pop serves the first class with a packet waiting, in the order of R152 that
`last_served` gives; a packet of several DWords takes the lock; with nothing waiting the answer is None and nothing
changes. -/
def Obligations.PopRoundRobin : Prop :=
  ∀ (s : State) (order : List DlClass), s.block.dmq.uartMultiProgress = false →
    order = (match s.block.dmq.lastServed, s.cfg.rrFirstAfterNone with
      | some .basic, _ => [.control, .uart, .basic]
      | some .control, _ => [.uart, .basic, .control]
      | some .uart, _ => [.basic, .control, .uart]
      | none, .control => [.control, .uart, .basic]
      | none, .uart => [.uart, .basic, .control]) →
    ((∀ c, queueOf s.block.dmq c = []) → ∃ t, exec .dmqPopNextDword s = .next t ∧ s.Read t [] (.optBytes none)) ∧
    (∀ (before after : List DlClass) (c : DlClass) (p : Packet) (others : List Packet),
      order = before ++ c :: after → (∀ c' ∈ before, queueOf s.block.dmq c' = []) →
      queueOf s.block.dmq c = p :: others →
      ∃ t b, exec .dmqPopNextDword s = .next t ∧ s.Answered t [] (.optBytes (some b)) ∧
        b.val = bytesOfNat 4 p.first.toNat ∧
        queueOf t.block.dmq c = others ∧ (∀ c', c' ≠ c → queueOf t.block.dmq c' = queueOf s.block.dmq c') ∧
        t.block.dmq.lastServed = (if p.rest = [] then some c else some .uart) ∧
        t.block.dmq.uartMultiProgress = decide (p.rest ≠ []) ∧
        t.block.dmq.uartPending = (if p.rest = [] then s.block.dmq.uartPending else p.rest) ∧
        t.block = { s.block with dmq := t.block.dmq })

/-- R153, R156: a packet in flight is not interrupted. Whatever operations but RESET run meanwhile, while no more pops than
DWords are pending the pops emit exactly those DWords in order, and the lock is held until the last one. -/
def Obligations.TransportIsNotInterrupted : Prop :=
  ∀ (s t : State) (ops : List Instr), s.block.dmq.uartMultiProgress = true →
    .reset ∉ ops → ops.count .dmqPopNextDword ≤ s.block.dmq.uartPending.length → s.block.dmq.uartPending ≠ [] →
    runOps ops s = .next t →
    emittedDwords (resultsAfter s.trace.length t) =
      (s.block.dmq.uartPending.take (ops.count .dmqPopNextDword)).map (fun d => bytesOfNat 4 d.toNat) ∧
    t.block.dmq.uartPending = s.block.dmq.uartPending.drop (ops.count .dmqPopNextDword) ∧
    t.block.dmq.uartMultiProgress = decide (ops.count .dmqPopNextDword < s.block.dmq.uartPending.length) ∧
    t.block.dmq.lastServed = s.block.dmq.lastServed

/-- R155: with k single-DWord packets at the front of each FIFO and no lock, 3k pops serve the three classes in turn, each
in FIFO order, so that every window of three holds exactly one DWord of each class. -/
def Obligations.RoundRobinIsFair : Prop :=
  ∀ (s : State) (k : Nat), s.block.dmq.uartMultiProgress = false →
    (∀ c, k ≤ (queueOf s.block.dmq c).length) →
    (∀ c p, p ∈ (queueOf s.block.dmq c).take k → p.rest = []) →
    ∃ (t : State) (order : List DlClass), runOps (List.replicate (3 * k) .dmqPopNextDword) s = .next t ∧
      order.length = 3 ∧ order.Nodup ∧
      ∀ n < 3 * k, ∃ c p b, order[n % 3]? = some c ∧ (queueOf s.block.dmq c)[n / 3]? = some p ∧
        (resultsAfter s.trace.length t)[n]? = some (.optBytes (some b)) ∧ b.val = bytesOfNat 4 p.first.toNat

/-! ## The whole machine -/

/-- The invariant of R5, R20 and R27 is kept by every step, from every state that has it, not only from reset. -/
def Obligations.LegalStatesStayLegal : Prop :=
  ∀ s t : State, s.Legal → step s = .next t → t.Legal

/-- The state after reset is legal (R26, R27). -/
def Obligations.ResetStateIsLegal : Prop := State.reset.Legal

/-- In every legal state every well-formed instruction completes with a next state: no data of a caller's ends a run, and
there is no state of the block in which an operation waits (R6: "No operation suspends or blocks internally"). The one
condition is that DMQ_ENQUEUE has room where ARB_FIFO_DEPTH is finite; that it is refused where it has none is the model's
choice, as the spec does not model overflow (decision D30, log entry 14). -/
def Obligations.WellFormedInstructionsComplete : Prop :=
  (∀ (s : State) (i : Instr), s.Legal → i.wellFormed = true →
    (∀ c dws depth, i = .dmqEnqueue c dws → s.cfg.arbFifoDepth = some depth →
      (queueOf s.block.dmq c).length < depth) →
    ∃ t, exec i s = .next t) ∧
  (∀ (s : State) (c : DlClass) (dws : List DWord) (depth : Nat), (Instr.dmqEnqueue c dws).wellFormed = true →
    s.cfg.arbFifoDepth = some depth → depth ≤ (queueOf s.block.dmq c).length →
    exec (.dmqEnqueue c dws) s = .refused (.arbFifoFull c))

/-- Each part of the state is written by the operations the spec names for it and by no other (R14 to R24): replay buffer,
receive tracker, transmit controller, statistics, command counters, Ack manager, arbiter, composite counters. No operation
writes the configuration or what the caller has presented, and each adds exactly one answer. -/
def Obligations.OnlyNamedOperationsWrite : Prop :=
  ∀ (i : Instr) (s t : State), exec i s = .next t →
    t.cfg = s.cfg ∧ t.program = s.program ∧ (∃ a, t.trace = s.trace ++ [a]) ∧
    (i.opName ∉ [some .rbAdd, some .rbRetireThrough, some .rbClear, some .reset, some .epSendPayload,
      some .epReceiveFlit, some .epProcessAck] → t.block.rb = s.block.rb) ∧
    (i.opName ∉ [some .stAdvance, some .stReset, some .armProcessReceived, some .reset, some .epReceiveFlit] →
      t.block.expectedSeq = s.block.expectedSeq) ∧
    (i.opName ∉ [some .txNextPayloadSeq, some .txStartReplay, some .txFinishReplay, some .txTickExplicitCount,
      some .txReset, some .reset, some .epSendPayload, some .epReceiveFlit, some .epReplayFrom] →
      t.block.tx = s.block.tx) ∧
    (i.opName ∉ [some .txStartReplay, some .txMakeAck, some .txMakeReplayRequest, some .txReset, some .reset,
      some .epReceiveFlit, some .epReplayFrom] → t.block.stats = s.block.stats) ∧
    (i.opName ∉ [some .cmdProcess, some .reset, some .epReceiveFlit] → t.block.cmd = s.block.cmd) ∧
    (i.opName ∉ [some .armProcessReceived, some .reset, some .epReceiveFlit] → t.block.arm = s.block.arm) ∧
    (i.opName ∉ [some .dmqEnqueue, some .dmqPopNextDword, some .reset] → t.block.dmq = s.block.dmq) ∧
    (i.opName ∉ [some .reset, some .epReceiveFlit] → t.block.rxCrcErrors = s.block.rxCrcErrors) ∧
    (i.opName ∉ [some .reset, some .epReceiveFlit, some .epReplayFrom] →
      t.block.replayUnknownSeq = s.block.replayUnknownSeq)

/-- R175: an operation that reports an error raises no event and leaves the block unchanged except for the one counter the
error has in R165's table, which counts one more (past the top of a finite STAT_WIDTH: log entry 14). -/
def Obligations.ErrorsChangeOnlyTheirCounter : Prop :=
  ∀ (i : Instr) (s t : State) (a : Answer) (e : ErrorKind), exec i s = .next t → t.trace = s.trace ++ [a] →
    reportedError i a.result = some e →
    a.events = [] ∧ ∃ m n,
      (if e = .crcError ∧ i.opName = some .epReceiveFlit then Counted s.cfg.statWidth s.block.rxCrcErrors m
        else m = s.block.rxCrcErrors) ∧
      (if e = .replayRequestForUnknownSeq ∧ i.opName = some .epReplayFrom then
        Counted s.cfg.statWidth s.block.replayUnknownSeq n
        else n = s.block.replayUnknownSeq) ∧
      t.block = { s.block with rxCrcErrors := m, replayUnknownSeq := n }
end

