-- ==== Sys2Proof/Laws/Formats.lean ====
section
/-! SUPPORT. The wire formats: each field of a word is read back where the encoders put it, and bytes and header values go
into each other. -/

namespace Sys2Proof

/-- Reading inside the right part of a concatenation. -/
theorem extract_append_right {m n : Nat} (x : BitVec m) (y : BitVec n) (lo len : Nat) (h : lo + len ≤ n) :
    (x ++ y).extractLsb' lo len = y.extractLsb' lo len := by
  apply BitVec.eq_of_getLsbD_eq
  intro i hi
  rw [BitVec.getLsbD_extractLsb', BitVec.getLsbD_extractLsb', BitVec.getLsbD_append, if_pos (by omega)]

/-- Reading inside the left part of a concatenation. -/
theorem extract_append_left {m n : Nat} (x : BitVec m) (y : BitVec n) (lo len : Nat) (h : n ≤ lo) :
    (x ++ y).extractLsb' lo len = x.extractLsb' (lo - n) len := by
  apply BitVec.eq_of_getLsbD_eq
  intro i hi
  rw [BitVec.getLsbD_extractLsb', BitVec.getLsbD_extractLsb', BitVec.getLsbD_append, if_neg (by omega)]
  congr 2; omega

/-- Reading all of a word. -/
theorem extract_all {n : Nat} (x : BitVec n) : x.extractLsb' 0 n = x := by
  apply BitVec.eq_of_getLsbD_eq
  intro i hi
  simp [hi]

/-- Two neighbouring reads put together are one read. -/
theorem extract_join {n : Nat} (x : BitVec n) (lo a b : Nat) :
    x.extractLsb' (lo + b) a ++ x.extractLsb' lo b = x.extractLsb' lo (a + b) := by
  apply BitVec.eq_of_getLsbD_eq
  intro i hi
  rw [BitVec.getLsbD_append]
  split
  · next h => simp [h, hi]
  · next h =>
    rw [BitVec.getLsbD_extractLsb', BitVec.getLsbD_extractLsb']
    have h1 : i - b < a := by omega
    have h2 : lo + b + (i - b) = lo + i := by omega
    simp [h1, hi, h2]

/-- A concatenation as a number. -/
theorem toNat_append_add {m n : Nat} (x : BitVec m) (y : BitVec n) : (x ++ y).toNat = x.toNat * 2 ^ n + y.toNat := by
  rw [BitVec.toNat_append, Nat.shiftLeft_eq, Nat.mul_comm, Nat.two_pow_add_eq_or_of_lt y.isLt]

/-! ## Header words -/

@[simp] theorem explicitWord_op (op pb ra q rb) : (explicitWord op pb ra q rb).extractLsb' 21 3 = op := by
  unfold explicitWord
  rw [extract_append_left _ _ _ _ (by omega), extract_append_left _ _ _ _ (by omega),
    extract_append_left _ _ _ _ (by omega), extract_append_left _ _ _ _ (by omega), extract_all]

@[simp] theorem explicitWord_payloadBit (op pb ra q rb) : (explicitWord op pb ra q rb).extractLsb' 20 1 = pb := by
  unfold explicitWord
  rw [extract_append_left _ _ _ _ (by omega), extract_append_left _ _ _ _ (by omega),
    extract_append_left _ _ _ _ (by omega), extract_append_right _ _ _ _ (by omega), extract_all]

@[simp] theorem explicitWord_reservedA (op pb ra q rb) : (explicitWord op pb ra q rb).extractLsb' 17 3 = ra := by
  unfold explicitWord
  rw [extract_append_left _ _ _ _ (by omega), extract_append_left _ _ _ _ (by omega),
    extract_append_right _ _ _ _ (by omega), extract_all]

@[simp] theorem explicitWord_flitSeqNo (op pb ra q rb) : (explicitWord op pb ra q rb).extractLsb' 8 9 = q := by
  unfold explicitWord
  rw [extract_append_left _ _ _ _ (by omega), extract_append_right _ _ _ _ (by omega), extract_all]

@[simp] theorem explicitWord_reservedB (op pb ra q rb) : (explicitWord op pb ra q rb).extractLsb' 0 8 = rb := by
  unfold explicitWord
  rw [extract_append_right _ _ _ _ (by omega), extract_all]

@[simp] theorem commandWord_op (op pb a lo r) : (commandWord op pb a lo r).extractLsb' 21 3 = op := by
  unfold commandWord
  rw [extract_append_left _ _ _ _ (by omega), extract_append_left _ _ _ _ (by omega),
    extract_append_left _ _ _ _ (by omega), extract_append_left _ _ _ _ (by omega), extract_all]

@[simp] theorem commandWord_payloadBit (op pb a lo r) : (commandWord op pb a lo r).extractLsb' 20 1 = pb := by
  unfold commandWord
  rw [extract_append_left _ _ _ _ (by omega), extract_append_left _ _ _ _ (by omega),
    extract_append_left _ _ _ _ (by omega), extract_append_right _ _ _ _ (by omega), extract_all]

@[simp] theorem commandWord_ackReqSeq (op pb a lo r) : (commandWord op pb a lo r).extractLsb' 11 9 = a := by
  unfold commandWord
  rw [extract_append_left _ _ _ _ (by omega), extract_append_left _ _ _ _ (by omega),
    extract_append_right _ _ _ _ (by omega), extract_all]

@[simp] theorem commandWord_flitSeqLo (op pb a lo r) : (commandWord op pb a lo r).extractLsb' 8 3 = lo := by
  unfold commandWord
  rw [extract_append_left _ _ _ _ (by omega), extract_append_right _ _ _ _ (by omega), extract_all]

@[simp] theorem commandWord_reserved (op pb a lo r) : (commandWord op pb a lo r).extractLsb' 0 8 = r := by
  unfold commandWord
  rw [extract_append_right _ _ _ _ (by omega), extract_all]

/-- `dec_explicit` reads back what F-EXPL was built from. -/
@[simp] theorem decExplicit_explicitWord (op pb ra q rb) :
    decExplicit (explicitWord op pb ra q rb) = { op := op, payloadBit := pb, flitSeqNo := q } := by
  simp [decExplicit]

/-- `dec_command` reads back what F-CMD was built from. -/
@[simp] theorem decCommand_commandWord (op pb a lo r) :
    decCommand (commandWord op pb a lo r) =
      { op := op, payloadBit := pb, ackReqSeq := a, flitSeqLo := lo } := by
  simp [decCommand]

/-- The two forms share `op` and `payload_bit` (R50). -/
theorem decCommand_shared (h : BitVec 24) :
    (decCommand h).op = (decExplicit h).op ∧ (decCommand h).payloadBit = (decExplicit h).payloadBit := ⟨rfl, rfl⟩

/-- The bytes of a header value give it back. -/
@[simp] theorem headerWord_be24 (h : BitVec 24) :
    headerWord (h.extractLsb' 16 8) (h.extractLsb' 8 8) (h.extractLsb' 0 8) = h := by
  unfold headerWord
  rw [extract_join h 8 8 8, extract_join h 0 16 8, extract_all]

/-- The bytes of a 32-bit value give it back. -/
@[simp] theorem u32be_be32 (v : BitVec 32) :
    u32be (v.extractLsb' 24 8) (v.extractLsb' 16 8) (v.extractLsb' 8 8) (v.extractLsb' 0 8) = v := by
  unfold u32be
  rw [extract_join v 16 8 8, extract_join v 8 16 8, extract_join v 0 24 8, extract_all]

/-- Three header bytes are the bytes of their header value. -/
@[simp] theorem be24_headerWord (b0 b1 b2 : Byte) : (be24 (headerWord b0 b1 b2)).val = [b0, b1, b2] := by
  unfold be24 headerWord
  simp only [List.cons.injEq, and_true]
  refine ⟨?_, ?_, ?_⟩
  · rw [extract_append_left _ _ _ _ (by omega), extract_append_left _ _ _ _ (by omega), extract_all]
  · rw [extract_append_left _ _ _ _ (by omega), extract_append_right _ _ _ _ (by omega), extract_all]
  · rw [extract_append_right _ _ _ _ (by omega), extract_all]

/-- Four bytes are the bytes of their 32-bit value. -/
@[simp] theorem be32_u32be (b0 b1 b2 b3 : Byte) : (be32 (u32be b0 b1 b2 b3)).val = [b0, b1, b2, b3] := by
  unfold be32 u32be
  simp only [List.cons.injEq, and_true]
  refine ⟨?_, ?_, ?_, ?_⟩
  · rw [extract_append_left _ _ _ _ (by omega), extract_append_left _ _ _ _ (by omega),
      extract_append_left _ _ _ _ (by omega), extract_all]
  · rw [extract_append_left _ _ _ _ (by omega), extract_append_left _ _ _ _ (by omega),
      extract_append_right _ _ _ _ (by omega), extract_all]
  · rw [extract_append_left _ _ _ _ (by omega), extract_append_right _ _ _ _ (by omega), extract_all]
  · rw [extract_append_right _ _ _ _ (by omega), extract_all]

/-! ## Segment headers and DWords -/

/-- `dec_seg` reads back what F-SEG was built from. -/
@[simp] theorem decSeg_segByte (f : SegFields) : decSeg (segByte f) = f := by
  rcases f with ⟨t1, m1, t0, m0, r, a⟩
  simp only [decSeg, segByte, SegFields.mk.injEq]
  refine ⟨?_, ?_, ?_, ?_, ?_, ?_⟩
  · rw [extract_append_left _ _ _ _ (by omega), extract_append_left _ _ _ _ (by omega),
      extract_append_left _ _ _ _ (by omega), extract_append_left _ _ _ _ (by omega),
      extract_append_left _ _ _ _ (by omega), extract_all]
  · rw [extract_append_left _ _ _ _ (by omega), extract_append_left _ _ _ _ (by omega),
      extract_append_left _ _ _ _ (by omega), extract_append_left _ _ _ _ (by omega),
      extract_append_right _ _ _ _ (by omega), extract_all]
  · rw [extract_append_left _ _ _ _ (by omega), extract_append_left _ _ _ _ (by omega),
      extract_append_left _ _ _ _ (by omega), extract_append_right _ _ _ _ (by omega), extract_all]
  · rw [extract_append_left _ _ _ _ (by omega), extract_append_left _ _ _ _ (by omega),
      extract_append_right _ _ _ _ (by omega), extract_all]
  · rw [extract_append_left _ _ _ _ (by omega), extract_append_right _ _ _ _ (by omega), extract_all]
  · rw [extract_append_right _ _ _ _ (by omega), extract_all]

/-- Every byte is the segment header of its own fields: no bit is dropped. -/
@[simp] theorem segByte_decSeg (b : Byte) : segByte (decSeg b) = b := by
  simp only [decSeg, segByte]
  rw [extract_join b 5 1 2, extract_join b 4 3 1, extract_join b 2 4 2, extract_join b 1 6 1, extract_join b 0 7 1,
    extract_all]

/-- The fields of a DWord are read back. -/
@[simp] theorem decDword_dwordWord (p t c r) :
    decDword (dwordWord p t c r) = { messageSpecific := p, mtype := t, mclass := c } := by
  simp only [decDword, dwordWord, DwordFields.mk.injEq]
  refine ⟨?_, ?_, ?_⟩
  · rw [extract_append_left _ _ _ _ (by omega), extract_append_left _ _ _ _ (by omega),
      extract_append_left _ _ _ _ (by omega), extract_append_left _ _ _ _ (by omega), extract_all]
  · rw [extract_append_left _ _ _ _ (by omega), extract_append_left _ _ _ _ (by omega),
      extract_append_left _ _ _ _ (by omega), extract_append_right _ _ _ _ (by omega), extract_all]
  · rw [extract_append_left _ _ _ _ (by omega), extract_append_left _ _ _ _ (by omega),
      extract_append_right _ _ _ _ (by omega), extract_all]

@[simp] theorem dwordWord_reserved (p t c r) : (dwordWord p t c r).extractLsb' 1 1 = r := by
  unfold dwordWord
  rw [extract_append_left _ _ _ _ (by omega), extract_append_right _ _ _ _ (by omega), extract_all]

@[simp] theorem dwordWord_compressed (p t c r) : (dwordWord p t c r).extractLsb' 0 1 = 0#1 := by
  unfold dwordWord
  rw [extract_append_right _ _ _ _ (by omega), extract_all]

/-! ## Operands -/

/-- A number that fits its field decodes to it. -/
@[simp] theorem fieldOf_toNat (fld : Field) {w : Nat} (v : BitVec w) : fieldOf fld w v.toNat = .ok v := by
  simp [fieldOf, v.isLt]

/-- A number that does not fit is reported. -/
theorem fieldOf_wide (fld : Field) (w n : Nat) (h : ¬ n < 2 ^ w) :
    fieldOf fld w n = .error (.fieldOutOfRange fld n w) := by simp only [fieldOf, if_neg h]

/-- What a field decodes from is its number. -/
theorem fieldOf_ok {fld : Field} {w n : Nat} {v : BitVec w} (h : fieldOf fld w n = .ok v) : v.toNat = n := by
  unfold fieldOf at h
  split at h
  · next hn => cases h; simp [Nat.mod_eq_of_lt hn]
  · exact absurd h (by simp)

/-- A byte string of the right size decodes to itself. -/
@[simp] theorem bytesOf_val (op : OpName) {n : Nat} (b : Bytes n) : bytesOf op n b.val = .ok b := by
  simp [bytesOf, b.size]

theorem bytesOf_ok {op : OpName} {n : Nat} {l : List Byte} {b : Bytes n} (h : bytesOf op n l = .ok b) : b.val = l := by
  unfold bytesOf at h
  split at h
  · cases h; rfl
  · exact absurd h (by simp)

/-- TL flits decode from their operand form. -/
@[simp] theorem tlsOf_map (op : OpName) (l : List Tl) : tlsOf op (l.map tlOperand) = .ok l := by
  induction l with
  | nil => rfl
  | cons t rest ih =>
    simp only [List.map_cons, tlOperand, tlsOf, bytesOf_val, fieldOf_toNat]
    rw [ih]; rfl

/-- DWords decode from their numbers. -/
@[simp] theorem dwordsOf_map (l : List DWord) : dwordsOf (l.map BitVec.toNat) = .ok l := by
  induction l with
  | nil => rfl
  | cons d rest ih => simp only [List.map_cons, dwordsOf, fieldOf_toNat, ih]; rfl

end Sys2Proof
end

