-- ==== Sys2Proof/Laws/Bytes.lean ====
section
/-! SUPPORT. Byte strings and the regions of a flit: what is read from a string put together, and what a sealed flit's header,
segment headers, payload and CRC check are. -/

namespace Sys2Proof.Machine

@[simp] theorem joinBytes_val {m n : Nat} (a : Bytes m) (b : Bytes n) : (joinBytes a b).val = a.val ++ b.val := rfl

@[simp] theorem zeros_val (n : Nat) : (zeros n).val = List.replicate n 0#8 := rfl

@[simp] theorem readBytes_val {m : Nat} (b : Bytes m) (a n h) : (readBytes b a n h).val = (b.val.drop a).take n := rfl

@[simp] theorem writeBytes_val {m n : Nat} (b : Bytes m) (a) (d : Bytes n) (h) :
    (writeBytes b a d h).val = b.val.take a ++ d.val ++ b.val.drop (a + n) := rfl

/-- A flit put together from its body and its CRC field (R45, R72). -/
theorem sealFlit_val (reflect : Bool) (body : Bytes 636) :
    (sealFlit reflect body).val = body.val ++ (be32 (crc32 reflect body.val)).val := rfl

/-- The covered region of a sealed flit is its body. -/
@[simp] theorem covered_sealFlit (reflect : Bool) (body : Bytes 636) : covered (sealFlit reflect body) = body := by
  apply Bytes.ext
  simp [covered, sealFlit_val, body.size]

/-- The CRC field of a sealed flit is its body's CRC. -/
@[simp] theorem crcField_sealFlit (reflect : Bool) (body : Bytes 636) :
    crcField (sealFlit reflect body) = be32 (crc32 reflect body.val) := by
  apply Bytes.ext
  have h : (be32 (crc32 reflect body.val)).val.length = 4 := (be32 _).size
  simp [crcField, sealFlit_val, body.size, ← h]

/-- A sealed flit passes its check (R57, R86). -/
@[simp] theorem crcGood_sealFlit (reflect : Bool) (body : Bytes 636) : crcGood reflect (sealFlit reflect body) = true := by
  simp [crcGood]

/-- The header of a sealed flit is the header its body begins with. -/
theorem flitHeader_sealFlit (reflect : Bool) (h : BitVec 24) (rest : Bytes 633) :
    flitHeader (sealFlit reflect (joinBytes (be24 h) rest)) = h := by
  simp only [flitHeader, byteAt]
  have e : (sealFlit reflect (joinBytes (be24 h) rest)).val =
      h.extractLsb' 16 8 :: h.extractLsb' 8 8 :: h.extractLsb' 0 8 ::
        (rest.val ++ (be32 (crc32 reflect (joinBytes (be24 h) rest).val)).val) := rfl
  simp only [e, List.getElem_cons_zero, List.getElem_cons_succ, headerWord_be24]

/-- The header of a command flit (R57). -/
@[simp] theorem flitHeader_cmdFlit (reflect : Bool) (op : BitVec 3) (q : Seq) (lo : BitVec 3) :
    flitHeader (cmdFlit reflect op q lo) = commandWord op 0#1 q lo 0#8 :=
  flitHeader_sealFlit reflect _ _

@[simp] theorem crcGood_cmdFlit (reflect : Bool) (op : BitVec 3) (q : Seq) (lo : BitVec 3) :
    crcGood reflect (cmdFlit reflect op q lo) = true := crcGood_sealFlit ..

/-- The header of a packed flit (R80 step 1). -/
@[simp] theorem flitHeader_flitPack (reflect tls h op pb q) :
    flitHeader (flitPack reflect tls h op pb q) = explicitWord op pb 0#3 q 0#8 :=
  flitHeader_sealFlit reflect _ _

@[simp] theorem crcGood_flitPack (reflect tls h op pb q) :
    crcGood reflect (flitPack reflect tls h op pb q) = true := crcGood_sealFlit ..

/-! ## Big-endian bytes as numbers -/

theorem be32_val_eq (v : BitVec 32) : (be32 v).val = bytesOfNat 4 v.toNat := by
  simp only [be32, bytesOfNat, List.cons.injEq, and_true]
  refine ⟨?_, ?_, ?_, ?_⟩ <;> · apply BitVec.eq_of_toNat_eq; simp [Nat.shiftRight_eq_div_pow]

/-- Reading back the bytes of a number that fits them. -/
theorem natOfBytes_append (a b : List Byte) :
    natOfBytes (a ++ b) = natOfBytes a * 256 ^ b.length + natOfBytes b := by
  have key : ∀ (l : List Byte) (acc : Nat),
      l.foldl (fun acc x => acc * 256 + x.toNat) acc = acc * 256 ^ l.length + natOfBytes l := by
    intro l
    induction l with
    | nil => intro acc; simp [natOfBytes]
    | cons x rest ih =>
      intro acc
      simp only [natOfBytes, List.foldl_cons, List.length_cons]
      rw [ih, ih (0 * 256 + x.toNat)]
      ring
  unfold natOfBytes
  rw [List.foldl_append, key b]
  rfl

@[simp] theorem bytesOfNat_length (n v : Nat) : (bytesOfNat n v).length = n := by
  induction n generalizing v with
  | zero => rfl
  | succ n ih => simp [bytesOfNat, ih]

theorem natOfBytes_bytesOfNat (n v : Nat) : natOfBytes (bytesOfNat n v) = v % 256 ^ n := by
  induction n generalizing v with
  | zero => simp [bytesOfNat, natOfBytes, Nat.mod_one]
  | succ n ih =>
    rw [bytesOfNat, ← List.singleton_append, natOfBytes_append, bytesOfNat_length, ih]
    have h : (2 : Nat) ^ (8 * n) = 256 ^ n := by rw [pow_mul]; norm_num
    simp only [natOfBytes, List.foldl_cons, List.foldl_nil, BitVec.toNat_ofNat, h]
    have e : v % 256 ^ (n + 1) = v % 256 ^ n + 256 ^ n * (v / 256 ^ n % 256) := by rw [pow_succ, Nat.mod_mul]
    rw [e, show (2 : Nat) ^ 8 = 256 from rfl]
    ring

theorem natOfBytes_lt (b : List Byte) : natOfBytes b < 256 ^ b.length := by
  induction b with
  | nil => simp [natOfBytes]
  | cons x rest ih =>
    rw [← List.singleton_append, natOfBytes_append]
    have hx : natOfBytes [x] = x.toNat := by simp [natOfBytes]
    have := x.isLt
    rw [hx, List.length_append, List.length_singleton, pow_add, pow_one]
    nlinarith

/-- Equal lengths and equal numbers are equal bytes. -/
theorem natOfBytes_inj {a b : List Byte} (hl : a.length = b.length) (h : natOfBytes a = natOfBytes b) : a = b := by
  induction a generalizing b with
  | nil => cases b with
    | nil => rfl
    | cons => simp at hl
  | cons x xs ih =>
    cases b with
    | nil => simp at hl
    | cons y ys =>
      simp only [List.length_cons, Nat.add_right_cancel_iff] at hl
      rw [← List.singleton_append, ← List.singleton_append (l := ys), natOfBytes_append, natOfBytes_append, hl] at h
      have hx : natOfBytes [x] = x.toNat := by simp [natOfBytes]
      have hy : natOfBytes [y] = y.toNat := by simp [natOfBytes]
      rw [hx, hy] at h
      have l1 := natOfBytes_lt xs
      have l2 := natOfBytes_lt ys
      rw [hl] at l1
      have hp : 0 < 256 ^ ys.length := by positivity
      have e1 : x.toNat = y.toNat := by
        have := congrArg (· / 256 ^ ys.length) h
        simpa [Nat.add_div_of_dvd_right, Nat.div_eq_of_lt l1, Nat.div_eq_of_lt l2, hp.ne', Nat.mul_add_div, Nat.mul_comm] using this
      have e2 : natOfBytes xs = natOfBytes ys := by rw [e1] at h; omega
      rw [BitVec.eq_of_toNat_eq e1, ih hl e2]

/-- The check of R73, as the statements write it. -/
theorem crcGood_iff (reflect : Bool) (f : Flit) : crcGood reflect f = true ↔ CrcMatches reflect f := by
  have hc : (covered f).val = f.val.take 636 := by simp [covered]
  have hf : (crcField f).val = f.val.drop 636 := by
    have : (f.val.drop 636).length = 4 := by rw [List.length_drop, f.size]
    simp [crcField, ← this]
  have hv : (crc32 reflect (f.val.take 636)).toNat < 256 ^ 4 := by
    have := (crc32 reflect (f.val.take 636)).isLt
    norm_num at this ⊢; omega
  simp only [crcGood, decide_eq_true_eq, CrcMatches, hc]
  constructor
  · intro h
    rw [← hf, ← h, be32_val_eq, natOfBytes_bytesOfNat, Nat.mod_eq_of_lt hv]
  · intro h
    apply Bytes.ext
    rw [hf]
    apply natOfBytes_inj
    · rw [(be32 _).size, List.length_drop, f.size]
    · rw [be32_val_eq, natOfBytes_bytesOfNat, Nat.mod_eq_of_lt hv, h]

end Sys2Proof.Machine
end

