-- ==== Sys2Proof/Laws/State.lean ====
section
/-! SUPPORT. One lemma per field per update of the state and of the block, each true by rfl, and what completing an operation
and fetching a request do. -/

namespace Sys2Proof.Machine

/-! ## Completing an operation -/

@[simp] theorem answer_cfg (s : State) (b es r) : (s.answer b es r).cfg = s.cfg := rfl
@[simp] theorem answer_block (s : State) (b es r) : (s.answer b es r).block = b := rfl
@[simp] theorem answer_program (s : State) (b es r) : (s.answer b es r).program = s.program := rfl
@[simp] theorem answer_trace (s : State) (b es r) :
    (s.answer b es r).trace = s.trace ++ [{ events := es, result := r }] := rfl

@[simp] theorem complete_eq (s : State) (b es r) : s.complete b es r = .next (s.answer b es r) := rfl
@[simp] theorem reply_eq (s : State) (r) : s.reply r = .next (s.answer s.block [] r) := rfl
@[simp] theorem raise_eq (s : State) (b r) : s.raise b r = .next (s.answer b [] r) := rfl
@[simp] theorem describeHeader_eq (s : State) (h) :
    s.describeHeader h = .next (s.answer s.block [] (.classified (headerKind h) (headerFields h))) := rfl

/-- Completing an operation answers it, whatever the block becomes. -/
@[simp] theorem answered_answer (s : State) (b es r) : s.Answered (s.answer b es r) es r := ⟨rfl, rfl, rfl⟩

/-- Completing an operation on the block as it is reads it. -/
@[simp] theorem read_answer (s : State) (es r) : s.Read (s.answer s.block es r) es r := ⟨answered_answer .., rfl⟩

/-! ## Presenting and fetching -/

@[simp] theorem present_cfg (s : State) (r) : (s.present r).cfg = s.cfg := rfl
@[simp] theorem present_block (s : State) (r) : (s.present r).block = s.block := rfl
@[simp] theorem present_program (s : State) (r) : (s.present r).program = r :: s.program := rfl
@[simp] theorem present_trace (s : State) (r) : (s.present r).trace = s.trace := rfl

theorem fetch_nil (s : State) (h : s.program = []) : s.fetch = none := by simp [State.fetch, h]

theorem fetch_cons (s : State) (r rest) (h : s.program = r :: rest) :
    s.fetch = some (r, { s with program := rest }) := by simp [State.fetch, h]

/-- Fetching what was just presented gives the machine back. -/
@[simp] theorem fetch_present (s : State) (r) : (s.present r).fetch = some (r, s) := rfl

/-! ## The block's updates -/

@[simp] theorem rbRetireThrough_rb (a) (b : Block) : (rbRetireThrough a b).rb = retire a b.rb := rfl
@[simp] theorem rbRetireThrough_expectedSeq (a) (b : Block) : (rbRetireThrough a b).expectedSeq = b.expectedSeq := rfl
@[simp] theorem rbRetireThrough_tx (a) (b : Block) : (rbRetireThrough a b).tx = b.tx := rfl
@[simp] theorem rbRetireThrough_stats (a) (b : Block) : (rbRetireThrough a b).stats = b.stats := rfl
@[simp] theorem rbRetireThrough_cmd (a) (b : Block) : (rbRetireThrough a b).cmd = b.cmd := rfl
@[simp] theorem rbRetireThrough_arm (a) (b : Block) : (rbRetireThrough a b).arm = b.arm := rfl
@[simp] theorem rbRetireThrough_dmq (a) (b : Block) : (rbRetireThrough a b).dmq = b.dmq := rfl
@[simp] theorem rbRetireThrough_rxCrcErrors (a) (b : Block) : (rbRetireThrough a b).rxCrcErrors = b.rxCrcErrors := rfl
@[simp] theorem rbRetireThrough_replayUnknownSeq (a) (b : Block) :
    (rbRetireThrough a b).replayUnknownSeq = b.replayUnknownSeq := rfl

@[simp] theorem txStartReplay_rb (cfg) (b : Block) : (txStartReplay cfg b).rb = b.rb := rfl
@[simp] theorem txStartReplay_expectedSeq (cfg) (b : Block) : (txStartReplay cfg b).expectedSeq = b.expectedSeq := rfl
@[simp] theorem txStartReplay_tx (cfg) (b : Block) :
    (txStartReplay cfg b).tx = { b.tx with inReplay := true, firstReplay := true } := rfl
@[simp] theorem txStartReplay_stats (cfg) (b : Block) :
    (txStartReplay cfg b).stats = { b.stats with replaySequences := countUp cfg .replaySequences b.stats.replaySequences } := rfl
@[simp] theorem txStartReplay_cmd (cfg) (b : Block) : (txStartReplay cfg b).cmd = b.cmd := rfl
@[simp] theorem txStartReplay_arm (cfg) (b : Block) : (txStartReplay cfg b).arm = b.arm := rfl
@[simp] theorem txStartReplay_dmq (cfg) (b : Block) : (txStartReplay cfg b).dmq = b.dmq := rfl
@[simp] theorem txStartReplay_rxCrcErrors (cfg) (b : Block) : (txStartReplay cfg b).rxCrcErrors = b.rxCrcErrors := rfl
@[simp] theorem txStartReplay_replayUnknownSeq (cfg) (b : Block) :
    (txStartReplay cfg b).replayUnknownSeq = b.replayUnknownSeq := rfl

@[simp] theorem txFinishReplay_rb (b : Block) : (txFinishReplay b).rb = b.rb := rfl
@[simp] theorem txFinishReplay_expectedSeq (b : Block) : (txFinishReplay b).expectedSeq = b.expectedSeq := rfl
@[simp] theorem txFinishReplay_tx (b : Block) :
    (txFinishReplay b).tx = { b.tx with inReplay := false, firstReplay := false } := rfl
@[simp] theorem txFinishReplay_stats (b : Block) : (txFinishReplay b).stats = b.stats := rfl
@[simp] theorem txFinishReplay_cmd (b : Block) : (txFinishReplay b).cmd = b.cmd := rfl
@[simp] theorem txFinishReplay_arm (b : Block) : (txFinishReplay b).arm = b.arm := rfl
@[simp] theorem txFinishReplay_dmq (b : Block) : (txFinishReplay b).dmq = b.dmq := rfl
@[simp] theorem txFinishReplay_rxCrcErrors (b : Block) : (txFinishReplay b).rxCrcErrors = b.rxCrcErrors := rfl
@[simp] theorem txFinishReplay_replayUnknownSeq (b : Block) :
    (txFinishReplay b).replayUnknownSeq = b.replayUnknownSeq := rfl

/-- TX_NEXT_PAYLOAD_SEQ on the block, whole (R115). -/
theorem txNextPayloadSeq_eq (b : Block) : txNextPayloadSeq b =
    ((wrapSeq b.tx.lastSeq, !b.tx.inReplay), { b with tx := { b.tx with lastSeq := wrapSeq b.tx.lastSeq } }) := rfl

/-! ## The arbiter's queues -/

@[simp] theorem queueOf_setQueue_same (d : Dmq) (c q) : queueOf (setQueue d c q) c = q := by cases c <;> rfl

theorem queueOf_setQueue_other (d : Dmq) (c c' q) (h : c' ≠ c) : queueOf (setQueue d c q) c' = queueOf d c' := by
  cases c <;> cases c' <;> first | rfl | exact absurd rfl h

@[simp] theorem setQueue_lastServed (d : Dmq) (c q) : (setQueue d c q).lastServed = d.lastServed := by cases c <;> rfl
@[simp] theorem setQueue_lock (d : Dmq) (c q) : (setQueue d c q).uartMultiProgress = d.uartMultiProgress := by
  cases c <;> rfl
@[simp] theorem setQueue_pending (d : Dmq) (c q) : (setQueue d c q).uartPending = d.uartPending := by cases c <;> rfl

@[simp] theorem dmqEnqueue_lastServed (c p) (d : Dmq) : (dmqEnqueue c p d).lastServed = d.lastServed := by
  simp [dmqEnqueue]
@[simp] theorem dmqEnqueue_lock (c p) (d : Dmq) : (dmqEnqueue c p d).uartMultiProgress = d.uartMultiProgress := by
  simp [dmqEnqueue]
@[simp] theorem dmqEnqueue_pending (c p) (d : Dmq) : (dmqEnqueue c p d).uartPending = d.uartPending := by
  simp [dmqEnqueue]

/-! ## Several operations in a row -/

@[simp] theorem runOps_nil (s : State) : runOps [] s = .next s := rfl

theorem runOps_cons_next (i : Instr) (rest) (s t : State) (h : exec i s = .next t) :
    runOps (i :: rest) s = runOps rest t := by simp [runOps, h]

/-- A run of two lists is a run of the second from where the first ends. -/
theorem runOps_append (is js : List Instr) (s t : State) (h : runOps is s = .next t) :
    runOps (is ++ js) s = runOps js t := by
  induction is generalizing s with
  | nil => cases h; rfl
  | cons i rest ih =>
    rw [List.cons_append]
    cases hx : exec i s with
    | next u =>
      simp only [runOps, hx] at h ⊢
      exact ih u h
    | fault f => simp [runOps, hx] at h
    | refused r => simp [runOps, hx] at h

end Sys2Proof.Machine
end

