-- ==== Sys2Proof/Laws/Codec.lean ====
section
/-! SUPPORT. The flit codec: what the pack loop leaves in the payload and in the segment records, and what each slot and
segment header of a packed flit then holds (rules R80, R81, R83). -/

namespace Sys2Proof.Machine

/-- The data bytes of TL flits, one after another. -/
def dataOf (tls : List Tl) : List Byte := tls.flatMap fun t => t.data.val

@[simp] theorem dataOf_nil : dataOf [] = [] := rfl

@[simp] theorem dataOf_cons (t : Tl) (rest : List Tl) : dataOf (t :: rest) = t.data.val ++ dataOf rest := rfl

@[simp] theorem dataOf_length (tls : List Tl) : (dataOf tls).length = 64 * tls.length := by
  induction tls with
  | nil => rfl
  | cons t rest ih => simp [ih, t.data.size]; omega

/-- The payload after the loop: what was there before TL flit i, the TL flits back to back, what was there after them. -/
theorem packLoop_payload (i : Nat) (tls : List Tl) (h : i + tls.length ≤ 7) (p : Bytes 628) (sh : Fin 5 → SegFields) :
    (packLoop i tls h p sh).1.val = p.val.take (64 * i) ++ dataOf tls ++ p.val.drop (64 * (i + tls.length)) := by
  induction tls generalizing i p sh with
  | nil => simp [packLoop]
  | cons t rest ih =>
    have hp := p.size
    have ht := t.data.size
    have hl : i + 1 + rest.length ≤ 7 := by rw [List.length_cons] at h; omega
    rw [packLoop, ih, writeBytes_val, dataOf_cons, List.length_cons]
    have e1 : (p.val.take (64 * i) ++ t.data.val).length = 64 * (i + 1) := by
      rw [List.length_append, List.length_take, hp, ht]; omega
    have e2 : (p.val.take (64 * i)).length = 64 * i := by rw [List.length_take, hp]; omega
    rw [List.take_append_of_le_length (by rw [e1]), List.take_of_length_le (by rw [e1])]
    rw [List.drop_append, List.drop_eq_nil_of_le (by rw [e1]; omega), List.nil_append, e1, List.drop_drop]
    simp only [List.append_assoc]
    congr 4; omega

/-- A record with the marks of the two TL flits its segment holds, if any. -/
def segOf (t0 t1 : Option Tl) : SegFields :=
  { tlFlit1 := if t1.isSome then 1#1 else 0#1, message1 := (t1.map Tl.msg).getD 0#2,
    tlFlit0 := if t0.isSome then 1#1 else 0#1, message0 := (t0.map Tl.msg).getD 0#2, reserved := 0#1, dlAltSector := 0#1 }

/-- Where the first seven TL flits go: two to a segment, slot 0 first (R47, R81). -/
theorem place_values : place (64 * 0) = some (0, 0) ∧ place (64 * 1) = some (0, 1) ∧ place (64 * 2) = some (1, 0) ∧
    place (64 * 3) = some (1, 1) ∧ place (64 * 4) = some (2, 0) ∧ place (64 * 5) = some (2, 1) ∧
    place (64 * 6) = some (3, 0) := by decide

/-- The records after the loop: segment k is marked for TL flits 2k and 2k + 1. -/
theorem packLoop_segs (tls : List Tl) (h : 0 + tls.length ≤ 7) (p : Bytes 628) (k : Fin 5) :
    (packLoop 0 tls h p (fun _ => emptySeg)).2 k = segOf tls[2 * k.val]? tls[2 * k.val + 1]? := by
  obtain ⟨p0, p1, p2, p3, p4, p5, p6⟩ := place_values
  rcases tls with _ | ⟨a, _ | ⟨b, _ | ⟨c, _ | ⟨d, _ | ⟨e, _ | ⟨f, _ | ⟨g, _ | ⟨x, l⟩⟩⟩⟩⟩⟩⟩⟩
  all_goals first
    | (simp only [List.length_cons] at h; omega)
    | (simp only [packLoop, p0, p1, p2, p3, p4, p5, p6, markSlot]
       revert k
       simp [Fin.forall_fin_succ, segOf, emptySeg])

/-- The payload region of a packed flit: the TL flits back to back, then zeros (R80). -/
def packedPayload (tls : List Tl) : List Byte := dataOf tls ++ List.replicate (628 - 64 * tls.length) 0#8

theorem packedPayload_length (tls : List Tl) (h : tls.length ≤ 7) : (packedPayload tls).length = 628 := by
  simp [packedPayload]; omega

/-- A packed flit region by region: header, segment headers and payload, sealed with their CRC (R45, R80). -/
theorem flitPack_val (reflect : Bool) (tls : List Tl) (h : tls.length ≤ 7) (op : BitVec 3) (pb : BitVec 1) (q : Seq) :
    ∃ body : Bytes 636, flitPack reflect tls h op pb q = sealFlit reflect body ∧ body.val =
      (encExplicit op pb q).val ++
      ((List.finRange 5).map fun k => segByte (segOf tls[2 * k.val]? tls[2 * k.val + 1]?)) ++
      packedPayload tls := by
  refine ⟨_, rfl, ?_⟩
  have hp := packLoop_payload 0 tls (by omega) (zeros 628) (fun _ => emptySeg)
  have hs := packLoop_segs tls (by omega) (zeros 628)
  have hz : (packLoop 0 tls (by omega) (zeros 628) (fun _ => emptySeg)).1.val = packedPayload tls := by
    simp only [hp, packedPayload, zeros_val, Nat.mul_zero, List.take_zero, List.nil_append, List.drop_replicate, Nat.zero_add]
  have hb : (segBytes (packLoop 0 tls (by omega) (zeros 628) (fun _ => emptySeg)).2).val =
      (List.finRange 5).map fun k => segByte (segOf tls[2 * k.val]? tls[2 * k.val + 1]?) := by
    simp only [segBytes, hs]
    rfl
  simp only [joinBytes_val, hz, hb, List.append_assoc]

/-- A segment header of a packed flit reads back as the record of its two TL flits. -/
theorem segHeader_flitPack (reflect tls h op pb q) (k : Fin 5) :
    segHeader (flitPack reflect tls h op pb q) k = segOf tls[2 * k.val]? tls[2 * k.val + 1]? := by
  obtain ⟨body, hf, hb⟩ := flitPack_val reflect tls h op pb q
  have hv := sealFlit_val reflect body
  rw [hb] at hv
  have he := (encExplicit op pb q).size
  simp only [segHeader, byteAt, hf, hv]
  rw [List.getElem_append_left (by simp [he, packedPayload_length tls h]; omega),
    List.getElem_append_left (by simp [he]; omega), List.getElem_append_right (by omega)]
  simp [he]

/-- What the payload of a packed flit holds at the place of TL flit i. -/
theorem flitPack_data (reflect tls h op pb q) (i : Nat) (t : Tl) (hi : tls[i]? = some t) :
    ((flitPack reflect tls h op pb q).val.drop (8 + 64 * i)).take 64 = t.data.val := by
  obtain ⟨body, hf, hb⟩ := flitPack_val reflect tls h op pb q
  have hv := sealFlit_val reflect body
  rw [hb] at hv
  have he := (encExplicit op pb q).size
  obtain ⟨hlt, hget⟩ := List.getElem?_eq_some_iff.1 hi
  have hsplit : tls = tls.take i ++ t :: tls.drop (i + 1) := by
    rw [← hget, List.getElem_cons_drop, List.take_append_drop]
  have hd : dataOf tls = dataOf (tls.take i) ++ (t.data.val ++ dataOf (tls.drop (i + 1))) := by
    conv_lhs => rw [hsplit]
    simp [dataOf]
  have hl : (dataOf (tls.take i)).length = 64 * i := by rw [dataOf_length, List.length_take]; omega
  have ht := t.data.size
  rw [hf, hv]
  simp only [packedPayload, hd, List.append_assoc]
  rw [← List.append_assoc, ← List.append_assoc (_ ++ _)]
  rw [List.drop_left' (by simp [he, hl]; omega), List.take_left' ht]

/-- The disassembler reads back what the assembler put in, slot by slot (R81, R83). -/
theorem flitUnpack_flitPack (reflect tls h op pb q) : flitUnpack (flitPack reflect tls h op pb q) = tls := by
  have hs := segHeader_flitPack reflect tls h op pb q
  have hd := flitPack_data reflect tls h op pb q
  generalize flitPack reflect tls h op pb q = f at *
  have s0 : ∀ (k : Fin 5) (t : Tl), k.val ≤ 3 → tls[2*k.val]? = some t → slot0 f k = t.data := by
    intro k t hk ht
    apply Bytes.ext
    rw [← hd (2*k.val) t ht]
    simp only [slot0, readBytes_val]
    congr 2
    clear ht; revert hk; revert k; decide
  have s1 : ∀ (k : Fin 5) (hk : 128 ≤ segSize k) (t : Tl), k.val ≤ 2 → tls[2*k.val+1]? = some t → slot1 f k hk = t.data := by
    intro k hk t hk2 ht
    apply Bytes.ext
    rw [← hd (2*k.val+1) t ht]
    simp only [slot1, readBytes_val]
    congr 2
    revert hk2; clear ht; revert hk; revert k; decide
  simp only [flitUnpack, segments, List.flatMap_cons, List.flatMap_nil, unpackSegment, hs]
  have z0 : segSize 0 = 128 := rfl
  have z1 : segSize 1 = 128 := rfl
  have z2 : segSize 2 = 128 := rfl
  have a0 := s0 0; have a1 := s0 1; have a2 := s0 2; have a3 := s0 3
  have b0 := s1 0 (by decide); have b1 := s1 1 (by decide); have b2 := s1 2 (by decide)
  rcases tls with _ | ⟨a, _ | ⟨b, _ | ⟨c, _ | ⟨d, _ | ⟨e, _ | ⟨f, _ | ⟨g, _ | ⟨x, l⟩⟩⟩⟩⟩⟩⟩⟩
  all_goals first
    | (simp only [List.length_cons] at h; omega)
    | (simp [segOf] at a0 a1 a2 a3 b0 b1 b2 ⊢ <;> simp [*])

/-- FLIT_PACK on an admitted list. -/
theorem exec_flitPack (s : State) (tls : List Tl) (op : BitVec 3) (pb : BitVec 1) (q : Seq) (h : tls.length ≤ 7) :
    exec (.flitPack tls op pb q) s = .next (s.answer s.block []
      (.packed (flitPack s.cfg.crcReflect tls h op pb q) (BitVec.ofNat 4 tls.length))) := by
  simp only [exec, execFlitPack, dif_pos h, reply_eq]

end Sys2Proof.Machine
end

