-- ==== Sys2Proof/Laws/Decode.lean ====
section
/-! SUPPORT. What decoding says of the request it was given, and the header words with every field read back. -/

namespace Sys2Proof

/-! ## Words into rows -/

/-- The bytes of a header value decode to its row. -/
theorem decodeWire_be24 (h : BitVec 24) : decodeWire (be24 h).val = .ok (decodeHeader h) := by
  show Except.ok (decodeHeader (headerWord _ _ _)) = _
  rw [headerWord_be24]

/-- The bytes of a 32-bit value decode as a DWord. -/
theorem decodeWire_be32 (v : BitVec 32) : decodeWire (be32 v).val = decodeDword v := by
  show decodeDword (u32be _ _ _ _) = _
  rw [u32be_be32]

/-- The fields a command reader sees in an explicit header: only `op` and `payload_bit` matter to the path (R50). -/
@[simp] theorem decCommand_explicitWord_op (op pb ra q rb) : (decCommand (explicitWord op pb ra q rb)).op = op := by
  simp [decCommand]

@[simp] theorem decCommand_explicitWord_payloadBit (op pb ra q rb) :
    (decCommand (explicitWord op pb ra q rb)).payloadBit = pb := by simp [decCommand]

/-- `op`, `payload_bit` and the 20 other bits of an unassigned command word. -/
@[simp] theorem unassigned_op (op : BitVec 3) (rest : BitVec 20) :
    (op ++ 0#1 ++ rest : BitVec (3 + 1 + 20)).extractLsb' 21 3 = op := by
  rw [extract_append_left _ _ _ _ (by decide), extract_append_left _ _ _ _ (by decide), extract_all]

@[simp] theorem unassigned_payloadBit (op : BitVec 3) (rest : BitVec 20) :
    (op ++ 0#1 ++ rest : BitVec (3 + 1 + 20)).extractLsb' 20 1 = 0#1 := by
  rw [extract_append_left _ _ _ _ (by decide), extract_append_right _ _ _ _ (by decide), extract_all]

@[simp] theorem unassigned_rest (op : BitVec 3) (rest : BitVec 20) :
    (op ++ 0#1 ++ rest : BitVec (3 + 1 + 20)).extractLsb' 0 20 = rest := by
  rw [extract_append_right _ _ _ _ (by decide), extract_all]

/-- Every header value is the explicit word of its own fields: no bit is dropped. -/
theorem explicitWord_fields (h : BitVec 24) :
    explicitWord (h.extractLsb' 21 3) (h.extractLsb' 20 1) (h.extractLsb' 17 3) (h.extractLsb' 8 9) (h.extractLsb' 0 8)
      = h := by
  unfold explicitWord
  rw [extract_join h 20 3 1, extract_join h 17 4 3, extract_join h 8 7 9, extract_join h 0 16 8, extract_all]

/-- Every header value is the command word of its own fields. -/
theorem commandWord_fields (h : BitVec 24) :
    commandWord (h.extractLsb' 21 3) (h.extractLsb' 20 1) (h.extractLsb' 11 9) (h.extractLsb' 8 3) (h.extractLsb' 0 8)
      = h := by
  unfold commandWord
  rw [extract_join h 20 3 1, extract_join h 11 4 9, extract_join h 8 13 3, extract_join h 0 16 8, extract_all]

/-- Every header value is its `op`, its `payload_bit` and the 20 other bits. -/
theorem unassigned_fields (h : BitVec 24) :
    (h.extractLsb' 21 3 ++ h.extractLsb' 20 1 ++ h.extractLsb' 0 20 : BitVec (3 + 1 + 20)) = h := by
  rw [extract_join h 20 3 1, extract_join h 0 4 20, extract_all]

/-- Every DWord is the word of its own fields. -/
theorem dwordWord_fields (w : DWord) (h : w.extractLsb' 0 1 = 0#1) :
    dwordWord (w.extractLsb' 9 23) (w.extractLsb' 6 3) (w.extractLsb' 2 4) (w.extractLsb' 1 1) = w := by
  unfold dwordWord
  rw [← h, extract_join w 6 23 3, extract_join w 2 26 4, extract_join w 1 30 1, extract_join w 0 31 1, extract_all]

/-- A bit that is not 1 is 0, and one that is not 0 is 1. -/
theorem bit_eq_one {b : BitVec 1} (h : b ≠ 0#1) : b = 1#1 := by revert h; revert b; decide

theorem bit_eq_zero {b : BitVec 1} (h : b ≠ 1#1) : b = 0#1 := by revert h; revert b; decide

/-! ## Operands -/

theorem tlsOf_ok {op : OpName} {l : List (List Byte × Nat)} {v : List Tl} (h : tlsOf op l = .ok v) :
    v.map tlOperand = l := by
  induction l generalizing v with
  | nil => cases h; rfl
  | cons x rest ih =>
    obtain ⟨d, m⟩ := x
    simp only [tlsOf, bind, Except.bind] at h
    split at h
    · cases h
    next a ha =>
    split at h
    · cases h
    next b hb =>
    split at h
    · cases h
    next c hc =>
    cases h
    simp [ih hc, tlOperand, bytesOf_ok ha, fieldOf_ok hb]

theorem dwordsOf_ok {l : List Nat} {v : List DWord} (h : dwordsOf l = .ok v) : v.map BitVec.toNat = l := by
  induction l generalizing v with
  | nil => cases h; rfl
  | cons x rest ih =>
    simp only [dwordsOf, bind, Except.bind] at h
    split at h
    · cases h
    next a ha =>
    split at h
    · cases h
    next b hb =>
    cases h
    simp [ih hb, fieldOf_ok ha]

theorem oneSeq_ok {op : OpName} {mk : Seq → Instr} {ops : List Operand} {i : Instr} (h : oneSeq op mk ops = .ok i) :
    ∃ q : Seq, i = mk q ∧ ops = [.num q.toNat] := by
  unfold oneSeq at h
  split at h
  · next n =>
    cases hf : fieldOf .sequence 9 n with
    | error e => rw [hf] at h; cases h
    | ok q => rw [hf] at h; cases h; exact ⟨q, rfl, by rw [fieldOf_ok hf]⟩
  · cases h

theorem oneFlit_ok {op : OpName} {mk : Flit → Instr} {ops : List Operand} {i : Instr} (h : oneFlit op mk ops = .ok i) :
    ∃ f : Flit, i = mk f ∧ ops = [.bytes f.val] := by
  unfold oneFlit at h
  split at h
  · next b =>
    cases hf : bytesOf op 640 b with
    | error e => rw [hf] at h; cases h
    | ok f => rw [hf] at h; cases h; exact ⟨f, rfl, by rw [bytesOf_ok hf]⟩
  · cases h

theorem noOperands_ok {op : OpName} {j i : Instr} {ops : List Operand} (h : noOperands op j ops = .ok i) :
    i = j ∧ ops = [] := by
  unfold noOperands at h
  split at h
  · cases h; exact ⟨rfl, rfl⟩
  · cases h

end Sys2Proof
end

