-- ==== Sys2Proof/Laws/Ops.lean ====
section
/-! SUPPORT. One lemma for each shared operation that says once everything it can do; the provers cite these instead of
unfolding the operations. -/

namespace Sys2Proof.Machine

/-! ## Sequence arithmetic (R95, R96) -/

theorem wrapSeq_toNat (x : Seq) : (wrapSeq x).toNat = nextSeqNo x.toNat := by
  have hx := x.isLt
  unfold wrapSeq nextSeqNo
  by_cases h : x = 511#9
  · subst h; rfl
  · have hn : x.toNat ≠ 511 := fun e => h (BitVec.eq_of_toNat_eq e)
    rw [if_neg h, if_neg hn, BitVec.toNat_add]
    have : (1#9).toNat = 1 := rfl
    rw [this]; omega

theorem wrapSeq_ne_zero (x : Seq) : wrapSeq x ≠ 0#9 := by
  intro h
  have := congrArg BitVec.toNat h
  rw [wrapSeq_toNat] at this
  unfold nextSeqNo at this
  have h0 : (0#9).toNat = 0 := rfl
  split at this <;> omega

theorem wrapSeq_eq_ofNat (x : Seq) : wrapSeq x = BitVec.ofNat 9 (nextSeqNo x.toNat) := by
  apply BitVec.eq_of_toNat_eq
  have := (wrapSeq x).isLt
  rw [wrapSeq_toNat] at this ⊢
  rw [BitVec.toNat_ofNat, Nat.mod_eq_of_lt this]

/-- The distance of R96 over the integers. -/
theorem fwd_eq_distance (a b : Seq) : (fwd a b : Int) = distance a b := by
  have ha := a.isLt
  have hb := b.isLt
  unfold fwd distance
  omega

theorem fwd_le (a b : Seq) : fwd a b ≤ 510 := by unfold fwd; omega

/-- In the ring, where the successor is one more modulo 511. -/
theorem wrapSeq_mod (x : Seq) : (wrapSeq x).toNat % 511 = (x.toNat + 1) % 511 := by
  rw [wrapSeq_toNat]; unfold nextSeqNo
  split <;> omega

theorem wrapSeq_iterate_mod (n : Nat) (x : Seq) : (wrapSeq^[n] x).toNat % 511 = (x.toNat + n) % 511 := by
  induction n generalizing x with
  | zero => simp
  | succ n ih =>
    rw [Function.iterate_succ_apply, ih, Nat.add_mod, wrapSeq_mod]
    omega

theorem wrapSeq_iterate_ne_zero (n : Nat) (x : Seq) (h : x ≠ 0#9) : wrapSeq^[n] x ≠ 0#9 := by
  cases n with
  | zero => exact h
  | succ n => rw [Function.iterate_succ_apply']; exact wrapSeq_ne_zero _

/-- Nonzero numbers that agree modulo 511 are equal. -/
theorem seq_eq_of_mod {a b : Seq} (ha : a ≠ 0#9) (hb : b ≠ 0#9) (h : a.toNat % 511 = b.toNat % 511) : a = b := by
  have la := a.isLt
  have lb := b.isLt
  have na : a.toNat ≠ 0 := fun e => ha (BitVec.eq_of_toNat_eq e)
  have nb : b.toNat ≠ 0 := fun e => hb (BitVec.eq_of_toNat_eq e)
  apply BitVec.eq_of_toNat_eq
  omega

/-- From a number to its n-th successor the distance is n modulo 511. -/
theorem fwd_iterate (n : Nat) (x : Seq) : fwd (wrapSeq^[n] x) x = n % 511 := by
  have h := wrapSeq_iterate_mod n x
  have := x.isLt
  unfold fwd
  omega

@[simp] theorem ringFrom_length (a : Seq) (n : Nat) : (ringFrom a n).length = n := by
  induction n generalizing a with
  | zero => rfl
  | succ n ih => simp [ringFrom, ih]

theorem ringFrom_getElem? (a : Seq) (n i : Nat) (h : i < n) : (ringFrom a n)[i]? = some (wrapSeq^[i] a) := by
  induction n generalizing a i with
  | zero => omega
  | succ n ih =>
    cases i with
    | zero => rfl
    | succ i => simp only [ringFrom, List.getElem?_cons_succ, Function.iterate_succ_apply]; exact ih _ _ (by omega)

/-! ## Classification (R106, R107, R110) -/

theorem isExpected_iff (e q : Seq) : isExpected e q = true ↔ q = e := by simp [isExpected]

theorem isDuplicate_iff (e q : Seq) : isDuplicate e q = true ↔ 1 ≤ distance e q ∧ distance e q ≤ 255 := by
  rw [← fwd_eq_distance]
  unfold isDuplicate dupWindow
  rw [Bool.and_eq_true, decide_eq_true_eq, decide_eq_true_eq]
  omega

theorem classify_expected_iff (e q : Seq) : classify e q = .expected ↔ q = e := by
  unfold classify
  split
  · next h => simp [(isExpected_iff e q).1 h]
  · next h =>
    have : q ≠ e := fun x => h ((isExpected_iff e q).2 x)
    split <;> simp [this]

theorem not_expected_and_duplicate (e q : Seq) : ¬ (isExpected e q = true ∧ isDuplicate e q = true) := by
  rintro ⟨h, d⟩
  rw [isExpected_iff] at h
  rw [isDuplicate_iff] at d
  subst h
  simp [distance] at d

theorem classify_duplicate_iff (e q : Seq) : classify e q = .duplicate ↔ isDuplicate e q = true := by
  unfold classify
  split
  · next h =>
    have := not_expected_and_duplicate e q
    constructor
    · intro x; cases x
    · intro d; exact absurd ⟨h, d⟩ this
  · split <;> simp_all

/-! ## Replay buffer (R98, R99, R104) -/

/-- RB_ADD: it appends and answers true, or the buffer is full and it changes nothing. -/
theorem rbAdd_cases (q : Seq) (f : Flit) (b : Block) :
    (b.rb.length = 512 ∧ rbAdd q f b = (false, b)) ∨
    (b.rb.length ≠ 512 ∧ rbAdd q f b = (true, { b with rb := b.rb ++ [{ seq := q, flit := f }] })) := by
  by_cases h : b.rb.length = 512
  · exact .inl ⟨h, by simp [rbAdd, rbCapacity, h]⟩
  · exact .inr ⟨h, by simp [rbAdd, rbCapacity, h]⟩

theorem seqLeq_iff (q a : Seq) : seqLeq q a = true ↔ distance a q < 255 := by
  rw [← fwd_eq_distance]
  unfold seqLeq retireWindow
  rw [decide_eq_true_eq]
  omega

/-- RB_RETIRE_THROUGH: entries leave from the head, and why the loop stops. -/
theorem retire_cases (a : Seq) (l : List Entry) :
    ∃ j, j ≤ l.length ∧ retire a l = l.drop j ∧
      (∀ n e, n < j → l[n]? = some e → seqLeq e.seq a = true) ∧
      (∀ n e, n + 1 < j → l[n]? = some e → e.seq ≠ a) ∧
      (∀ e, l[j]? = some e → seqLeq e.seq a = false ∨ ∃ e', 0 < j ∧ l[j - 1]? = some e' ∧ e'.seq = a) := by
  induction l with
  | nil => exact ⟨0, by simp [retire]⟩
  | cons x rest ih =>
    obtain ⟨j, hj, hd, h1, h2, h3⟩ := ih
    by_cases hx : seqLeq x.seq a = true
    · by_cases ha : x.seq = a
      · refine ⟨1, by simp, by rw [retire, if_pos hx, if_pos ha]; rfl, ?_, ?_, ?_⟩
        · intro n e hn he
          obtain rfl : n = 0 := by omega
          simp at he; rw [← he]; exact hx
        · intro n e hn; omega
        · intro e _; exact .inr ⟨x, by omega, rfl, ha⟩
      · refine ⟨j + 1, by simpa using hj, by simp [retire, hx, ha, hd], ?_, ?_, ?_⟩
        · intro n e hn he
          cases n with
          | zero => simp at he; rw [← he]; exact hx
          | succ n => exact h1 n e (by omega) (by simpa using he)
        · intro n e hn he
          cases n with
          | zero => simp at he; rw [← he]; exact ha
          | succ n => exact h2 n e (by omega) (by simpa using he)
        · intro e he
          rcases h3 e (by simpa using he) with h | ⟨e', hp, he', hs⟩
          · exact .inl h
          · refine .inr ⟨e', by omega, ?_, hs⟩
            obtain ⟨k, rfl⟩ : ∃ k, j = k + 1 := ⟨j - 1, by omega⟩
            simpa using he'
    · refine ⟨0, by omega, by simp [retire, hx], by intro n e hn; omega, by intro n e hn; omega, ?_⟩
      intro e he
      simp at he
      exact .inl (by rw [← he]; simpa using hx)

/-- What is left was there. -/
theorem mem_retire {a : Seq} {l : List Entry} {e : Entry} (h : e ∈ retire a l) : e ∈ l := by
  obtain ⟨j, -, hd, -⟩ := retire_cases a l
  exact List.mem_of_mem_drop (hd ▸ h)

theorem retire_length_le (a : Seq) (l : List Entry) : (retire a l).length ≤ l.length := by
  obtain ⟨j, -, hd, -⟩ := retire_cases a l
  rw [hd, List.length_drop]; omega

/-- RB_REPLAY_ITER: no entry has the number, or the view starts at the oldest that has. -/
theorem rbReplayIter_cases (r : Seq) (b : Block) :
    (rbReplayIter r b = [] ∧ ∀ e ∈ b.rb, e.seq ≠ r) ∨
    (∃ j e, b.rb[j]? = some e ∧ e.seq = r ∧ rbReplayIter r b = b.rb.drop j ∧
      ∀ n e', n < j → b.rb[n]? = some e' → e'.seq ≠ r) := by
  unfold rbReplayIter
  induction b.rb with
  | nil => exact .inl (by simp)
  | cons x rest ih =>
    by_cases hx : x.seq = r
    · exact .inr ⟨0, x, rfl, hx, by simp [hx], by intro n e hn; omega⟩
    · rcases ih with ⟨h, hn⟩ | ⟨j, e, he, hs, hd, hb⟩
      · exact .inl ⟨by simpa [hx] using h, by simpa [hx] using hn⟩
      · refine .inr ⟨j + 1, e, by simpa using he, hs, by simpa [hx] using hd, ?_⟩
        intro n e' hn' he'
        cases n with
        | zero => simp at he'; rw [← he']; exact hx
        | succ n => exact hb n e' (by omega) (by simpa using he')

/-! ## A statistic one further (R17, R18, R21) -/

/-- `countUp`: one more, or past the top of a finite counter something its width holds. -/
theorem countUp_counted (cfg : Config) (c : Counter) (n : Nat) : Counted cfg.statWidth n (countUp cfg c n) := by
  unfold Counted countUp
  cases cfg.statWidth with
  | none => rfl
  | some w =>
    have := (Config.counterAtTop c w).isLt
    dsimp only
    split <;> simp_all

/-- `countUp` at the default of STAT_WIDTH. -/
theorem countUp_unbounded (cfg : Config) (c : Counter) (n : Nat) (h : cfg.statWidth = none) :
    countUp cfg c n = n + 1 := by simp [countUp, h]

/-! ## The tick (R119) -/

/-- TX_TICK_EXPLICIT_COUNT: after entering replay, on the last count, before it, or on the count no legal state has. -/
theorem tick_cases (t : Tx) :
    (t.firstReplay = true ∧ tick t = .ok (true, { t with firstReplay := false, explicitCount := 31#5 })) ∨
    (t.firstReplay = false ∧ t.explicitCount.toNat = 1 ∧ tick t = .ok (true, { t with explicitCount := 31#5 })) ∨
    (t.firstReplay = false ∧ 2 ≤ t.explicitCount.toNat ∧
      tick t = .ok (false, { t with explicitCount := BitVec.ofNat 5 (t.explicitCount.toNat - 1) })) ∨
    (t.firstReplay = false ∧ t.explicitCount.toNat = 0 ∧ tick t = .error .explicitCountZero) := by
  have hl := t.explicitCount.isLt
  cases hf : t.firstReplay with
  | true => exact .inl ⟨rfl, by simp [tick, hf, explicitCountInit]⟩
  | false =>
    refine .inr ?_
    by_cases h0 : t.explicitCount = 0#5
    · exact .inr (.inr ⟨rfl, by rw [h0]; rfl, by simp [tick, hf, h0]⟩)
    · have n0 : t.explicitCount.toNat ≠ 0 := fun e => h0 (BitVec.eq_of_toNat_eq e)
      have hm : t.explicitCount - 1#5 = BitVec.ofNat 5 (t.explicitCount.toNat - 1) := by
        apply BitVec.eq_of_toNat_eq
        rw [BitVec.toNat_sub, BitVec.toNat_ofNat]
        simp only [BitVec.toNat_ofNat]
        omega
      by_cases h1 : t.explicitCount.toNat = 1
      · refine .inl ⟨rfl, h1, ?_⟩
        have : t.explicitCount - 1#5 = 0#5 := by rw [hm, h1]
        simp [tick, hf, explicitCountInit, h0, this]
      · refine .inr (.inl ⟨rfl, by omega, ?_⟩)
        have : t.explicitCount - 1#5 ≠ 0#5 := by
          rw [hm]; intro e
          have := congrArg BitVec.toNat e
          simp only [BitVec.toNat_ofNat] at this
          omega
        simp [tick, hf, h0, this, ← hm]

/-- Where the count is legal the tick completes, and leaves it legal. -/
theorem tick_ok (t : Tx) (h : t.explicitCount ≠ 0#5) :
    ∃ opp t', tick t = .ok (opp, t') ∧ t'.lastSeq = t.lastSeq ∧ t'.inReplay = t.inReplay ∧ t'.firstReplay = false ∧
      t'.explicitCount ≠ 0#5 := by
  have hn : t.explicitCount.toNat ≠ 0 := fun e => h (BitVec.eq_of_toNat_eq e)
  have hl := t.explicitCount.isLt
  rcases tick_cases t with ⟨-, e⟩ | ⟨hf, -, e⟩ | ⟨hf, h2, e⟩ | ⟨-, h0, -⟩
  · exact ⟨_, _, e, rfl, rfl, rfl, by simp⟩
  · exact ⟨_, _, e, rfl, rfl, hf, by simp⟩
  · refine ⟨_, _, e, rfl, rfl, hf, ?_⟩
    intro z
    have := congrArg BitVec.toNat z
    have h0 : (0#5).toNat = 0 := rfl
    simp only [BitVec.toNat_ofNat, h0] at this
    omega
  · exact absurd h0 hn

/-! ## Command processor and Ack manager (R130, R133) -/

/-- CMD_PROCESS, all its outcomes in the order of its tests. -/
theorem cmdProcess_cases (cfg : Config) (f : Flit) (b : Block) :
    ((decCommand (flitHeader f)).payloadBit ≠ 0#1 ∧ cmdProcess cfg f b = (false, [], b)) ∨
    ((decCommand (flitHeader f)).payloadBit = 0#1 ∧ crcGood cfg.crcReflect f = false ∧
      cmdProcess cfg f b = (true, [], b)) ∨
    ((decCommand (flitHeader f)).payloadBit = 0#1 ∧ crcGood cfg.crcReflect f = true ∧ (decCommand (flitHeader f)).op = opAck ∧
      cmdProcess cfg f b = (true, [.ackEvent (decCommand (flitHeader f)).ackReqSeq],
        { b with cmd := { b.cmd with acksReceived := countUp cfg .acksReceived b.cmd.acksReceived } })) ∨
    ((decCommand (flitHeader f)).payloadBit = 0#1 ∧ crcGood cfg.crcReflect f = true ∧
      (decCommand (flitHeader f)).op = opReplayReq ∧
      cmdProcess cfg f b = (true, [.replayRequestEvent (decCommand (flitHeader f)).ackReqSeq],
        { b with cmd := { b.cmd with replayRequestsReceived := countUp cfg .replayRequestsReceived b.cmd.replayRequestsReceived } })) ∨
    ((decCommand (flitHeader f)).payloadBit = 0#1 ∧ crcGood cfg.crcReflect f = true ∧
      (decCommand (flitHeader f)).op ≠ opAck ∧ (decCommand (flitHeader f)).op ≠ opReplayReq ∧
      cmdProcess cfg f b = (false, [], b)) := by
  by_cases hp : (decCommand (flitHeader f)).payloadBit = 0#1
  · refine .inr ?_
    cases hc : crcGood cfg.crcReflect f with
    | false => exact .inl ⟨hp, rfl, by simp [cmdProcess, hp, hc]⟩
    | true =>
      refine .inr ?_
      by_cases ha : (decCommand (flitHeader f)).op = opAck
      · exact .inl ⟨hp, rfl, ha, by simp [cmdProcess, hp, hc, ha]⟩
      · by_cases hr : (decCommand (flitHeader f)).op = opReplayReq
        · have : opReplayReq ≠ opAck := by decide
          exact .inr (.inl ⟨hp, rfl, hr, by simp [cmdProcess, hp, hc, hr, this]⟩)
        · exact .inr (.inr ⟨hp, rfl, ha, hr, by simp [cmdProcess, hp, hc, ha, hr]⟩)
  · exact .inl ⟨hp, by simp [cmdProcess, hp]⟩

theorem ackDue_iff (n k : Nat) : ackDue n k = true ↔ n = 0 ∨ n ≤ k := by simp [ackDue]

/-- ARM_PROCESS_RECEIVED: an expected arrival acknowledged, one batched, a duplicate, a gap. -/
theorem armProcessReceived_cases (cfg : Config) (q : Seq) (lo : BitVec 3) (b : Block) :
    (classify b.expectedSeq q = .expected ∧ ackDue cfg.ackEveryN (b.arm.flitsSinceAck + 1) = true ∧
      armProcessReceived cfg q lo b = (some (cmdFlit cfg.crcReflect opAck q lo),
        { b with expectedSeq := wrapSeq b.expectedSeq, arm := { flitsSinceAck := 0 } })) ∨
    (classify b.expectedSeq q = .expected ∧ ackDue cfg.ackEveryN (b.arm.flitsSinceAck + 1) = false ∧
      armProcessReceived cfg q lo b = (none,
        { b with expectedSeq := wrapSeq b.expectedSeq, arm := { flitsSinceAck := b.arm.flitsSinceAck + 1 } })) ∨
    (classify b.expectedSeq q = .duplicate ∧ armProcessReceived cfg q lo b = (none, b)) ∨
    (classify b.expectedSeq q = .gap ∧
      armProcessReceived cfg q lo b = (some (cmdFlit cfg.crcReflect opReplayReq b.expectedSeq lo), b)) := by
  cases hc : classify b.expectedSeq q with
  | expected =>
    cases hd : ackDue cfg.ackEveryN (b.arm.flitsSinceAck + 1) with
    | true => exact .inl ⟨rfl, rfl, by simp [armProcessReceived, hc, hd]⟩
    | false => exact .inr (.inl ⟨rfl, rfl, by simp [armProcessReceived, hc, hd]⟩)
  | duplicate => exact .inr (.inr (.inl ⟨rfl, by simp [armProcessReceived, hc]⟩))
  | gap => exact .inr (.inr (.inr ⟨rfl, by simp [armProcessReceived, hc]⟩))

/-! ## Composites (R139, R141, R142) -/

/-- EP_REPLAY_FROM: an unknown number is counted; otherwise the view is transmitted. -/
theorem epReplayFrom_cases (cfg : Config) (r : Seq) (b : Block) :
    (rbReplayIter r b = [] ∧ epReplayFrom cfg r b = (0, [], { b with replayUnknownSeq := countUp cfg .replayUnknownSeq b.replayUnknownSeq })) ∨
    (rbReplayIter r b ≠ [] ∧ epReplayFrom cfg r b =
      ((rbReplayIter r b).length, (rbReplayIter r b).map fun e => .transmit e.flit, txFinishReplay (txStartReplay cfg b))) := by
  by_cases h : rbReplayIter r b = []
  · exact .inl ⟨h, by simp [epReplayFrom, h]⟩
  · exact .inr ⟨h, by simp [epReplayFrom, h]⟩

/-- EP_REPLAY_FROM neither reads nor writes the command counters. -/
theorem epReplayFrom_cmd (cfg : Config) (r : Seq) (b : Block) (c : Cmd) :
    epReplayFrom cfg r { b with cmd := c } =
      ((epReplayFrom cfg r b).1, (epReplayFrom cfg r b).2.1, { (epReplayFrom cfg r b).2.2 with cmd := c }) := by
  by_cases h : rbReplayIter r b = []
  · simp [epReplayFrom, h, show rbReplayIter r { b with cmd := c } = [] from h]
  · simp [epReplayFrom, h, show rbReplayIter r { b with cmd := c } = rbReplayIter r b from rfl]
    rfl

@[simp] theorem handleEvents_nil (cfg : Config) (b : Block) : handleEvents cfg [] b = ([], b) := rfl

@[simp] theorem handleEvents_ack (cfg : Config) (a : Seq) (b : Block) :
    handleEvents cfg [.ackEvent a] b = ([.ackEvent a], rbRetireThrough a b) := by
  simp [handleEvents, handleEvent]

@[simp] theorem handleEvents_replayRequest (cfg : Config) (r : Seq) (b : Block) :
    handleEvents cfg [.replayRequestEvent r] b =
      (.replayRequestEvent r :: (epReplayFrom cfg r b).2.1, (epReplayFrom cfg r b).2.2) := by
  simp [handleEvents, handleEvent]

/-- EP_RECEIVE_FLIT: swallowed as a bad command, an Ack, a Replay Request, a payload with a bad CRC, or a payload. -/
theorem epReceiveFlit_cases (cfg : Config) (f : Flit) (b : Block) :
    ((decCommand (flitHeader f)).payloadBit = 0#1 ∧ crcGood cfg.crcReflect f = false ∧
      epReceiveFlit cfg f b = (.command, [], b)) ∨
    ((decCommand (flitHeader f)).payloadBit = 0#1 ∧ crcGood cfg.crcReflect f = true ∧
      (decCommand (flitHeader f)).op = opAck ∧
      epReceiveFlit cfg f b = (.command, [.ackEvent (decCommand (flitHeader f)).ackReqSeq],
        rbRetireThrough (decCommand (flitHeader f)).ackReqSeq
          { b with cmd := { b.cmd with acksReceived := countUp cfg .acksReceived b.cmd.acksReceived } })) ∨
    ((decCommand (flitHeader f)).payloadBit = 0#1 ∧ crcGood cfg.crcReflect f = true ∧
      (decCommand (flitHeader f)).op = opReplayReq ∧
      epReceiveFlit cfg f b = (.command,
        .replayRequestEvent (decCommand (flitHeader f)).ackReqSeq ::
          (epReplayFrom cfg (decCommand (flitHeader f)).ackReqSeq
            { b with cmd := { b.cmd with replayRequestsReceived := countUp cfg .replayRequestsReceived b.cmd.replayRequestsReceived } }).2.1,
        (epReplayFrom cfg (decCommand (flitHeader f)).ackReqSeq
          { b with cmd := { b.cmd with replayRequestsReceived := countUp cfg .replayRequestsReceived b.cmd.replayRequestsReceived } }).2.2)) ∨
    ((decCommand (flitHeader f)).payloadBit ≠ 0#1 ∧ crcGood cfg.crcReflect f = false ∧
      epReceiveFlit cfg f b = (.crcError, [], { b with rxCrcErrors := countUp cfg .rxCrcErrors b.rxCrcErrors })) ∨
    (((decCommand (flitHeader f)).payloadBit ≠ 0#1 ∨
        ((decCommand (flitHeader f)).op ≠ opAck ∧ (decCommand (flitHeader f)).op ≠ opReplayReq)) ∧
      crcGood cfg.crcReflect f = true ∧ epReceiveFlit cfg f b = receivePayload cfg f (flitUnpack f) b) := by
  rcases cmdProcess_cases cfg f b with ⟨hp, e⟩ | ⟨hp, hc, e⟩ | ⟨hp, hc, ho, e⟩ | ⟨hp, hc, ho, e⟩ | ⟨hp, hc, h2, h3, e⟩
  · cases hc : crcGood cfg.crcReflect f with
    | false => exact .inr (.inr (.inr (.inl ⟨hp, rfl, by simp [epReceiveFlit, e, flitUnpackChecked, hc]⟩)))
    | true => exact .inr (.inr (.inr (.inr ⟨.inl hp, rfl, by simp [epReceiveFlit, e, flitUnpackChecked, hc]⟩)))
  · exact .inl ⟨hp, hc, by simp [epReceiveFlit, e]⟩
  · exact .inr (.inl ⟨hp, hc, ho, by simp [epReceiveFlit, e]⟩)
  · exact .inr (.inr (.inl ⟨hp, hc, ho, by simp [epReceiveFlit, e]⟩))
  · exact .inr (.inr (.inr (.inr ⟨.inr ⟨h2, h3⟩, hc, by simp [epReceiveFlit, e, flitUnpackChecked, hc]⟩)))

/-- EP_SEND_PAYLOAD: full, sent, or the tick's fault. -/
theorem epSendPayload_cases (reflect : Bool) (tls : List Tl) (h : tls.length ≤ 7) (b : Block) :
    (b.rb.length = 512 ∧ epSendPayload reflect tls h b = .ok (.replayBufferFull, [], b)) ∨
    (b.rb.length ≠ 512 ∧ ∃ f, f = flitPack reflect tls h 0b000#3 1#1 (wrapSeq b.tx.lastSeq) ∧
      ((∃ opp t', tick { b.tx with lastSeq := wrapSeq b.tx.lastSeq } = .ok (opp, t') ∧
        epSendPayload reflect tls h b = .ok (.sent (wrapSeq b.tx.lastSeq) opp, [.transmit f],
          { b with
            rb := if b.tx.inReplay then b.rb else b.rb ++ [{ seq := wrapSeq b.tx.lastSeq, flit := f }],
            tx := t' })) ∨
      (∃ e, tick { b.tx with lastSeq := wrapSeq b.tx.lastSeq } = .error e ∧
        epSendPayload reflect tls h b = .error e))) := by
  by_cases hb : b.rb.length = 512
  · exact .inl ⟨hb, by simp [epSendPayload, rbCapacity, hb]⟩
  · refine .inr ⟨hb, _, rfl, ?_⟩
    cases ht : tick { b.tx with lastSeq := wrapSeq b.tx.lastSeq } with
    | error e =>
      refine .inr ⟨e, rfl, ?_⟩
      dsimp only at ht
      cases hr : b.tx.inReplay <;> rw [hr] at ht <;>
        simp only [epSendPayload, rbCapacity, hb, txNextPayloadSeq, txTick, rbAdd, hr, if_false, Bool.not_false,
          Bool.not_true, if_true, Bool.false_eq_true, ht] <;> rfl
    | ok r =>
      refine .inl ⟨r.1, r.2, rfl, ?_⟩
      dsimp only at ht
      cases hr : b.tx.inReplay <;> rw [hr] at ht <;>
        simp only [epSendPayload, rbCapacity, hb, txNextPayloadSeq, txTick, rbAdd, hr, if_false, Bool.not_false,
          Bool.not_true, if_true, Bool.false_eq_true, ht] <;> rfl

/-! ## Arbiter (R150, R151) -/

/-- The room of a FIFO: unbounded, or below the depth. -/
theorem fifoHasRoom_iff (cfg : Config) (d : Dmq) (c : DlClass) :
    fifoHasRoom cfg d c = true ↔ ∀ depth, cfg.arbFifoDepth = some depth → (queueOf d c).length < depth := by
  unfold fifoHasRoom
  cases cfg.arbFifoDepth <;> simp

/-- DMQ_ENQUEUE: an inadmissible packet, a full finite FIFO, or the packet at the back of its FIFO. -/
theorem execDmqEnqueue_cases (c : DlClass) (dws : List DWord) (s : State) :
    (packetAdmitted c dws = false ∧ execDmqEnqueue c dws s = .refused (.illegalPacket c dws.length)) ∨
    (packetAdmitted c dws = true ∧ fifoHasRoom s.cfg s.block.dmq c = false ∧
      execDmqEnqueue c dws s = .refused (.arbFifoFull c)) ∨
    (∃ first rest, dws = first :: rest ∧ packetAdmitted c dws = true ∧ fifoHasRoom s.cfg s.block.dmq c = true ∧
      execDmqEnqueue c dws s =
        .next (s.answer { s.block with dmq := dmqEnqueue c { first := first, rest := rest } s.block.dmq } [] .none)) := by
  cases dws with
  | nil => exact .inl ⟨rfl, rfl⟩
  | cons first rest =>
    cases ha : packetAdmitted c (first :: rest) with
    | false => exact .inl ⟨rfl, by simp [execDmqEnqueue, ha]⟩
    | true =>
      cases hr : fifoHasRoom s.cfg s.block.dmq c with
      | false => exact .inr (.inl ⟨rfl, rfl, by simp [execDmqEnqueue, ha, hr]⟩)
      | true => exact .inr (.inr ⟨first, rest, rfl, rfl, rfl, by simp [execDmqEnqueue, ha, hr]⟩)

/-- The round robin: every class of the scan is empty, or the first that is not is served. -/
theorem roundRobin_cases (order : List DlClass) (d : Dmq) :
    ((∀ c ∈ order, queueOf d c = []) ∧ roundRobin order d = (none, d)) ∨
    (∃ before c after p others, order = before ++ c :: after ∧ (∀ c' ∈ before, queueOf d c' = []) ∧
      queueOf d c = p :: others ∧
      roundRobin order d = (some (servePacket d c p others).1, (servePacket d c p others).2)) := by
  induction order with
  | nil => exact .inl ⟨by simp, rfl⟩
  | cons c cs ih =>
    cases hq : queueOf d c with
    | nil =>
      rcases ih with ⟨h, e⟩ | ⟨before, c', after, p, others, ho, hb, hc, e⟩
      · exact .inl ⟨by simpa [hq] using h, by simp [roundRobin, hq, e]⟩
      · exact .inr ⟨c :: before, c', after, p, others, by simp [ho], by simpa [hq] using hb, hc,
          by simp [roundRobin, hq, e]⟩
    | cons p others =>
      exact .inr ⟨[], c, cs, p, others, rfl, by simp, hq, by simp [roundRobin, hq]⟩

/-- Every class is in every scan (R152: all three are always tried). -/
theorem mem_scanOrder (rr : RrFirst) (o : Option DlClass) (c : DlClass) : c ∈ scanOrder rr o := by
  cases rr <;> rcases o with _ | _ | _ | _ <;> cases c <;> decide

/-- DMQ_POP_NEXT_DWORD: the lock, the lock without anything pending, or the round robin. -/
theorem dmqPop_cases (rr : RrFirst) (d : Dmq) :
    (d.uartMultiProgress = true ∧ d.uartPending = [] ∧ dmqPop rr d = .error .lockWithoutPending) ∨
    (∃ x rest, d.uartMultiProgress = true ∧ d.uartPending = x :: rest ∧
      dmqPop rr d = .ok (some (be32 x), { d with uartPending := rest, uartMultiProgress := decide (rest ≠ []) })) ∨
    (d.uartMultiProgress = false ∧ dmqPop rr d = .ok (roundRobin (scanOrder rr d.lastServed) d)) := by
  cases hl : d.uartMultiProgress with
  | false => exact .inr (.inr ⟨rfl, by simp [dmqPop, hl]⟩)
  | true =>
    cases hp : d.uartPending with
    | nil => exact .inl ⟨rfl, rfl, by simp [dmqPop, hl, hp]⟩
    | cons x rest =>
      refine .inr (.inl ⟨x, rest, rfl, rfl, ?_⟩)
      cases rest <;> simp [dmqPop, hl, hp]

/-- Starting a packet (R151 step 3). -/
theorem servePacket_cases (d : Dmq) (c : DlClass) (p : Packet) (others : List Packet) :
    (p.rest = [] ∧ servePacket d c p others = (be32 p.first, { setQueue d c others with lastServed := some c })) ∨
    (p.rest ≠ [] ∧ servePacket d c p others = (be32 p.first,
      { setQueue d c others with uartPending := p.rest, uartMultiProgress := true, lastServed := some .uart })) := by
  by_cases h : p.rest = []
  · exact .inl ⟨h, by simp [servePacket, h]⟩
  · exact .inr ⟨h, by simp [servePacket, h]⟩

end Sys2Proof.Machine
end

