-- ==== Sys2Proof/Laws/PerInstr.lean ====
section
/-! SUPPORT. A family over all instructions as syntax: how each one is presented. A wire format is presented as the bytes of
one word (R38: one byte, three or four), an operation as a call under its own name (R65, decision D3). -/

namespace Sys2Proof.Laws.Presentation

open Sys2Proof

/-- A wire format's word, or a call under the operation's own name. -/
def Statement (i : Instr) : Prop :=
  (i.opName = none ∧ ∃ b, encode i = .wire b ∧ (b.length = 1 ∨ b.length = 3 ∨ b.length = 4)) ∨
  (∃ op operands, i.opName = some op ∧ encode i = .call op operands)

theorem explicitFlitHeader (reservedA : BitVec 3) (flitSeqNo : Seq) (reservedB : BitVec 8) : Statement (.explicitFlitHeader reservedA flitSeqNo reservedB) :=
  .inl ⟨rfl, _, rfl, .inr (.inl rfl)⟩
theorem payloadFlitAsReceived (op : BitVec 3) (reservedA : BitVec 3) (flitSeqNo : Seq) (reservedB : BitVec 8) : Statement (.payloadFlitAsReceived op reservedA flitSeqNo reservedB) :=
  .inl ⟨rfl, _, rfl, .inr (.inl rfl)⟩
theorem ack (ackReqSeq : Seq) (flitSeqLo : BitVec 3) (reserved : BitVec 8) : Statement (.ack ackReqSeq flitSeqLo reserved) :=
  .inl ⟨rfl, _, rfl, .inr (.inl rfl)⟩
theorem replayRequest (ackReqSeq : Seq) (flitSeqLo : BitVec 3) (reserved : BitVec 8) : Statement (.replayRequest ackReqSeq flitSeqLo reserved) :=
  .inl ⟨rfl, _, rfl, .inr (.inl rfl)⟩
theorem unassignedCommandOp (op : BitVec 3) (rest : BitVec 20) : Statement (.unassignedCommandOp op rest) :=
  .inl ⟨rfl, _, rfl, .inr (.inl rfl)⟩
theorem segmentHeader (fields : SegFields) : Statement (.segmentHeader fields) := .inl ⟨rfl, _, rfl, .inl rfl⟩
theorem dlMessageDword (messageSpecific : BitVec 23) (mtype : BitVec 3) (mclass : BitVec 4) (reserved : BitVec 1) : Statement (.dlMessageDword messageSpecific mtype mclass reserved) :=
  .inl ⟨rfl, _, rfl, .inr (.inr rfl)⟩
theorem crc32 (b : List Byte) : Statement (.crc32 b) := .inr ⟨_, _, rfl, rfl⟩
theorem crc32Check (f : Flit) : Statement (.crc32Check f) := .inr ⟨_, _, rfl, rfl⟩
theorem flitPack (tls : List Tl) (op : BitVec 3) (payloadBit : BitVec 1) (flitSeqNo : Seq) : Statement (.flitPack tls op payloadBit flitSeqNo) :=
  .inr ⟨_, _, rfl, rfl⟩
theorem flitUnpack (f : Flit) : Statement (.flitUnpack f) := .inr ⟨_, _, rfl, rfl⟩
theorem flitUnpackChecked (f : Flit) : Statement (.flitUnpackChecked f) := .inr ⟨_, _, rfl, rfl⟩
theorem hdrDecode (f : Flit) : Statement (.hdrDecode f) := .inr ⟨_, _, rfl, rfl⟩
theorem rbAdd (q : Seq) (f : Flit) : Statement (.rbAdd q f) := .inr ⟨_, _, rfl, rfl⟩
theorem rbRetireThrough (ackSeq : Seq) : Statement (.rbRetireThrough ackSeq) := .inr ⟨_, _, rfl, rfl⟩
theorem rbOldestSeq : Statement (.rbOldestSeq) := .inr ⟨_, _, rfl, rfl⟩
theorem rbNewestSeq : Statement (.rbNewestSeq) := .inr ⟨_, _, rfl, rfl⟩
theorem rbClear : Statement (.rbClear) := .inr ⟨_, _, rfl, rfl⟩
theorem rbSize : Statement (.rbSize) := .inr ⟨_, _, rfl, rfl⟩
theorem rbReplayIter (r : Seq) : Statement (.rbReplayIter r) := .inr ⟨_, _, rfl, rfl⟩
theorem stIsExpected (q : Seq) : Statement (.stIsExpected q) := .inr ⟨_, _, rfl, rfl⟩
theorem stIsDuplicate (q : Seq) : Statement (.stIsDuplicate q) := .inr ⟨_, _, rfl, rfl⟩
theorem stAdvance : Statement (.stAdvance) := .inr ⟨_, _, rfl, rfl⟩
theorem stReset : Statement (.stReset) := .inr ⟨_, _, rfl, rfl⟩
theorem txNextPayloadSeq : Statement (.txNextPayloadSeq) := .inr ⟨_, _, rfl, rfl⟩
theorem txNopSeq : Statement (.txNopSeq) := .inr ⟨_, _, rfl, rfl⟩
theorem txStartReplay : Statement (.txStartReplay) := .inr ⟨_, _, rfl, rfl⟩
theorem txFinishReplay : Statement (.txFinishReplay) := .inr ⟨_, _, rfl, rfl⟩
theorem txTickExplicitCount : Statement (.txTickExplicitCount) := .inr ⟨_, _, rfl, rfl⟩
theorem txMakeAck (ackSeq : Seq) : Statement (.txMakeAck ackSeq) := .inr ⟨_, _, rfl, rfl⟩
theorem txMakeReplayRequest (r : Seq) : Statement (.txMakeReplayRequest r) := .inr ⟨_, _, rfl, rfl⟩
theorem txReset (zeroStats : Bool) : Statement (.txReset zeroStats) := .inr ⟨_, _, rfl, rfl⟩
theorem cmdProcess (f : Flit) : Statement (.cmdProcess f) := .inr ⟨_, _, rfl, rfl⟩
theorem armProcessReceived (q : Seq) (txLo : BitVec 3) : Statement (.armProcessReceived q txLo) :=
  .inr ⟨_, _, rfl, rfl⟩
theorem dmqEnqueue (c : DlClass) (dws : List DWord) : Statement (.dmqEnqueue c dws) := .inr ⟨_, _, rfl, rfl⟩
theorem dmqPopNextDword : Statement (.dmqPopNextDword) := .inr ⟨_, _, rfl, rfl⟩
theorem reset : Statement (.reset) := .inr ⟨_, _, rfl, rfl⟩
theorem epSendPayload (tls : List Tl) : Statement (.epSendPayload tls) := .inr ⟨_, _, rfl, rfl⟩
theorem epReceiveFlit (f : Flit) : Statement (.epReceiveFlit f) := .inr ⟨_, _, rfl, rfl⟩
theorem epProcessAck (ackSeq : Seq) : Statement (.epProcessAck ackSeq) := .inr ⟨_, _, rfl, rfl⟩
theorem epReplayFrom (r : Seq) : Statement (.epReplayFrom r) := .inr ⟨_, _, rfl, rfl⟩

end Sys2Proof.Laws.Presentation
end

