-- ==== Sys2Proof/Tests/Slice0.lean ====
section
/-! SUPPORT. Tests of the model against the spec's worked examples (95_test_vectors.md) and encodings, the smoke test of
WellFormed, and for every statement with hypotheses a witness that meets them. -/

open Sys2Proof Sys2Proof.Machine

namespace Sys2Proof.Tests

set_option maxRecDepth 100000

/-! ## Helpers -/

/-- The result an outcome's last operation answered. -/
def resultOf : Host.Outcome State Fault Refusal → Option Result
  | .next t => t.trace.getLast?.map Answer.result
  | .fault _ => none
  | .refused _ => none

/-- The events an outcome's last operation raised. -/
def eventsOf : Host.Outcome State Fault Refusal → List Event
  | .next t => (t.trace.getLast?.map Answer.events).getD []
  | .fault _ => []
  | .refused _ => []

/-- The block an outcome leaves. -/
def blockOf : Host.Outcome State Fault Refusal → Option Block
  | .next t => some t.block
  | .fault _ => none
  | .refused _ => none

/-- What an outcome was refused for. -/
def refusalOf : Host.Outcome State Fault Refusal → Option Refusal
  | .next _ => none
  | .fault _ => none
  | .refused r => some r

/-- The machine after reset with another block. -/
def withBlock (b : Block) : State := { State.reset with block := b }

/-- The machine after reset with other transmit registers. -/
def withTx (t : Tx) : State := withBlock { Block.reset with tx := t }

/-- The machine after reset with another arbiter. -/
def withDmq (d : Dmq) : State := withBlock { Block.reset with dmq := d }

/-- The machine after reset, expecting another number. -/
def expecting (q : Seq) : State := withBlock { Block.reset with expectedSeq := q }

/-- The machine after reset with statistics counters of `w` bits. -/
def ofStatWidth (w : Nat) : State := { State.reset with cfg := { Config.standard with statWidth := some w } }

/-- The machine after reset with FIFOs of `depth` packets, one in the Basic FIFO. -/
def ofFifoDepth (depth : Nat) : State :=
  { withDmq { Dmq.reset with qBasic := [⟨0xB0, []⟩] } with cfg := { Config.standard with arbFifoDepth := some depth } }

/-- The machine after reset with entries of these numbers stored, each an all-zero flit. -/
def storing (l : List Seq) : State := withBlock { Block.reset with rb := l.map fun q => { seq := q, flit := zeros 640 } }

/-- The numbers of the entries stored. -/
def seqsOf (b : Option Block) : List Seq := (b.map fun b => b.rb.map Entry.seq).getD []

/-- 64 bytes counting up from one. -/
def counting (first : Nat) : TlData := ⟨(List.range 64).map fun j => BitVec.ofNat 8 (first + j), by simp⟩

/-- TL flits A and B of scenario S2. -/
def tlA : Tl := { data := counting 0x10, msg := 1 }
def tlB : Tl := { data := counting 0x80, msg := 2 }

/-- A sealed flit with an all-zero body behind three header bytes. -/
def sealed (b0 b1 : Byte) : Flit :=
  sealFlit false (joinBytes (⟨[b0, b1, 0], rfl⟩ : Bytes 3) (joinBytes (zeros 5) (zeros 628)))

/-- A flit with the given header, zeros, and these four bytes where the CRC goes. -/
def flitEnding (b0 b1 b2 : Byte) (crc : Bytes 4) : Flit :=
  joinBytes (joinBytes (⟨[b0, b1, b2], rfl⟩ : Bytes 3) (joinBytes (zeros 5) (zeros 628))) crc

/-- The header and the CRC field of a flit. -/
def ends (f : Flit) : List Byte := f.val.take 3 ++ f.val.drop 636

/-- The flit of a result that has one. -/
def flitOf : Option Result → Option Flit
  | some (.flit f) => some f
  | some (.optFlit f) => f
  | some (.packed f _) => some f
  | _ => none

/-! ## WellFormed refuses what it checks -/

theorem test_wf_payload_with_op_zero : (Instr.payloadFlitAsReceived 0 0 1 0).wellFormed = false := by decide
theorem test_wf_unassigned_ack : (Instr.unassignedCommandOp 2 0).wellFormed = false := by decide
theorem test_wf_unassigned_replay : (Instr.unassignedCommandOp 3 0).wellFormed = false := by decide
theorem test_wf_pack_eight : (Instr.flitPack (List.replicate 8 tlA) 0 1 1).wellFormed = false := by decide
theorem test_wf_send_eight : (Instr.epSendPayload (List.replicate 8 tlA)).wellFormed = false := by decide
theorem test_wf_packet_empty : (Instr.dmqEnqueue .uart []).wellFormed = false := by decide
theorem test_wf_packet_too_long : (Instr.dmqEnqueue .uart (List.replicate 34 0)).wellFormed = false := by decide
theorem test_wf_packet_not_uart : (Instr.dmqEnqueue .basic [1, 2]).wellFormed = false := by decide
theorem test_wf_admits_the_largest : (Instr.dmqEnqueue .uart (List.replicate 33 0)).wellFormed = true ∧
    (Instr.flitPack (List.replicate 7 tlA) 0 1 1).wellFormed = true := by decide

/-! ## Decoding: words written out from R48, R49, R52, R59, field by field, and calls by R65 -/

/-- op 000, payload_bit 1, reserved 000, flit_seq_no 1, reserved 0: bytes 10 01 00 of 2.2. -/
theorem test_decode_explicit : decodeTableWord 24 0b000_1_000_000000001_00000000 = some (.explicitFlitHeader 0 1 0) := by
  decide
/-- op 001, payload_bit 1, reserved 101, flit_seq_no 300, reserved AA (R51 last row, R58). -/
theorem test_decode_payload_as_received :
    decodeTableWord 24 0b001_1_101_100101100_10101010 = some (.payloadFlitAsReceived 1 5 300 0xAA) := by decide
/-- op 010, payload_bit 0, ack_req_seq 4, flit_seq_lo 2: bytes 40 22 00 of 2.2. -/
theorem test_decode_ack : decodeTableWord 24 0b010_0_000000100_010_00000000 = some (.ack 4 2 0) := by decide
/-- op 011, payload_bit 0, ack_req_seq 256, flit_seq_lo 0: bytes 68 00 00 of 2.2. -/
theorem test_decode_replay_request :
    decodeTableWord 24 0b011_0_100000000_000_00000000 = some (.replayRequest 256 0 0) := by decide
/-- op 100, payload_bit 0 (R51, R58). -/
theorem test_decode_unassigned :
    decodeTableWord 24 0b100_0_00010010001101000101 = some (.unassignedCommandOp 4 0x12345) := by decide
/-- tl_flit1 1, message1 2, tl_flit0 1, message0 1: byte D4 of R52. -/
theorem test_decode_segment : decodeTableWord 8 0b1_10_1_01_0_0 = some (.segmentHeader ⟨1, 2, 1, 1, 0, 0⟩) := by decide
/-- Message-specific 5, mtype 4, mclass 9, reserved 1, compressed 0 (R59). -/
theorem test_decode_dword :
    decodeTableWord 32 0b00000000000000000000101_100_1001_1_0 = some (.dlMessageDword 5 4 9 1) := by decide
theorem test_decode_compressed_dword : decodeTableWord 32 0b00000000000000000000101_100_1001_1_1 = none := by decide
theorem test_decode_calls :
    decode (.call .crc32 [.bytes [1, 2]]) = .ok (.crc32 [1, 2]) ∧
    decode (.call .rbRetireThrough [.num 511]) = .ok (.rbRetireThrough 511) ∧
    decode (.call .txReset [.flag true]) = .ok (.txReset true) ∧
    decode (.call .armProcessReceived [.num 5, .num 2]) = .ok (.armProcessReceived 5 2) ∧
    decode (.call .dmqEnqueue [.cls .uart, .dwords [7, 8]]) = .ok (.dmqEnqueue .uart [7, 8]) ∧
    decode (.call .reset []) = .ok .reset := by decide
theorem test_decode_rejects :
    decode (.call .rbRetireThrough [.num 512]) = .error (.fieldOutOfRange .sequence 512 9) ∧
    decode (.call .reset [.num 0]) = .error (.operandShape .reset) ∧
    decode (.call .crc32Check [.bytes [1, 2]]) = .error (.byteCount .crc32Check 2) ∧
    decode (.wire [0x10, 0x01]) = .error (.noWireFormat 2) := by decide

/-! ## The wire rows (2.2) -/

/-- `4F FF 00`: command op 2, payload_bit 0, ack_req_seq 511, flit_seq_lo 7 (2.2), and R51 makes it an Ack. -/
theorem test_ack_word : resultOf (exec (.ack 511 7 0) State.reset) =
    some (.classified .ack { explicit := ⟨2, 0, 511⟩, command := ⟨2, 0, 511, 7⟩ }) := by decide
/-- `60 0A 00`: explicit flit_seq_no 10, command ack_req_seq 1, flit_seq_lo 2 (2.2). -/
theorem test_replay_request_word : resultOf (exec (.replayRequest 1 2 0) State.reset) =
    some (.classified .replayRequest { explicit := ⟨3, 0, 10⟩, command := ⟨3, 0, 1, 2⟩ }) := by decide
/-- `10 01 00`: explicit flit_seq_no 1, command ack_req_seq 0, flit_seq_lo 1 (2.2). -/
theorem test_explicit_word : resultOf (exec (.explicitFlitHeader 0 1 0) State.reset) =
    some (.classified .payload { explicit := ⟨0, 1, 1⟩, command := ⟨0, 1, 0, 1⟩ }) := by decide
theorem test_payload_word_ignores_op : (match resultOf (exec (.payloadFlitAsReceived 2 0 1 0) State.reset) with
    | some (.classified k _) => some k
    | _ => none) = some .payload := by decide
theorem test_unassigned_word : (match resultOf (exec (.unassignedCommandOp 7 0) State.reset) with
    | some (.classified k _) => some k
    | _ => none) = some .notConsumed := by decide
theorem test_dword_word : resultOf (exec (.dlMessageDword 5 4 9 1) State.reset) = some (.dword ⟨5, 4, 9⟩) := by decide
theorem test_step_runs_a_table_word :
    resultOf (step (State.reset.withFetchWord 8 0xF8)) = some (.segment ⟨1, 3, 1, 2, 0, 0⟩) := by decide

/-! ## CRC (2.1) -/

theorem test_crc_check_value : resultOf (exec (.crc32 [0x31, 0x32, 0x33, 0x34, 0x35, 0x36, 0x37, 0x38, 0x39]) State.reset) =
    some (.value 0xFC891918) := by decide +kernel
theorem test_crc_reflected : crc32 true [0x31, 0x32, 0x33, 0x34, 0x35, 0x36, 0x37, 0x38, 0x39] = 0xCBF43926 := by
  decide +kernel
theorem test_crc_check_good :
    resultOf (exec (.crc32Check (flitEnding 0 0 0 ⟨[0x61, 0x2E, 0xFF, 0x3A], rfl⟩)) State.reset) = some (.bool true) := by
  decide +kernel
theorem test_crc_check_bad :
    resultOf (exec (.crc32Check (flitEnding 0 0 0 ⟨[0x61, 0x2E, 0xFF, 0x3B], rfl⟩)) State.reset) = some (.bool false) := by
  decide +kernel

/-! ## Flit codec (2.4) -/

/-- S2: header and segment headers `10 01 00 D4 00 00 00 00`, CRC `CD A1 CF 54`. -/
theorem test_pack_two :
    (flitOf (resultOf (exec (.flitPack [tlA, tlB] 0 1 1) State.reset))).map (fun f => f.val.take 9 ++ f.val.drop 636) =
      some [0x10, 0x01, 0x00, 0xD4, 0x00, 0x00, 0x00, 0x00, 0x10, 0xCD, 0xA1, 0xCF, 0x54] := by decide +kernel
theorem test_pack_eight_refused :
    refusalOf (exec (.flitPack (List.replicate 8 tlA) 0 1 1) State.reset) = some (.tooManyTlFlits 8) := by decide
/-- Segment headers `00 00 00 B0 1C`: slot 1 of segment 3 is ignored, segment 4 is read at payload offset 508. -/
def oddFlit : Flit :=
  sealFlit false ⟨[0x10, 9, 0, 0, 0, 0, 0xB0, 0x1C] ++ List.replicate 384 0 ++ List.replicate 64 0xA0 ++
    List.replicate 60 0xEE ++ (counting 0).val ++ List.replicate 56 0, by decide⟩
theorem test_unpack_odd_segments : resultOf (exec (.flitUnpack oddFlit) State.reset) =
    some (.tls [{ data := ⟨List.replicate 64 0xA0, by decide⟩, msg := 0 }, { data := counting 0, msg := 3 }]) := by
  decide +kernel
theorem test_checked_unpack_bad_crc :
    resultOf (exec (.flitUnpackChecked (flitEnding 0x10 1 0 (zeros 4))) State.reset) = some (.checkedTls none) := by
  decide +kernel
theorem test_hdr_decode : resultOf (exec (.hdrDecode (flitEnding 0x60 0x0A 0 (zeros 4))) State.reset) =
    some (.header { explicit := ⟨3, 0, 10⟩, command := ⟨3, 0, 1, 2⟩ }) := by decide +kernel

/-! ## Replay buffer and tracker (2.5) -/

theorem test_rb_add : seqsOf (blockOf (exec (.rbAdd 7 (zeros 640)) (storing [5, 6]))) = [5, 6, 7] := by decide +kernel
theorem test_rb_retire_wraps :
    seqsOf (blockOf (exec (.rbRetireThrough 1) (storing [509, 510, 511, 1, 2]))) = [2] := by decide +kernel
theorem test_rb_retire_window :
    seqsOf (blockOf (exec (.rbRetireThrough 300) (storing [5, 6, 7]))) = [5, 6, 7] ∧
    seqsOf (blockOf (exec (.rbRetireThrough 200) (storing [5, 6, 7]))) = [] := by decide +kernel
theorem test_rb_ends : resultOf (exec .rbOldestSeq (storing [5, 6, 7])) = some (.optSeq (some 5)) ∧
    resultOf (exec .rbNewestSeq (storing [5, 6, 7])) = some (.optSeq (some 7)) ∧
    resultOf (exec .rbOldestSeq State.reset) = some (.optSeq none) ∧
    resultOf (exec .rbNewestSeq State.reset) = some (.optSeq none) := by decide +kernel
theorem test_rb_size_and_clear : resultOf (exec .rbSize (storing [5, 6, 7])) = some (.size 3) ∧
    seqsOf (blockOf (exec .rbClear (storing [5, 6, 7]))) = [] := by decide +kernel
theorem test_rb_replay_iter : (match resultOf (exec (.rbReplayIter 7) (storing [5, 6, 7, 8])) with
    | some (.entries l) => l.map Entry.seq
    | _ => []) = [7, 8] := by decide +kernel
theorem test_st_is_expected : resultOf (exec (.stIsExpected 1) State.reset) = some (.bool true) ∧
    resultOf (exec (.stIsExpected 0) (expecting 511)) = some (.bool false) := by decide
/-- From expected_seq 1: 257 is a duplicate at distance 255, 256 is not. -/
theorem test_st_is_duplicate_edge : resultOf (exec (.stIsDuplicate 257) State.reset) = some (.bool true) ∧
    resultOf (exec (.stIsDuplicate 256) State.reset) = some (.bool false) := by decide
theorem test_st_advance_wraps : (blockOf (exec .stAdvance (expecting 511))).map Block.expectedSeq = some 1 := by decide
theorem test_st_reset : (blockOf (exec .stReset (expecting 300))).map Block.expectedSeq = some 1 := by decide

/-! ## Transmit controller (2.6) -/

/-- Registers after P2's sends: last_seq 10, explicit_count 21. -/
def txTen : Tx := { lastSeq := 10, explicitCount := 21, inReplay := false, firstReplay := false }

theorem test_tx_next_wraps :
    resultOf (exec .txNextPayloadSeq (withTx { txTen with lastSeq := 511 })) = some (.seqToBuffer 1 true) := by decide
theorem test_tx_next_in_replay :
    resultOf (exec .txNextPayloadSeq (withTx { txTen with inReplay := true })) = some (.seqToBuffer 11 false) := by decide
theorem test_tx_nop_seq : resultOf (exec .txNopSeq (withTx txTen)) = some (.seq 10) := by decide
theorem test_tx_start_replay : (blockOf (exec .txStartReplay (withTx txTen))).map (fun b => (b.tx, b.stats.replaySequences)) =
    some ({ txTen with inReplay := true, firstReplay := true }, 1) := by decide
/-- STAT_WIDTH = 1: the first event is counted (R17). -/
theorem test_finite_statistic_counts :
    (blockOf (exec .txStartReplay (ofStatWidth 1))).map (fun b => b.stats.replaySequences) = some 1 := by decide
theorem test_tx_finish_replay :
    (blockOf (exec .txFinishReplay (withTx { txTen with inReplay := true, firstReplay := true }))).map Block.tx =
      some txTen := by decide
/-- "next tick true, count 31, first_replay false, in_replay still true". -/
theorem test_tx_tick_after_start :
    (fun o => (resultOf o, (blockOf o).map Block.tx))
        (exec .txTickExplicitCount (withTx { txTen with explicitCount := 26, inReplay := true, firstReplay := true })) =
      (some (.bool true), some { txTen with explicitCount := 31, inReplay := true }) := by decide
theorem test_tx_tick_reloads : (fun o => (resultOf o, (blockOf o).map Block.tx))
        (exec .txTickExplicitCount (withTx { txTen with explicitCount := 1 })) =
      (some (.bool true), some { txTen with explicitCount := 31 }) := by decide
/-- `40 22 00` … `3B 53 D1 DA`. -/
theorem test_tx_make_ack : (flitOf (resultOf (exec (.txMakeAck 4) (withTx txTen)))).map ends =
    some [0x40, 0x22, 0x00, 0x3B, 0x53, 0xD1, 0xDA] := by decide +kernel
/-- `60 0A 00` … `80 1C 05 48`. -/
theorem test_tx_make_replay_request : (flitOf (resultOf (exec (.txMakeReplayRequest 1) (withTx txTen)))).map ends =
    some [0x60, 0x0A, 0x00, 0x80, 0x1C, 0x05, 0x48] := by decide +kernel
theorem test_tx_reset : (blockOf (exec (.txReset false)
    (withBlock { Block.reset with tx := txTen, stats := ⟨1, 2, 3⟩ }))).map (fun b => (b.tx, b.stats)) =
      some (Tx.reset, ⟨1, 2, 3⟩) := by decide

/-! ## Command processor, Ack manager, composites (2.7, P2, P3) -/

/-- The Ack(4) flit of 2.3. -/
def ackFour : Flit := flitEnding 0x40 0x22 0x00 ⟨[0x3B, 0x53, 0xD1, 0xDA], rfl⟩

theorem test_cmd_process_ack : (fun o => (resultOf o, eventsOf o)) (exec (.cmdProcess ackFour) State.reset) =
    (some (.bool true), [.ackEvent 4]) := by decide +kernel
/-- Op 0b100 with a good CRC `49 98 BB 85`: not consumed. -/
theorem test_cmd_process_unassigned :
    resultOf (exec (.cmdProcess (flitEnding 0x80 0x00 0x00 ⟨[0x49, 0x98, 0xBB, 0x85], rfl⟩)) State.reset) =
      some (.bool false) := by decide +kernel
/-- S4: `60 0A 00` … `80 1C 05 48`, the tracker stays at 1. -/
theorem test_arm_gap : (fun o => ((flitOf (resultOf o)).map ends, (blockOf o).map Block.expectedSeq))
      (exec (.armProcessReceived 5 2) State.reset) =
    (some [0x60, 0x0A, 0x00, 0x80, 0x1C, 0x05, 0x48], some 1) := by decide +kernel
/-- ACK_EVERY_N = 3: the first arrival is counted, not acknowledged. -/
theorem test_arm_batches :
    (fun o => (resultOf o, (blockOf o).map fun b => (b.expectedSeq, b.arm.flitsSinceAck)))
      (exec (.armProcessReceived 1 0) { State.reset with cfg := { Config.standard with ackEveryN := 3 } }) =
    (some (.optFlit none), some (2, 1)) := by decide
theorem test_ep_send : (fun o => (resultOf o, seqsOf (blockOf o))) (exec (.epSendPayload [tlA]) State.reset) =
    (some (.sent 1 false), [1]) := by decide +kernel
/-- P3 step 1, F(1): accepted, Ack(1) lo 2 is transmitted, then the TL flit is delivered. -/
theorem test_ep_receive_accepted : (fun o => (resultOf o, (eventsOf o).map fun e => match e with
      | .transmit f => ends f
      | .deliver l => l.map fun t => t.msg.setWidth 8
      | _ => []))
      (exec (.epReceiveFlit (flitPack false [tlA] (by decide) 0 1 1)) (withTx txTen)) =
    (some (.received (.accepted [tlA])), [[0x40, 0x0A, 0x00, 0xCB, 0x01, 0xD3, 0x0A], [1]]) := by decide +kernel
theorem test_ep_receive_ack_retires : (fun o => (resultOf o, seqsOf (blockOf o)))
    (exec (.epReceiveFlit ackFour) (storing [3, 4, 5])) = (some (.received .command), [5]) := by decide +kernel
theorem test_ep_process_ack : seqsOf (blockOf (exec (.epProcessAck 4) (storing [1, 2, 3, 4, 5]))) = [5] := by decide +kernel
theorem test_ep_replay_from : (fun o => (resultOf o, (eventsOf o).length, seqsOf (blockOf o)))
    (exec (.epReplayFrom 6) (storing [5, 6, 7])) = (some (.count 2), 2, [5, 6, 7]) := by decide +kernel
theorem test_ep_replay_unknown : (fun o => (resultOf o, (blockOf o).map Block.replayUnknownSeq))
    (exec (.epReplayFrom 3) (storing [5, 6, 7])) = (some (.count 0), some 1) := by decide +kernel

/-! ## Arbiter (2.8, P4) -/

theorem test_dmq_enqueue : (blockOf (exec (.dmqEnqueue .uart [0xAAAA0001, 0x11111111]) State.reset)).map
    (fun b => b.dmq.qUart) = some [⟨0xAAAA0001, [0x11111111]⟩] := by decide
/-- More than one DWord outside Uart (R150); ARB_FIFO_DEPTH = 1 with one packet waiting; and = 2 (R20, decision D30). -/
theorem test_dmq_enqueue_refused :
    refusalOf (exec (.dmqEnqueue .control [1, 2]) State.reset) = some (.illegalPacket .control 2) ∧
    refusalOf (exec (.dmqEnqueue .basic [1]) (ofFifoDepth 1)) = some (.arbFifoFull .basic) ∧
    refusalOf (exec (.dmqEnqueue .basic [1]) (ofFifoDepth 2)) = none := by decide
/-- The mixed example: after ct0, the Transport [e0, e1] starts and takes the lock. -/
theorem test_dmq_pop_starts_transport :
    (fun o => (resultOf o, (blockOf o).map fun b => (b.dmq.uartPending, b.dmq.uartMultiProgress, b.dmq.lastServed)))
      (exec .dmqPopNextDword
        (withDmq { Dmq.reset with qBasic := [⟨0xB0, []⟩], qUart := [⟨0xE0, [0xE1]⟩], lastServed := some .control })) =
    (some (.optBytes (some ⟨[0, 0, 0, 0xE0], rfl⟩)), some ([0xE1], true, some .uart)) := by decide
theorem test_dmq_pop_first_after_none : resultOf (exec .dmqPopNextDword
      (withDmq { Dmq.reset with qBasic := [⟨0xB0, []⟩], qControl := [⟨0xC0, []⟩], qUart := [⟨0xD0, []⟩] })) =
    some (.optBytes (some ⟨[0, 0, 0, 0xC0], rfl⟩)) := by decide
theorem test_reset_clears : (blockOf (exec .reset (withTx txTen))) = some State.reset.block := by decide

/-! ## Witnesses: for each statement with hypotheses, values that meet them, clause by clause and at the edges -/

/-- A state in the middle of everything, and legal: two flits stored, a Transport in flight, one more behind it, in replay. -/
def busy : State :=
  { cfg := { Config.standard with ackEveryN := 4, statWidth := some 1, arbFifoDepth := some 1 }
    block := { Block.reset with
      rb := [{ seq := 510, flit := zeros 640 }, { seq := 511, flit := zeros 640 }]
      expectedSeq := 511
      tx := { lastSeq := 511, explicitCount := 1, inReplay := true, firstReplay := true }
      arm := { flitsSinceAck := 3 }
      dmq := { qBasic := [⟨0xB0, []⟩], qControl := [], qUart := [⟨0xE0, [0xE1, 0xE2]⟩], lastServed := some .uart,
               uartMultiProgress := true, uartPending := [0xF1, 0xF2] } }
    program := [.call .stAdvance []]
    trace := [] }

theorem busy_legal : busy.Legal := by
  constructor <;> simp [busy, Config.standard, Block.reset, Block.counters, TxStats.reset]
  intro c; cases c <;> simp [queueOf]

/-- A flit whose CRC field is not its CRC. -/
theorem bad_payload_flit : ¬ CrcMatches false (flitEnding 0x10 1 0 (zeros 4)) := by
  rw [← crcGood_iff]; decide +kernel
theorem bad_command_flit : ¬ CrcMatches false (flitEnding 0x40 8 0 (zeros 4)) := by
  rw [← crcGood_iff]; decide +kernel

/-- A sealed flit's CRC field is its CRC. -/
theorem sealed_matches (b0 b1 : Byte) : CrcMatches false (sealed b0 b1) := (crcGood_iff ..).1 (crcGood_sealFlit ..)

theorem witness_BitCodecRoundTrip :
    (∀ f ∈ [((7 : Nat), (3 : Nat)), (511, 9)], f.1 < 2 ^ f.2) ∧ (∃ f ∈ [((8 : Nat), (3 : Nat))], ¬ f.1 < 2 ^ f.2) := by
  decide
theorem witness_DecodeInvertsEncode : (Instr.payloadFlitAsReceived 7 7 511 0xFF).wellFormed = true := by decide
theorem witness_EncodeInvertsDecode :
    decode (.wire [0x4F, 0xFF, 0x00]) = .ok (.ack 511 7 0) ∧ decode (.call .stAdvance []) = .ok .stAdvance := by decide
/-- The machine after reset with one request presented. -/
def presented (r : Request) : State := { State.reset with program := [r] }

/-- One request per clause, its number the least that does not fit, and what the statement says of it. -/
def wideRequests : List (Request × Field × Nat × Nat) :=
  [(.call .epProcessAck [.num 512], .sequence, 512, 9),
   (.call .rbAdd [.num 512, .bytes []], .sequence, 512, 9),
   (.call .armProcessReceived [.num 512, .num 8], .sequence, 512, 9),
   (.call .armProcessReceived [.num 511, .num 8], .txLo, 8, 3),
   (.call .flitPack [.tls (List.map tlOperand [tlA] ++ (tlB.data.val, 4) :: []), .num 8, .num 2, .num 512],
     .messageField, 4, 2),
   (.call .epSendPayload [.tls (List.map tlOperand [tlA] ++ (tlB.data.val, 4) :: [])], .messageField, 4, 2),
   (.call .flitPack [.tls (List.map tlOperand [tlA]), .num 8, .num 2, .num 512], .op, 8, 3),
   (.call .flitPack [.tls (List.map tlOperand [tlA]), .num 7, .num 2, .num 512], .payloadBit, 2, 1),
   (.call .flitPack [.tls (List.map tlOperand [tlA]), .num 7, .num 1, .num 512], .sequence, 512, 9),
   (.call .dmqEnqueue [.cls .uart, .dwords (List.map BitVec.toNat [7#32] ++ 4294967296 :: [])], .dword, 4294967296, 32)]

/-- The numbers do not fit, the operands before them do, and each request is presented. -/
theorem witness_WideOperand : (∀ x ∈ wideRequests, (presented x.1).program = x.1 :: [] ∧ ¬ x.2.2.1 < 2 ^ x.2.2.2) ∧
    511 < 512 ∧ 7 < 8 ∧ 1 < 2 := by
  refine ⟨?_, by decide⟩
  intro x h
  simp only [wideRequests, List.mem_cons, List.not_mem_nil, or_false] at h
  rcases h with rfl | rfl | rfl | rfl | rfl | rfl | rfl | rfl | rfl | rfl <;> exact ⟨rfl, by decide⟩

/-- FLIT_PACK of eight TL flits with op 8, and an illegal packet with a DWord of 2^32: the number is reported (log entry 21). -/
theorem test_wide_number_before_admission :
    decode (.call .flitPack [.tls (List.replicate 8 (tlOperand tlA)), .num 8, .num 1, .num 1]) =
      .error (.fieldOutOfRange .op 8 3) ∧
    decode (.call .dmqEnqueue [.cls .basic, .dwords [0, 4294967296]]) =
      .error (.fieldOutOfRange .dword 4294967296 32) := by decide
theorem witness_StepRuns : busy.program = .call .stAdvance [] :: [] ∧ decode (.call .stAdvance []) = .ok .stAdvance ∧
    State.reset.program = [] ∧ decodeTableWord 8 0xD4 = some (.segmentHeader ⟨1, 2, 1, 1, 0, 0⟩) := by decide
theorem witness_HeaderWords : encode (.ack 511 7 0) = .wire [0x4F, 0xFF, 0x00] ∧
    encode (.explicitFlitHeader 0 511 0) = .wire [0x11, 0xFF, 0x00] ∧
    encode (.payloadFlitAsReceived 7 0 0 0) = .wire [0xF0, 0x00, 0x00] ∧
    encode (.replayRequest 1 2 0) = .wire [0x60, 0x0A, 0x00] ∧
    encode (.unassignedCommandOp 7 0) = .wire [0xE0, 0x00, 0x00] := by decide
theorem witness_SegmentAndDword : encode (.segmentHeader ⟨1, 3, 1, 2, 1, 1⟩) = .wire [0xFB] ∧
    encode (.dlMessageDword 0x7FFFFF 4 9 1) = .wire [0xFF, 0xFF, 0xFF, 0x26] := by decide
theorem witness_CrcIsAffine : ([0x31, 0x32] : List Byte).length = ([0xFF, 0x00] : List Byte).length := by decide
theorem witness_PackedFlit : (List.replicate 7 tlA).length ≤ 7 ∧ ([] : List Tl).length ≤ 7 := by decide
theorem witness_EightTlFlits : 8 ≤ (List.replicate 8 tlA).length := by decide
theorem witness_CheckedUnpack : CrcMatches State.reset.cfg.crcReflect (sealed 0x10 1) ∧
    ¬ CrcMatches State.reset.cfg.crcReflect (flitEnding 0x10 1 0 (zeros 4)) :=
  ⟨sealed_matches .., bad_payload_flit⟩
theorem witness_SequenceRing : (511#9 : Seq) ≠ 0#9 ∧ (1#9 : Seq) ≠ 0#9 ∧ (511#9 : Seq) ≠ 1#9 ∧ 510 < 511 := by decide
theorem witness_ReplayBufferAdd : busy.block.rb.length ≠ 512 ∧
    (storing (List.replicate 512 7#9)).block.rb.length = 512 := by
  refine ⟨by decide, ?_⟩
  simp [storing, withBlock]
theorem witness_RetireThrough : Instr.epProcessAck 511 ∈ [Instr.rbRetireThrough 511, .epProcessAck 511] ∧
    (busy.block.rb[0]?).map Entry.seq = some 510 ∧ (busy.block.rb[1]?).map Entry.seq = some 511 := by decide +kernel
theorem witness_CumulativeAck_retires : (1#9 : Seq) ≠ 0#9 ∧ State.reset.block.rb = [] ∧
    (List.replicate 511 (zeros 640)).length ≤ 511 ∧ 1 ≤ 255 ∧ 255 ≤ (List.replicate 511 (zeros 640)).length := by
  refine ⟨by decide, rfl, ?_, by decide, ?_⟩ <;> simp
theorem witness_CumulativeAck_limit : 1 ≤ 256 ∧ 256 ≤ (List.replicate 256 (zeros 640)).length ∧ ¬ 256 ≤ 255 := by
  refine ⟨by decide, ?_, by decide⟩
  simp
theorem witness_ReplayBufferEnds : (∃ e rest, busy.block.rb = e :: rest) ∧ (∃ e before, busy.block.rb = before ++ [e]) ∧
    State.reset.block.rb = [] := ⟨⟨_, _, rfl⟩, ⟨_, [_], rfl⟩, rfl⟩
theorem witness_SequenceZero : busy.block.expectedSeq ≠ 0#9 ∧ ∀ e ∈ busy.block.rb, e.seq ≠ 0#9 := by
  refine ⟨by decide, ?_⟩
  simp [busy]
theorem witness_TrackerAdvances : State.reset.block.expectedSeq = 1#9 := by decide
theorem witness_AllocatedNumbers : State.reset.block.tx.lastSeq = 0#9 := by decide
theorem witness_Tick : busy.block.tx.firstReplay = true ∧
    (withTx { txTen with explicitCount := 1 }).block.tx.firstReplay = false ∧
    (withTx { txTen with explicitCount := 1 }).block.tx.explicitCount.toNat = 1 ∧
    2 ≤ (withTx { txTen with explicitCount := 2 }).block.tx.explicitCount.toNat ∧
    2 ≤ State.reset.block.tx.explicitCount.toNat ∧
    (withTx { txTen with explicitCount := 0 }).block.tx.explicitCount.toNat = 0 := by decide
theorem witness_TickPeriod : State.reset.block.tx.firstReplay = false ∧ State.reset.block.tx.explicitCount.toNat = 31 := by
  decide
theorem witness_CommandRecognition : hdrPayloadBit (sealed 0x10 1) = 1 ∧
    (hdrPayloadBit (flitEnding 0x40 8 0 (zeros 4)) = 0 ∧ ¬ CrcMatches false (flitEnding 0x40 8 0 (zeros 4))) ∧
    (hdrPayloadBit (sealed 0x4F 0xFF) = 0 ∧ CrcMatches false (sealed 0x4F 0xFF) ∧ hdrOp (sealed 0x4F 0xFF) = 2) ∧
    (hdrPayloadBit (sealed 0x60 8) = 0 ∧ CrcMatches false (sealed 0x60 8) ∧ hdrOp (sealed 0x60 8) = 3) ∧
    (hdrPayloadBit (sealed 0x80 0) = 0 ∧ CrcMatches false (sealed 0x80 0) ∧ hdrOp (sealed 0x80 0) ≠ 2 ∧
      hdrOp (sealed 0x80 0) ≠ 3) :=
  ⟨rfl, ⟨rfl, bad_command_flit⟩, ⟨rfl, sealed_matches .., rfl⟩, ⟨rfl, sealed_matches .., rfl⟩,
    rfl, sealed_matches .., by decide, by decide⟩
theorem witness_BuiltCommands : State.reset.cfg.crcReflect = busy.cfg.crcReflect := by decide
/-- At its edges: the batch is full; it is not; distance 255; distance 256. -/
theorem witness_AckManager :
    (511#9 = busy.block.expectedSeq ∧ busy.cfg.ackEveryN ≤ busy.block.arm.flitsSinceAck + 1) ∧
    ({ State.reset with cfg := busy.cfg }.cfg.ackEveryN ≠ 0 ∧
      { State.reset with cfg := busy.cfg }.block.arm.flitsSinceAck + 1 < busy.cfg.ackEveryN) ∧
    (1 ≤ distance State.reset.block.expectedSeq 257#9 ∧ distance State.reset.block.expectedSeq 257#9 ≤ 255) ∧
    (256#9 ≠ State.reset.block.expectedSeq ∧ ¬ (1 ≤ distance State.reset.block.expectedSeq 256#9 ∧
      distance State.reset.block.expectedSeq 256#9 ≤ 255)) := by decide
theorem witness_AcksAreBatched : State.reset.block.arm.flitsSinceAck = 0 ∧ busy.cfg.ackEveryN ≠ 0 ∧
    (3 + 1) % busy.cfg.ackEveryN = 0 ∧ (0 + 1) % busy.cfg.ackEveryN ≠ 0 ∧ State.reset.cfg.ackEveryN = 0 ∧
    2#9 ≠ State.reset.block.expectedSeq := by decide
theorem witness_SendPayload : [tlA].length ≤ 7 ∧ busy.block.rb.length ≠ 512 ∧ busy.block.tx.explicitCount ≠ 0#5 ∧
    (storing (List.replicate 512 7#9)).block.rb.length = 512 := by
  refine ⟨by decide, by decide, by decide, ?_⟩
  simp [storing, withBlock]
theorem witness_BadCrc : (¬ CrcMatches State.reset.cfg.crcReflect (flitEnding 0x10 1 0 (zeros 4)) ∧
      hdrPayloadBit (flitEnding 0x10 1 0 (zeros 4)) = 1) ∧
    (¬ CrcMatches State.reset.cfg.crcReflect (flitEnding 0x40 8 0 (zeros 4)) ∧
      hdrPayloadBit (flitEnding 0x40 8 0 (zeros 4)) = 0) := ⟨⟨bad_payload_flit, rfl⟩, bad_command_flit, rfl⟩
/-- Expected; a duplicate at distance 255; a gap at distance 256; and an unassigned `op` with `payload_bit` 0. -/
theorem witness_PayloadReception : CrcMatches State.reset.cfg.crcReflect (sealed 0x10 1) ∧ hdrPayloadBit (sealed 0x10 1) = 1 ∧
    hdrSeqNo (sealed 0x10 1) = State.reset.block.expectedSeq.toNat ∧
    (State.reset.block.expectedSeq.toNat - hdrSeqNo (sealed 0x11 1) : Int) % 511 = 255 ∧
    (State.reset.block.expectedSeq.toNat - hdrSeqNo (sealed 0x11 0) : Int) % 511 = 256 ∧
    hdrOp (sealed 0x80 1) ≠ 2 ∧ hdrOp (sealed 0x80 1) ≠ 3 :=
  ⟨sealed_matches .., rfl, rfl, by decide, by decide, by decide, by decide⟩
theorem witness_CommandReception : CrcMatches State.reset.cfg.crcReflect (sealed 0x40 8) ∧
    hdrPayloadBit (sealed 0x40 8) = 0 ∧ hdrOp (sealed 0x40 8) = 2 ∧ CrcMatches State.reset.cfg.crcReflect (sealed 0x60 8) ∧
    hdrPayloadBit (sealed 0x60 8) = 0 ∧ hdrOp (sealed 0x60 8) = 3 :=
  ⟨sealed_matches .., rfl, rfl, sealed_matches .., rfl, rfl⟩
theorem witness_ReplayReemits : (rbReplayIter 511 busy.block).length = 1 ∧ (rbReplayIter 3 busy.block).length = 0 := by
  decide +kernel
theorem witness_SentPayload : [tlA].length ≤ 7 ∧ State.reset.cfg.crcReflect = State.reset.cfg.crcReflect ∧
    State.reset.block.rb.length ≠ 512 ∧ State.reset.block.tx.explicitCount ≠ 0#5 ∧
    State.reset.block.expectedSeq = wrapSeq State.reset.block.tx.lastSeq := by decide
/-- With 254 flits outstanding, numbers 300 to 511 and 1 to 42. -/
theorem witness_AckOfSentPayload :
    let x := withBlock { Block.reset with
      rb := (ringFrom 300#9 254).map fun q => { seq := q, flit := zeros 640 }, tx := { txTen with lastSeq := 42 } }
    let y := expecting 43
    [tlA].length ≤ 7 ∧ x.cfg.crcReflect = y.cfg.crcReflect ∧ y.cfg.ackEveryN = 0 ∧ x.block.tx.explicitCount ≠ 0#5 ∧
    x.block.tx.inReplay = false ∧ (300#9 : Seq) ≠ 0#9 ∧ 254 ≤ 254 ∧ x.block.rb.map Entry.seq = ringFrom 300#9 254 ∧
    wrapSeq x.block.tx.lastSeq = wrapSeq^[254] 300#9 ∧ y.block.expectedSeq = wrapSeq x.block.tx.lastSeq := by
  refine ⟨by decide, rfl, rfl, by decide, rfl, by decide, by decide, ?_, by decide +kernel, by decide⟩
  simp [withBlock, Function.comp_def]
/-- EP_SEND_PAYLOAD; and RB_ADD of a sound flit, header `10 01 00` with its CRC, under its number 1. -/
theorem witness_StoredFlits : StoredFlitsSound State.reset ∧
    (∀ q f, Instr.epSendPayload [tlA] = .rbAdd q f → Entry.Sound State.reset.cfg.crcReflect { seq := q, flit := f }) ∧
    (∃ t, exec (.epSendPayload [tlA]) State.reset = .next t) ∧
    (∀ q f, Instr.rbAdd 1 (sealed 0x10 1) = .rbAdd q f → Entry.Sound State.reset.cfg.crcReflect { seq := q, flit := f }) ∧
    ∃ t, exec (.rbAdd 1 (sealed 0x10 1)) State.reset = .next t := by
  refine ⟨?_, ?_, ⟨_, rfl⟩, ?_, _, rfl⟩
  · intro e h; cases h
  · intro q f h; cases h
  · intro q f h; cases h; exact ⟨sealed_matches .., rfl, rfl⟩
/-- Unbounded; and a finite FIFO with room for exactly one more. -/
theorem witness_Enqueue_room : State.reset.cfg.arbFifoDepth = none ∧
    (ofFifoDepth 2).cfg.arbFifoDepth = some 2 ∧ (queueOf (ofFifoDepth 2).block.dmq .basic).length < 2 := by decide
theorem witness_Enqueue : (List.replicate 32 (7 : DWord)).length ≤ 32 ∧ DlClass.uart = .uart ∧
    ([] : List DWord).length = 0 ∧ 33 < (List.replicate 34 (7 : DWord)).length ∧
    (([7, 8] : List DWord).length ≠ 1 ∧ DlClass.basic ≠ .uart) := by decide
theorem witness_PopUnderTheLock : busy.block.dmq.uartMultiProgress = true ∧ busy.block.dmq.uartPending = 0xF1 :: [0xF2] ∧
    (withDmq { Dmq.reset with uartMultiProgress := true }).block.dmq.uartMultiProgress = true ∧
    (withDmq { Dmq.reset with uartMultiProgress := true }).block.dmq.uartPending = [] := by decide
/-- Nothing waiting; and Control empty, so that Uart, second in the order after None, is served. -/
theorem witness_PopRoundRobin :
    let s := withDmq { Dmq.reset with qUart := [⟨0xE0, [0xE1]⟩] }
    s.block.dmq.uartMultiProgress = false ∧ s.block.dmq.lastServed = none ∧ s.cfg.rrFirstAfterNone = .control ∧
    [DlClass.control, .uart, .basic] = [.control] ++ .uart :: [.basic] ∧
    (∀ c' ∈ [DlClass.control], queueOf s.block.dmq c' = []) ∧ queueOf s.block.dmq .uart = ⟨0xE0, [0xE1]⟩ :: [] ∧
    State.reset.block.dmq.uartMultiProgress = false ∧
    (∀ c ∈ [DlClass.basic, .control, .uart], queueOf State.reset.block.dmq c = []) := by decide
theorem witness_TransportIsNotInterrupted : busy.block.dmq.uartMultiProgress = true ∧ busy.block.dmq.uartPending ≠ [] ∧
    Instr.reset ∉ [Instr.dmqPopNextDword, .dmqEnqueue .control [1], .dmqPopNextDword] ∧
    List.count Instr.dmqPopNextDword [Instr.dmqPopNextDword, .dmqEnqueue .control [1], .dmqPopNextDword] ≤
      busy.block.dmq.uartPending.length ∧
    ∃ t, runOps [Instr.dmqPopNextDword, .dmqEnqueue .control [1], .dmqPopNextDword] busy = .next t :=
  ⟨by decide, by decide, by decide, by decide, _, rfl⟩
theorem witness_RoundRobinIsFair :
    let s := withDmq { Dmq.reset with qBasic := [⟨0xB0, []⟩], qControl := [⟨0xC0, []⟩], qUart := [⟨0xD0, []⟩, ⟨0xE0, [1]⟩] }
    s.block.dmq.uartMultiProgress = false ∧ (∀ c, 1 ≤ (queueOf s.block.dmq c).length) ∧
    ∀ c p, p ∈ (queueOf s.block.dmq c).take 1 → p.rest = [] := by
  refine ⟨rfl, ?_, ?_⟩
  · intro c; cases c <;> decide
  · intro c p h
    cases c <;> simp [withDmq, withBlock, queueOf] at h <;> subst h <;> rfl
theorem witness_LegalStatesStayLegal : busy.Legal ∧ ∃ t, step busy = .next t := ⟨busy_legal, _, rfl⟩
/-- DMQ_ENQUEUE where the FIFO of its class, of depth 1, is empty. -/
theorem witness_WellFormedInstructionsComplete : busy.Legal ∧ (Instr.dmqEnqueue .control [1]).wellFormed = true ∧
    ∀ c dws depth, Instr.dmqEnqueue .control [1] = .dmqEnqueue c dws → busy.cfg.arbFifoDepth = some depth →
      (queueOf busy.block.dmq c).length < depth := by
  refine ⟨busy_legal, rfl, ?_⟩
  intro c dws depth h hd; cases h; cases hd; decide
/-- Full at depth 1 with one packet, and at depth 0 with none. -/
theorem witness_FullFifo : (Instr.dmqEnqueue .basic [1]).wellFormed = true ∧
    (Instr.dmqEnqueue .uart [1, 2]).wellFormed = true ∧
    ((ofFifoDepth 1).cfg.arbFifoDepth = some 1 ∧ 1 ≤ (queueOf (ofFifoDepth 1).block.dmq .basic).length) ∧
    ((ofFifoDepth 0).cfg.arbFifoDepth = some 0 ∧ 0 ≤ (queueOf (ofFifoDepth 0).block.dmq .uart).length) := by decide
theorem witness_OnlyNamedOperationsWrite : ∃ t, exec .dmqPopNextDword busy = .next t := ⟨_, rfl⟩
/-- The error kinds an instruction reports (FieldOutOfRange belongs to a call that is no instruction). -/
theorem witness_Errors :
    (∃ t a, exec (.epReplayFrom 3) busy = .next t ∧ t.trace = busy.trace ++ [a] ∧
      reportedError (.epReplayFrom 3) a.result = some .replayRequestForUnknownSeq) ∧
    (∃ t a, exec (.rbAdd 1 (zeros 640)) (storing (List.replicate 512 7#9)) = .next t ∧
      t.trace = (storing (List.replicate 512 7#9)).trace ++ [a] ∧
      reportedError (.rbAdd 1 (zeros 640)) a.result = some .replayBufferFull) ∧
    (∃ t a, exec (.flitUnpackChecked (flitEnding 0x10 1 0 (zeros 4))) busy = .next t ∧ t.trace = busy.trace ++ [a] ∧
      reportedError (.flitUnpackChecked (flitEnding 0x10 1 0 (zeros 4))) a.result = some .crcError) := by
  refine ⟨⟨_, _, rfl, rfl, by decide +kernel⟩, ⟨_, _, rfl, rfl, by decide +kernel⟩, ⟨_, _, rfl, rfl, by decide +kernel⟩⟩

end Sys2Proof.Tests
end

/-! SUPPORT. Proofs of the state's invariants (10_state.md): what a step and an operation that completes can do, one
lemma per part of a legal block that an operation replaces, and the theorems these give. -/

namespace Sys2Proof.Machine

/-! ## What a step and an operation with more than one outcome can do -/

/-- A request that is no instruction, where the machine goes on: an error result, the block as it is (R170, R175). -/
theorem reject_next {s t : State} {e : Reject} (h : s.reject e = .next t) : ∃ r, t = s.answer s.block [] r := by
  cases e with
  | fieldOutOfRange field value width => cases h; exact ⟨_, rfl⟩
  | operandShape | byteCount | noWireFormat | compressedFlagSet => cases h

/-- A step: nothing is presented, the next request is an instruction and runs, or it is none and an error is the
answer. -/
theorem step_next_cases {s t : State} (h : step s = .next t) :
    t = s ∨ ∃ r rest, s.program = r :: rest ∧
      ((∃ i, decode r = .ok i ∧ exec i { s with program := rest } = .next t) ∨
        ∃ res, t = State.answer { s with program := rest } s.block [] res) := by
  cases hp : s.program with
  | nil => rw [step, fetch_nil s hp] at h; cases h; exact .inl rfl
  | cons r rest =>
    refine .inr ⟨r, rest, rfl, ?_⟩
    simp only [step, fetch_cons s r rest hp] at h
    split at h
    · next i hd => exact .inl ⟨i, hd, h⟩
    · exact .inr (reject_next h)

/-- FLIT_PACK, where it is admitted, only reads (R13, R82). -/
theorem execFlitPack_next {tls op pb q} {s t : State} (h : execFlitPack tls op pb q s = .next t) :
    ∃ r, t = s.answer s.block [] r := by
  unfold execFlitPack at h
  split at h
  · cases h; exact ⟨_, rfl⟩
  · cases h

/-- TX_TICK_EXPLICIT_COUNT, where it completes, puts the ticked controller into the block (R119). -/
theorem execTxTickExplicitCount_next {s t : State} (h : execTxTickExplicitCount s = .next t) :
    ∃ opp tx, tick s.block.tx = .ok (opp, tx) ∧ t = s.answer { s.block with tx := tx } [] (.bool opp) := by
  unfold execTxTickExplicitCount txTick at h
  cases ht : tick s.block.tx with
  | ok r => rw [ht] at h; cases h; exact ⟨r.1, r.2, rfl, rfl⟩
  | error e => rw [ht] at h; cases h

/-- DMQ_POP_NEXT_DWORD, where it completes, puts the popped arbiter into the block (R151). -/
theorem execDmqPopNextDword_next {s t : State} (h : execDmqPopNextDword s = .next t) :
    ∃ r, dmqPop s.cfg.rrFirstAfterNone s.block.dmq = .ok r ∧
      t = s.answer { s.block with dmq := r.2 } [] (.optBytes r.1) := by
  unfold execDmqPopNextDword at h
  split at h
  · next r hr => cases h; exact ⟨r, hr, rfl⟩
  · cases h

/-- DMQ_ENQUEUE, where it completes: the packet is admitted, has room, and goes to the back of its FIFO (R150). -/
theorem execDmqEnqueue_next {c dws} {s t : State} (h : execDmqEnqueue c dws s = .next t) :
    ∃ first rest, packetAdmitted c (first :: rest) = true ∧ fifoHasRoom s.cfg s.block.dmq c = true ∧
      t = s.answer { s.block with dmq := dmqEnqueue c { first := first, rest := rest } s.block.dmq } [] .none := by
  rcases execDmqEnqueue_cases c dws s with ⟨-, e⟩ | ⟨-, -, e⟩ | ⟨first, rest, rfl, ha, hr, e⟩ <;> rw [e] at h
  · cases h
  · cases h
  · cases h; exact ⟨first, rest, ha, hr, rfl⟩

/-- EP_SEND_PAYLOAD, where it completes: the replay buffer is full and the block stays as it is, or the flit is packed
under the next number, kept unless in replay, and the tick is made (R138). -/
theorem execEpSendPayload_next {tls} {s t : State} (h : execEpSendPayload tls s = .next t) :
    t = s.answer s.block [] .replayBufferFull ∨
    ∃ (hl : tls.length ≤ 7) (q : Seq) (f : Flit) (opp : Bool) (tx : Tx), s.block.rb.length ≠ 512 ∧
      q = wrapSeq s.block.tx.lastSeq ∧ f = flitPack s.cfg.crcReflect tls hl 0b000#3 1#1 q ∧
      tick { s.block.tx with lastSeq := q } = .ok (opp, tx) ∧
      t = s.answer { s.block with
        rb := if s.block.tx.inReplay then s.block.rb else s.block.rb ++ [{ seq := q, flit := f }], tx := tx }
        [.transmit f] (.sent q opp) := by
  unfold execEpSendPayload at h
  split at h
  · next hl =>
    rcases epSendPayload_cases s.cfg.crcReflect tls hl s.block with
      ⟨-, e⟩ | ⟨hb, f, hf, ⟨opp, tx, ht, e⟩ | ⟨x, -, e⟩⟩ <;> rw [e] at h <;> cases h
    · exact .inl rfl
    · exact .inr ⟨hl, _, f, opp, tx, hb, rfl, hf, ht, rfl⟩
  · cases h

/-- Every operation that completes answers, and of the machine writes nothing but the block and the trace (R6, R23). -/
theorem exec_next_answer {i : Instr} {s t : State} (h : exec i s = .next t) : ∃ b es r, t = s.answer b es r := by
  cases i with
  | flitPack => obtain ⟨r, rfl⟩ := execFlitPack_next h; exact ⟨_, _, _, rfl⟩
  | txTickExplicitCount => obtain ⟨opp, tx, -, rfl⟩ := execTxTickExplicitCount_next h; exact ⟨_, _, _, rfl⟩
  | dmqEnqueue => obtain ⟨first, rest, -, -, rfl⟩ := execDmqEnqueue_next h; exact ⟨_, _, _, rfl⟩
  | dmqPopNextDword => obtain ⟨r, -, rfl⟩ := execDmqPopNextDword_next h; exact ⟨_, _, _, rfl⟩
  | epSendPayload =>
    rcases execEpSendPayload_next h with rfl | ⟨-, q, f, opp, tx, -, -, -, -, rfl⟩ <;> exact ⟨_, _, _, rfl⟩
  -- The other operations complete on every path.
  | _ => cases h; exact ⟨_, _, _, rfl⟩

theorem exec_cfg {i : Instr} {s t : State} (h : exec i s = .next t) : t.cfg = s.cfg := by
  obtain ⟨b, es, r, rfl⟩ := exec_next_answer h
  rfl

/-- The block the payload path leaves is the one ARM_PROCESS_RECEIVED leaves (R139). -/
theorem receivePayload_block (cfg : Config) (f : Flit) (tls : List Tl) (b : Block) :
    (receivePayload cfg f tls b).2.2 =
      (armProcessReceived cfg (decExplicit (flitHeader f)).flitSeqNo (txLo b.tx) b).2 := by
  simp only [receivePayload]
  split <;> rfl

/-! ## The parts of a legal state -/

/-- A packet the FIFO of class `c` may hold: of more than one DWord only in Uart, and of at most 33 (R20, R64). -/
def Packet.Fits (c : DlClass) (p : Packet) : Prop := p.rest.length ≤ 32 ∧ (c ≠ .uart → p.rest = [])

/-- What `Block.Legal` says of the arbiter, the three FIFOs under one statement. -/
structure Dmq.Legal (cfg : Config) (d : Dmq) : Prop where
  lockPending : d.uartMultiProgress = true ↔ d.uartPending ≠ []
  pendingBound : d.uartPending.length ≤ 32
  packetsFit : ∀ c, ∀ p ∈ queueOf d c, p.Fits c
  queuesFit : ∀ depth, cfg.arbFifoDepth = some depth → ∀ c, (queueOf d c).length ≤ depth

section
variable {cfg : Config} {b : Block}

theorem Block.Legal.dmq (h : b.Legal cfg) : b.dmq.Legal cfg where
  lockPending := h.lockPending
  pendingBound := h.pendingBound
  packetsFit := by
    intro c p hp
    cases c with
    | basic => have := h.basicSingle p hp; exact ⟨by simp [this], fun _ => this⟩
    | control => have := h.controlSingle p hp; exact ⟨by simp [this], fun _ => this⟩
    | uart => exact ⟨h.uartBound p hp, fun hc => absurd rfl hc⟩
  queuesFit := h.queuesFit

/-! ## Replacing one part of a legal block -/

theorem Block.Legal.with_rb (h : b.Legal cfg) {l : List Entry} (hl : l.length ≤ 512) :
    Block.Legal cfg { b with rb := l } := { h with rbBound := hl }

theorem Block.Legal.with_expectedSeq (h : b.Legal cfg) {q : Seq} (hq : q ≠ 0#9) :
    Block.Legal cfg { b with expectedSeq := q } := { h with expectedValid := hq }

theorem Block.Legal.with_tx (h : b.Legal cfg) {t : Tx} (hc : t.explicitCount ≠ 0#5)
    (hf : t.firstReplay = true → t.inReplay = true) : Block.Legal cfg { b with tx := t } :=
  { h with countNonzero := hc, firstInReplay := hf }

theorem Block.Legal.with_arm (h : b.Legal cfg) {n : Nat} (hn : n ≤ cfg.ackEveryN - 1) :
    Block.Legal cfg { b with arm := { flitsSinceAck := n } } := { h with batchBound := hn }

theorem Block.Legal.with_dmq (h : b.Legal cfg) {d : Dmq} (hd : d.Legal cfg) : Block.Legal cfg { b with dmq := d } :=
  { h with
    lockPending := hd.lockPending
    pendingBound := hd.pendingBound
    basicSingle := fun p hp => (hd.packetsFit .basic p hp).2 (by decide)
    controlSingle := fun p hp => (hd.packetsFit .control p hp).2 (by decide)
    uartBound := fun p hp => (hd.packetsFit .uart p hp).1
    queuesFit := hd.queuesFit }

/-! ## Counting in a legal block -/

/-- Whatever was counted, a finite counter holds the result (R5, R198). -/
theorem countUp_lt {w : Nat} (hw : cfg.statWidth = some w) (c : Counter) (n : Nat) : countUp cfg c n < 2 ^ w := by
  have := countUp_counted cfg c n
  rw [hw] at this
  exact this.2

/-- One counter of a legal block, the k-th, counts one event. -/
theorem Block.Legal.countersFit_set (h : b.Legal cfg) (k : Nat) (c : Counter) (n : Nat) :
    ∀ w, cfg.statWidth = some w → ∀ m ∈ b.counters.set k (countUp cfg c n), m < 2 ^ w := by
  intro w hw m hm
  rcases List.mem_or_eq_of_mem_set hm with hm | rfl
  · exact h.countersFit w hw m hm
  · exact countUp_lt hw c n

theorem Block.Legal.acksSent_countUp (h : b.Legal cfg) (n : Nat) :
    Block.Legal cfg { b with stats := { b.stats with acksSent := countUp cfg .acksSent n } } :=
  { h with countersFit := h.countersFit_set 1 .acksSent n }

theorem Block.Legal.replayRequestsSent_countUp (h : b.Legal cfg) (n : Nat) :
    Block.Legal cfg { b with stats := { b.stats with replayRequestsSent := countUp cfg .replayRequestsSent n } } :=
  { h with countersFit := h.countersFit_set 2 .replayRequestsSent n }

theorem Block.Legal.acksReceived_countUp (h : b.Legal cfg) (n : Nat) :
    Block.Legal cfg { b with cmd := { b.cmd with acksReceived := countUp cfg .acksReceived n } } :=
  { h with countersFit := h.countersFit_set 3 .acksReceived n }

theorem Block.Legal.replayRequestsReceived_countUp (h : b.Legal cfg) (n : Nat) :
    Block.Legal cfg
      { b with cmd := { b.cmd with replayRequestsReceived := countUp cfg .replayRequestsReceived n } } :=
  { h with countersFit := h.countersFit_set 4 .replayRequestsReceived n }

theorem Block.Legal.rxCrcErrors_countUp (h : b.Legal cfg) (n : Nat) :
    Block.Legal cfg { b with rxCrcErrors := countUp cfg .rxCrcErrors n } :=
  { h with countersFit := h.countersFit_set 5 .rxCrcErrors n }

theorem Block.Legal.replayUnknownSeq_countUp (h : b.Legal cfg) (n : Nat) :
    Block.Legal cfg { b with replayUnknownSeq := countUp cfg .replayUnknownSeq n } :=
  { h with countersFit := h.countersFit_set 6 .replayUnknownSeq n }

/-- The statistics zeroed (R122). -/
theorem Block.Legal.stats_reset (h : b.Legal cfg) : Block.Legal cfg { b with stats := TxStats.reset } :=
  { h with
    countersFit := by
      intro w hw n hn
      rcases List.mem_append.1 (show n ∈ List.replicate 3 0 ++ b.counters.drop 3 from hn) with hzero | hkept
      · rw [List.eq_of_mem_replicate hzero]; exact Nat.two_pow_pos w
      · exact h.countersFit w hw n (List.mem_of_mem_drop hkept) }

/-! ## The operations on the block keep it legal -/

/-- The power-on block is legal under every configuration (R26, R27). -/
theorem Block.reset_legal (cfg : Config) : Block.reset.Legal cfg := by
  constructor <;> simp [Block.reset, Tx.reset, Dmq.reset, TxStats.reset, Block.counters]
  intro depth _ c
  cases c <;> simp [queueOf]

theorem Block.Legal.rbAdd (h : b.Legal cfg) (q : Seq) (f : Flit) : (rbAdd q f b).2.Legal cfg := by
  rcases rbAdd_cases q f b with ⟨-, e⟩ | ⟨hn, e⟩ <;> rw [e]
  · exact h
  · have := h.rbBound
    exact h.with_rb (by rw [List.length_append, List.length_singleton]; omega)

theorem Block.Legal.rbRetireThrough (h : b.Legal cfg) (a : Seq) : (rbRetireThrough a b).Legal cfg :=
  h.with_rb ((retire_length_le a b.rb).trans h.rbBound)

theorem Block.Legal.txStartReplay (h : b.Legal cfg) : (txStartReplay cfg b).Legal cfg :=
  { h with firstInReplay := fun _ => rfl, countersFit := h.countersFit_set 0 .replaySequences _ }

theorem Block.Legal.txFinishReplay (h : b.Legal cfg) : (txFinishReplay b).Legal cfg :=
  h.with_tx h.countNonzero (fun hf => by cases hf)

/-- The tick made on a controller with the legal count of `b`, under whatever number (R119). -/
theorem Block.Legal.ticked (h : b.Legal cfg) {q : Seq} {opp : Bool} {tx : Tx}
    (ht : tick { b.tx with lastSeq := q } = .ok (opp, tx)) : Block.Legal cfg { b with tx := tx } := by
  obtain ⟨opp', tx', e, -, -, hf, hc⟩ := tick_ok { b.tx with lastSeq := q } h.countNonzero
  rw [e] at ht
  cases ht
  exact h.with_tx hc (fun x => by simp [hf] at x)

theorem Block.Legal.epReplayFrom (h : b.Legal cfg) (r : Seq) : (epReplayFrom cfg r b).2.2.Legal cfg := by
  rcases epReplayFrom_cases cfg r b with ⟨-, e⟩ | ⟨-, e⟩ <;> rw [e]
  · exact h.replayUnknownSeq_countUp _
  · exact h.txStartReplay.txFinishReplay

theorem Block.Legal.cmdProcess (h : b.Legal cfg) (f : Flit) : (cmdProcess cfg f b).2.2.Legal cfg := by
  rcases cmdProcess_cases cfg f b with ⟨-, e⟩ | ⟨-, -, e⟩ | ⟨-, -, -, e⟩ | ⟨-, -, -, e⟩ | ⟨-, -, -, -, e⟩ <;> rw [e]
  · exact h
  · exact h
  · exact h.acksReceived_countUp _
  · exact h.replayRequestsReceived_countUp _
  · exact h

/-- The count of a batch stays below ACK_EVERY_N, as it is zeroed when the batch is due (R133, R134). -/
theorem Block.Legal.armProcessReceived (h : b.Legal cfg) (q : Seq) (lo : BitVec 3) :
    (armProcessReceived cfg q lo b).2.Legal cfg := by
  have hadv := h.with_expectedSeq (wrapSeq_ne_zero b.expectedSeq)
  rcases armProcessReceived_cases cfg q lo b with ⟨-, -, e⟩ | ⟨-, hd, e⟩ | ⟨-, e⟩ | ⟨-, e⟩ <;> rw [e]
  · exact hadv.with_arm (Nat.zero_le _)
  · have hbatch : ¬ (cfg.ackEveryN = 0 ∨ cfg.ackEveryN ≤ b.arm.flitsSinceAck + 1) := by
      rw [← ackDue_iff, hd]; decide
    exact hadv.with_arm (by omega)
  · exact h
  · exact h

theorem Block.Legal.epReceiveFlit (h : b.Legal cfg) (f : Flit) : (epReceiveFlit cfg f b).2.2.Legal cfg := by
  rcases epReceiveFlit_cases cfg f b with
    ⟨-, -, e⟩ | ⟨-, -, -, e⟩ | ⟨-, -, -, e⟩ | ⟨-, -, e⟩ | ⟨-, -, e⟩ <;> rw [e]
  · exact h
  · exact (h.acksReceived_countUp _).rbRetireThrough _
  · exact (h.replayRequestsReceived_countUp _).epReplayFrom _
  · exact h.rxCrcErrors_countUp _
  · rw [receivePayload_block]; exact h.armProcessReceived _ _

end

/-! ## The arbiter -/

section
variable {cfg : Config} {d : Dmq}

/-- One FIFO of a legal arbiter replaced. -/
theorem Dmq.Legal.setQueue (h : d.Legal cfg) {c : DlClass} {l : List Packet} (hp : ∀ p ∈ l, p.Fits c)
    (hl : ∀ depth, cfg.arbFifoDepth = some depth → l.length ≤ depth) : (setQueue d c l).Legal cfg where
  lockPending := by simpa using h.lockPending
  pendingBound := by simpa using h.pendingBound
  packetsFit := by
    intro c'
    by_cases hc : c' = c
    · subst hc; simpa using hp
    · rw [queueOf_setQueue_other d c c' l hc]; exact h.packetsFit c'
  queuesFit := by
    intro depth hd c'
    by_cases hc : c' = c
    · subst hc; simpa using hl depth hd
    · rw [queueOf_setQueue_other d c c' l hc]; exact h.queuesFit depth hd c'

/-- What R150 admits is what the FIFO may hold. -/
theorem Packet.fits_of_admitted {c : DlClass} {first : DWord} {rest : List DWord}
    (h : packetAdmitted c (first :: rest) = true) : Packet.Fits c { first := first, rest := rest } := by
  simp only [packetAdmitted, Bool.and_eq_true, Bool.or_eq_true, decide_eq_true_eq, List.length_cons] at h
  obtain ⟨⟨-, h33⟩, hone⟩ := h
  refine ⟨Nat.le_of_succ_le_succ h33, fun hc => ?_⟩
  have hz : rest.length + 1 = 1 := hone.resolve_right hc
  simpa using hz

theorem Dmq.Legal.enqueue (h : d.Legal cfg) {c : DlClass} {p : Packet} (hp : p.Fits c)
    (hr : fifoHasRoom cfg d c = true) : (dmqEnqueue c p d).Legal cfg := by
  refine h.setQueue ?_ ?_
  · intro p' hp'
    rcases List.mem_append.1 hp' with hold | hnew
    · exact h.packetsFit c p' hold
    · rw [List.mem_singleton.1 hnew]; exact hp
  · intro depth hd
    have := (fifoHasRoom_iff cfg d c).1 hr depth hd
    simpa using this

/-- Starting the front packet of a FIFO: of a packet of several DWords the others are pending after, under the lock
(R20, R151). -/
theorem Dmq.Legal.servePacket (h : d.Legal cfg) {c : DlClass} {p : Packet} {others : List Packet}
    (hq : queueOf d c = p :: others) : (servePacket d c p others).2.Legal cfg := by
  have hfit : ∀ p' ∈ p :: others, p'.Fits c := fun p' hp' => h.packetsFit c p' (hq ▸ hp')
  have hset : (Machine.setQueue d c others).Legal cfg := by
    refine h.setQueue (fun p' hp' => hfit p' (List.mem_cons_of_mem _ hp')) ?_
    intro depth hd
    have := h.queuesFit depth hd c
    rw [hq, List.length_cons] at this
    omega
  rcases servePacket_cases d c p others with ⟨-, e⟩ | ⟨hne, e⟩ <;> rw [e]
  · exact { hset with }
  · exact { hset with
      lockPending := ⟨fun _ => hne, fun _ => rfl⟩
      pendingBound := (hfit p List.mem_cons_self).1 }

theorem Dmq.Legal.roundRobin (h : d.Legal cfg) (order : List DlClass) : (roundRobin order d).2.Legal cfg := by
  rcases roundRobin_cases order d with ⟨-, e⟩ | ⟨-, c, -, p, others, -, -, hq, e⟩ <;> rw [e]
  · exact h
  · exact h.servePacket hq

/-- A pop that completes: the lock goes with the last pending DWord, or a packet is started (R151). -/
theorem Dmq.Legal.pop (h : d.Legal cfg) {rr : RrFirst} {r : Option (Bytes 4) × Dmq} (hp : dmqPop rr d = .ok r) :
    r.2.Legal cfg := by
  rcases dmqPop_cases rr d with ⟨-, -, e⟩ | ⟨x, rest, -, hpend, e⟩ | ⟨-, e⟩ <;> rw [e] at hp <;> cases hp
  · have hb : rest.length + 1 ≤ 32 := by simpa [hpend] using h.pendingBound
    exact { h with lockPending := decide_eq_true_iff, pendingBound := Nat.le_of_succ_le hb }
  · exact h.roundRobin _

end

/-! ## Legal states (R27) -/

/-- Every operation that completes leaves a legal machine legal. -/
theorem exec_keeps_legal {i : Instr} {s t : State} (hs : s.Legal) (h : exec i s = .next t) : t.Legal := by
  cases i with
  | flitPack => obtain ⟨r, rfl⟩ := execFlitPack_next h; exact hs
  | rbAdd q f => cases h; exact hs.rbAdd q f
  | rbRetireThrough a | epProcessAck a => cases h; exact hs.rbRetireThrough a
  | rbClear => cases h; exact hs.with_rb (Nat.zero_le _)
  | stAdvance => cases h; exact hs.with_expectedSeq (wrapSeq_ne_zero _)
  | stReset => cases h; exact hs.with_expectedSeq (by decide)
  | txNextPayloadSeq => cases h; exact hs.with_tx hs.countNonzero hs.firstInReplay
  | txStartReplay => cases h; exact hs.txStartReplay
  | txFinishReplay => cases h; exact hs.txFinishReplay
  | txTickExplicitCount => obtain ⟨opp, tx, ht, rfl⟩ := execTxTickExplicitCount_next h; exact hs.ticked ht
  | txMakeAck => cases h; exact hs.acksSent_countUp _
  | txMakeReplayRequest => cases h; exact hs.replayRequestsSent_countUp _
  | txReset zeroStats =>
    have htx : Block.Legal s.cfg { s.block with tx := Tx.reset } := hs.with_tx (by decide) (by decide)
    cases zeroStats with
    | false => cases h; exact htx
    | true => cases h; exact htx.stats_reset
  | cmdProcess f => cases h; exact hs.cmdProcess f
  | armProcessReceived q lo => cases h; exact hs.armProcessReceived q lo
  | dmqEnqueue c dws =>
    obtain ⟨first, rest, ha, hr, rfl⟩ := execDmqEnqueue_next h
    exact hs.with_dmq (hs.dmq.enqueue (Packet.fits_of_admitted ha) hr)
  | dmqPopNextDword => obtain ⟨r, hr, rfl⟩ := execDmqPopNextDword_next h; exact hs.with_dmq (hs.dmq.pop hr)
  | reset => cases h; exact Block.reset_legal s.cfg
  | epSendPayload tls =>
    rcases execEpSendPayload_next h with rfl | ⟨-, q, f, opp, tx, hn, -, -, ht, rfl⟩
    · exact hs
    · refine Block.Legal.with_rb (hs.ticked ht) ?_
      have := hs.rbBound
      split
      · exact this
      · rw [List.length_append, List.length_singleton]; omega
  | epReceiveFlit f => cases h; exact hs.epReceiveFlit f
  | epReplayFrom r => cases h; exact hs.epReplayFrom r
  -- The other operations only read.
  | _ => cases h; exact hs

/-- Settles O56: a step runs an operation, and every operation keeps a legal machine legal; where it runs none the block
stays as it is. -/
theorem legalStatesStayLegal : Obligations.LegalStatesStayLegal := by
  intro s t hs h
  rcases step_next_cases h with rfl | ⟨r, rest, -, ⟨i, -, hx⟩ | ⟨res, rfl⟩⟩
  · exact hs
  · exact exec_keeps_legal (s := { s with program := rest }) hs hx
  · exact hs

/-- Settles O57: the power-on block is legal under every configuration, so under the standard one. -/
theorem resetStateIsLegal : Obligations.ResetStateIsLegal := Block.reset_legal Config.standard

/-! ## The stored flits (R27 (g)) -/

theorem flitByte_lt (f : Flit) (i : Nat) : flitByte f i < 256 := (f.val.getD i 0#8).isLt

/-- The header value of a flit's first three bytes as a number (R7). -/
theorem flitHeader_toNat (f : Flit) :
    (flitHeader f).toNat = flitByte f 0 * 65536 + flitByte f 1 * 256 + flitByte f 2 := by
  have hb : ∀ i (h : i < 640), (byteAt f i h).toNat = flitByte f i := fun i h => by
    simp [byteAt, flitByte, f.size, h]
  simp only [flitHeader, headerWord, toNat_append_add, hb]
  omega

/-- R53's formula for `payload_bit` is what the decoder reads. -/
theorem hdrPayloadBit_eq (f : Flit) : hdrPayloadBit f = (decExplicit (flitHeader f)).payloadBit.toNat := by
  have h1 := flitByte_lt f 1
  have h2 := flitByte_lt f 2
  simp only [decExplicit, BitVec.extractLsb'_toNat, Nat.shiftRight_eq_div_pow, flitHeader_toNat, hdrPayloadBit]
  omega

/-- R53's formula for `flit_seq_no` is what the decoder reads. -/
theorem hdrSeqNo_eq (f : Flit) : hdrSeqNo f = (decExplicit (flitHeader f)).flitSeqNo.toNat := by
  have h1 := flitByte_lt f 1
  have h2 := flitByte_lt f 2
  simp only [decExplicit, BitVec.extractLsb'_toNat, Nat.shiftRight_eq_div_pow, flitHeader_toNat, hdrSeqNo]
  omega

/-- A packed payload flit stored under its own number is sound (R80, R138). -/
theorem flitPack_sound (reflect : Bool) (tls : List Tl) (h : tls.length ≤ 7) (op : BitVec 3) (q : Seq) :
    Entry.Sound reflect { seq := q, flit := flitPack reflect tls h op 1#1 q } := by
  refine ⟨(crcGood_iff ..).1 (crcGood_flitPack (h := h) ..), ?_, ?_⟩
  · rw [hdrPayloadBit_eq, flitHeader_flitPack, decExplicit_explicitWord]; rfl
  · rw [hdrSeqNo_eq, flitHeader_flitPack, decExplicit_explicitWord]

section
variable (cfg : Config) (f : Flit) (b : Block)

theorem cmdProcess_rb : (cmdProcess cfg f b).2.2.rb = b.rb := by
  rcases cmdProcess_cases cfg f b with ⟨-, e⟩ | ⟨-, -, e⟩ | ⟨-, -, -, e⟩ | ⟨-, -, -, e⟩ | ⟨-, -, -, -, e⟩ <;> rw [e]

theorem armProcessReceived_rb (q : Seq) (lo : BitVec 3) : (armProcessReceived cfg q lo b).2.rb = b.rb := by
  rcases armProcessReceived_cases cfg q lo b with ⟨-, -, e⟩ | ⟨-, -, e⟩ | ⟨-, e⟩ | ⟨-, e⟩ <;> rw [e]

theorem epReplayFrom_rb (r : Seq) : (epReplayFrom cfg r b).2.2.rb = b.rb := by
  rcases epReplayFrom_cases cfg r b with ⟨-, e⟩ | ⟨-, e⟩ <;> rw [e]
  rfl

/-- A received flit adds nothing to the replay buffer; an Ack may retire entries (R139, R142). -/
theorem mem_epReceiveFlit_rb {e : Entry} (he : e ∈ (epReceiveFlit cfg f b).2.2.rb) : e ∈ b.rb := by
  rcases epReceiveFlit_cases cfg f b with
    ⟨-, -, h⟩ | ⟨-, -, -, h⟩ | ⟨-, -, -, h⟩ | ⟨-, -, h⟩ | ⟨-, -, h⟩ <;> rw [h] at he
  · exact he
  · exact mem_retire he
  · rwa [epReplayFrom_rb] at he
  · exact he
  · rwa [receivePayload_block, armProcessReceived_rb] at he

end

/-- Where a stored entry comes from: it was stored before, RB_ADD was given it, or EP_SEND_PAYLOAD packed it (R14). -/
theorem exec_rb_origin {i : Instr} {s t : State} (h : exec i s = .next t) {e : Entry} (he : e ∈ t.block.rb) :
    e ∈ s.block.rb ∨ i = .rbAdd e.seq e.flit ∨
      ∃ tls hl, e.flit = flitPack s.cfg.crcReflect tls hl 0b000#3 1#1 e.seq := by
  cases i with
  | flitPack => obtain ⟨r, rfl⟩ := execFlitPack_next h; exact .inl he
  | txTickExplicitCount => obtain ⟨opp, tx, -, rfl⟩ := execTxTickExplicitCount_next h; exact .inl he
  | dmqEnqueue => obtain ⟨first, rest, -, -, rfl⟩ := execDmqEnqueue_next h; exact .inl he
  | dmqPopNextDword => obtain ⟨r, -, rfl⟩ := execDmqPopNextDword_next h; exact .inl he
  | cmdProcess f => cases h; exact .inl (cmdProcess_rb s.cfg f s.block ▸ he)
  | armProcessReceived q lo => cases h; exact .inl (armProcessReceived_rb s.cfg s.block q lo ▸ he)
  | epReplayFrom r => cases h; exact .inl (epReplayFrom_rb s.cfg s.block r ▸ he)
  | epReceiveFlit f => cases h; exact .inl (mem_epReceiveFlit_rb s.cfg f s.block he)
  | rbRetireThrough | epProcessAck => cases h; exact .inl (mem_retire he)
  | rbClear | reset => cases h; cases he
  | rbAdd q f =>
    cases h
    rcases rbAdd_cases q f s.block with ⟨-, hr⟩ | ⟨-, hr⟩ <;> rw [answer_block, hr] at he
    · exact .inl he
    · rcases List.mem_append.1 he with hold | hnew
      · exact .inl hold
      · cases List.mem_singleton.1 hnew; exact .inr (.inl rfl)
  | epSendPayload tls =>
    rcases execEpSendPayload_next h with rfl | ⟨hl, q, f, opp, tx, -, -, hf, -, rfl⟩
    · exact .inl he
    · rw [answer_block] at he
      dsimp only at he
      split at he
      · exact .inl he
      · rcases List.mem_append.1 he with hold | hnew
        · exact .inl hold
        · cases List.mem_singleton.1 hnew; exact .inr (.inr ⟨tls, hl, hf⟩)
  -- The other operations do not write the replay buffer.
  | _ => cases h; exact .inl he

/-- Settles O50: an entry stored before is sound still, one that RB_ADD was given is by hypothesis, and one that
EP_SEND_PAYLOAD packed is by construction. -/
theorem storedFlitsStaySound : Obligations.StoredFlitsStaySound := by
  intro i s t hadd hs h e he
  rw [exec_cfg h]
  rcases exec_rb_origin h he with hold | rfl | ⟨tls, hl, hf⟩
  · exact hs e hold
  · exact hadd e.seq e.flit rfl
  · have hsound := flitPack_sound s.cfg.crcReflect tls hl 0b000#3 e.seq
    rwa [← hf] at hsound

end Sys2Proof.Machine

/-! SUPPORT. Proofs of the family of 20_memory.md: CRC32 as the serial shift circuit of R33, which takes one bit of the
message at a time. -/

namespace Sys2Proof.Machine

/-! ## The circuit on strings of bits and of bytes -/

theorem serialCrc_append (r : BitVec 32) (a b : List Bool) : serialCrc r (a ++ b) = serialCrc (serialCrc r a) b :=
  List.foldl_append ..

theorem bitsMsbFirst_cons (x : Byte) (b : List Byte) : bitsMsbFirst (x :: b) = bitsMsbFirst [x] ++ bitsMsbFirst b := by
  simp [bitsMsbFirst]

/-- Reversing each byte gives its bits least significant first (R75). -/
theorem bitsMsbFirst_map_reverse (b : List Byte) : bitsMsbFirst (b.map BitVec.reverse) = bitsLsbFirst b := by
  simp only [bitsMsbFirst, bitsLsbFirst, List.flatMap_map, BitVec.getLsbD_reverse]
  rfl

/-! ## From bits of the message put into the register beforehand to bits taken one at a time -/

/-- The `n` top bits of a word, most significant first: those that leave the register in `n` shifts. -/
def topBits : Nat → BitVec 32 → List Bool
  | 0, _ => []
  | n + 1, v => v.msb :: topBits n (v <<< 1)

/-- One bit: what was added to the register beforehand is a message bit at its top, and is shifted on below it. -/
theorem crcBit_xor (r v : BitVec 32) : crcBit (r ^^^ v) = serialCrc r [v.msb] ^^^ (v <<< 1) := by
  simp only [crcBit, crcPoly, serialCrc, List.foldl_cons, List.foldl_nil, BitVec.msb_xor, BitVec.shiftLeft_xor_distrib]
  split
  · ac_rfl
  · rfl

theorem crcBits_xor (n : Nat) (r v : BitVec 32) : crcBits n (r ^^^ v) = serialCrc r (topBits n v) ^^^ (v <<< n) := by
  induction n generalizing r v with
  | zero => simp [crcBits, topBits, serialCrc]
  | succ n ih =>
    rw [crcBits, crcBit_xor, ih, ← serialCrc_append, ← BitVec.shiftLeft_add, Nat.add_comm 1 n]
    rfl

/-- A byte at the top of the register leaves it as the byte's bits, most significant first. -/
theorem topBits_byte (x : Byte) : topBits 8 (x.setWidth 32 <<< 24) = bitsMsbFirst [x] := by
  simp [topBits, bitsMsbFirst, BitVec.msb_eq_getLsbD_last]

theorem crcByte_eq_serialCrc (r : BitVec 32) (x : Byte) : crcByte r x = serialCrc r (bitsMsbFirst [x]) := by
  have hout : x.setWidth 32 <<< 24 <<< 8 = 0#32 := by
    rw [← BitVec.shiftLeft_add, BitVec.shiftLeft_eq_zero (le_refl 32)]
  rw [crcByte, crcBits_xor, topBits_byte, hout, BitVec.xor_zero]

theorem crcRun_eq_serialCrc (r : BitVec 32) (b : List Byte) : crcRun r b = serialCrc r (bitsMsbFirst b) := by
  induction b generalizing r with
  | nil => rfl
  | cons x rest ih =>
    calc crcRun r (x :: rest) = crcRun (crcByte r x) rest := rfl
      _ = serialCrc (serialCrc r (bitsMsbFirst [x])) (bitsMsbFirst rest) := by rw [ih, crcByte_eq_serialCrc]
      _ = serialCrc r (bitsMsbFirst (x :: rest)) := by rw [bitsMsbFirst_cons x rest, serialCrc_append]

/-- Both variants of `CRC32` (R70, R75). -/
theorem crc32_eq_serialCrc (reflect : Bool) (b : List Byte) :
    crc32 reflect b =
      if reflect then (serialCrc 0xFFFFFFFF#32 (bitsLsbFirst b)).reverse ^^^ 0xFFFFFFFF#32
      else serialCrc 0xFFFFFFFF#32 (bitsMsbFirst b) ^^^ 0xFFFFFFFF#32 := by
  rw [crc32, crcRun_eq_serialCrc, crcRun_eq_serialCrc, bitsMsbFirst_map_reverse, crcInit, crcXorOut]

theorem exec_crc32 (s : State) (b : List Byte) :
    exec (.crc32 b) s = .next (s.answer s.block [] (.value (crc32 s.cfg.crcReflect b))) := rfl

/-- Settles O14: CRC32 answers `crc32` of its operand, which adds a whole byte to the register and then shifts; by
`crcBits_xor` this is the circuit fed one bit at a time. -/
theorem crcEqualsBitSerialCircuit : Obligations.CrcEqualsBitSerialCircuit := by
  intro s b
  rw [← crc32_eq_serialCrc]
  exact ⟨_, exec_crc32 s b, read_answer ..⟩

end Sys2Proof.Machine

/-! SUPPORT. Proofs of the family of 30_encoding.md: the words of the formats as numbers, the words that are a segment
header or a DWord, the calls with a number too wide for its field, and the command flit byte by byte. -/

namespace Sys2Proof.Machine

/-! ## Words as numbers (R7, R48 to R53, R59) -/

theorem headerWord_toNat (b0 b1 b2 : Byte) :
    (headerWord b0 b1 b2).toNat = b0.toNat * 65536 + b1.toNat * 256 + b2.toNat := by
  simp only [headerWord, toNat_append_add]
  omega

theorem u32be_toNat (b0 b1 b2 b3 : Byte) :
    (u32be b0 b1 b2 b3).toNat = b0.toNat * 16777216 + b1.toNat * 65536 + b2.toNat * 256 + b3.toNat := by
  simp only [u32be, toNat_append_add]
  omega

theorem explicitWord_toNat (op : BitVec 3) (pb : BitVec 1) (ra : BitVec 3) (q : Seq) (rb : BitVec 8) :
    (explicitWord op pb ra q rb).toNat =
      op.toNat * 2097152 + pb.toNat * 1048576 + ra.toNat * 131072 + q.toNat * 256 + rb.toNat := by
  simp only [explicitWord, toNat_append_add]
  omega

theorem commandWord_toNat (op : BitVec 3) (pb : BitVec 1) (a : Seq) (lo : BitVec 3) (r : BitVec 8) :
    (commandWord op pb a lo r).toNat =
      op.toNat * 2097152 + pb.toNat * 1048576 + a.toNat * 2048 + lo.toNat * 256 + r.toNat := by
  simp only [commandWord, toNat_append_add]
  omega

theorem segByte_toNat (f : SegFields) :
    (segByte f).toNat = f.tlFlit1.toNat * 128 + f.message1.toNat * 32 + f.tlFlit0.toNat * 16 + f.message0.toNat * 4 +
      f.reserved.toNat * 2 + f.dlAltSector.toNat := by
  simp only [segByte, toNat_append_add]
  omega

theorem dwordWord_toNat (p : BitVec 23) (mt : BitVec 3) (mc : BitVec 4) (r : BitVec 1) :
    (dwordWord p mt mc r).toNat = p.toNat * 512 + mt.toNat * 64 + mc.toNat * 4 + r.toNat * 2 := by
  simp only [dwordWord, toNat_append_add, BitVec.toNat_ofNat]
  omega

theorem be24_val_eq (h : BitVec 24) : (be24 h).val = bytesOfNat 3 h.toNat := by
  simp only [be24, bytesOfNat, List.cons.injEq, and_true]
  refine ⟨?_, ?_, ?_⟩ <;> · apply BitVec.eq_of_toNat_eq; simp [Nat.shiftRight_eq_div_pow]

/-! ## Fields from bytes (R53) -/

/-- What a read of bits `lo` to `lo + len - 1` is by arithmetic. -/
theorem extract_toNat {n : Nat} (x : BitVec n) (lo len : Nat) :
    (x.extractLsb' lo len).toNat = x.toNat / 2 ^ lo % 2 ^ len := by
  rw [BitVec.extractLsb'_toNat, Nat.shiftRight_eq_div_pow]

section
variable (b0 b1 b2 b3 : Byte)

theorem decExplicit_headerWord :
    (decExplicit (headerWord b0 b1 b2)).op.toNat = b0.toNat / 32 ∧
    (decExplicit (headerWord b0 b1 b2)).payloadBit.toNat = b0.toNat / 16 % 2 ∧
    (decExplicit (headerWord b0 b1 b2)).flitSeqNo.toNat = b0.toNat % 2 * 256 + b1.toNat := by
  simp only [decExplicit, extract_toNat, headerWord_toNat]
  omega

theorem decCommand_headerWord :
    (decCommand (headerWord b0 b1 b2)).op.toNat = b0.toNat / 32 ∧
    (decCommand (headerWord b0 b1 b2)).payloadBit.toNat = b0.toNat / 16 % 2 ∧
    (decCommand (headerWord b0 b1 b2)).ackReqSeq.toNat = b0.toNat % 16 * 32 + b1.toNat / 8 ∧
    (decCommand (headerWord b0 b1 b2)).flitSeqLo.toNat = b1.toNat % 8 := by
  simp only [decCommand, extract_toNat, headerWord_toNat]
  omega

theorem decSeg_toNat :
    (decSeg b0).tlFlit1.toNat = b0.toNat / 128 ∧ (decSeg b0).message1.toNat = b0.toNat / 32 % 4 ∧
    (decSeg b0).tlFlit0.toNat = b0.toNat / 16 % 2 ∧ (decSeg b0).message0.toNat = b0.toNat / 4 % 4 ∧
    (decSeg b0).reserved.toNat = b0.toNat / 2 % 2 ∧ (decSeg b0).dlAltSector.toNat = b0.toNat % 2 := by
  simp only [decSeg, extract_toNat]
  omega

theorem decDword_u32be :
    (decDword (u32be b0 b1 b2 b3)).messageSpecific.toNat = b0.toNat * 32768 + b1.toNat * 128 + b2.toNat / 2 ∧
    (decDword (u32be b0 b1 b2 b3)).mtype.toNat = b2.toNat % 2 * 4 + b3.toNat / 64 ∧
    (decDword (u32be b0 b1 b2 b3)).mclass.toNat = b3.toNat / 4 % 16 := by
  simp only [decDword, extract_toNat, u32be_toNat]
  omega

end

/-! ## Bytes from fields (R53) -/

theorem be24_toNat (h : BitVec 24) :
    (be24 h).val.map BitVec.toNat = [h.toNat / 65536, h.toNat / 256 % 256, h.toNat % 256] := by
  simp only [be24, List.map_cons, List.map_nil, extract_toNat, List.cons.injEq, and_true]
  omega

theorem be24_explicitWord_toNat (op : BitVec 3) (pb : BitVec 1) (ra : BitVec 3) (q : Seq) (rb : BitVec 8) :
    (be24 (explicitWord op pb ra q rb)).val.map BitVec.toNat =
      [op.toNat * 32 + pb.toNat * 16 + ra.toNat * 2 + q.toNat / 256, q.toNat % 256, rb.toNat] := by
  simp only [be24_toNat, explicitWord_toNat, List.cons.injEq, and_true]
  omega

theorem be24_commandWord_toNat (op : BitVec 3) (pb : BitVec 1) (a : Seq) (lo : BitVec 3) (r : BitVec 8) :
    (be24 (commandWord op pb a lo r)).val.map BitVec.toNat =
      [op.toNat * 32 + pb.toNat * 16 + a.toNat / 32, a.toNat % 32 * 8 + lo.toNat, r.toNat] := by
  simp only [be24_toNat, commandWord_toNat, List.cons.injEq, and_true]
  omega

/-- Settles O2: a word is the weighted sum of its fields and of its bytes, so that each is read off the other by division. -/
theorem headerFieldAssembly : Obligations.HeaderFieldAssembly := by
  refine ⟨fun b0 b1 b2 => ?_, be24_explicitWord_toNat, be24_commandWord_toNat, segByte_toNat⟩
  obtain ⟨hop, hpb, hq⟩ := decExplicit_headerWord b0 b1 b2
  exact ⟨headerWord_toNat b0 b1 b2, hop, hpb, hq, decCommand_headerWord b0 b1 b2⟩

/-! ## Segment headers and DWords by themselves (R52, R59, R60) -/

/-- One byte is the word of a segment header only. -/
theorem encode_eq_one_byte {i : Instr} {b : Byte} (h : encode i = .wire [b]) : i = .segmentHeader (decSeg b) := by
  cases i with
  | segmentHeader f => cases h; rw [decSeg_segByte]
  | _ => cases h

/-- Four bytes are the word of a DL-message DWord only. -/
theorem encode_eq_four_bytes {i : Instr} {b0 b1 b2 b3 : Byte} (h : encode i = .wire [b0, b1, b2, b3]) :
    ∃ p mt mc r, i = .dlMessageDword p mt mc r ∧ dwordWord p mt mc r = u32be b0 b1 b2 b3 := by
  cases i with
  | dlMessageDword p mt mc r => cases h; exact ⟨p, mt, mc, r, rfl, (u32be_be32 _).symm⟩
  | _ => cases h

/-- SEGMENT_HEADER answers the fields of its byte. -/
theorem exec_segmentHeader (s : State) (f : SegFields) :
    exec (.segmentHeader f) s = .next (s.answer s.block [] (.segment (decSeg (segByte f)))) := rfl

/-- DL_MESSAGE_DWORD answers the fields of its DWord. -/
theorem exec_dlMessageDword (s : State) (p : BitVec 23) (mt : BitVec 3) (mc : BitVec 4) (r : BitVec 1) :
    exec (.dlMessageDword p mt mc r) s = .next (s.answer s.block [] (.dword (decDword (dwordWord p mt mc r)))) := rfl

/-- Bit 0 of a DWord is bit 0 of its last byte. -/
theorem u32be_mod_two (b0 b1 b2 b3 : Byte) : (u32be b0 b1 b2 b3).toNat % 2 = b3.toNat % 2 := by
  rw [u32be_toNat]
  omega

/-- Settles O9: the row a word belongs to is known from its size, its instruction answers the decoder's fields of the
word, and these are the arithmetic of its bytes. -/
theorem segmentAndDwordFieldsAreRead : Obligations.SegmentAndDwordFieldsAreRead := by
  refine ⟨fun s i b h => ?_, fun s i b0 b1 b2 b3 h => ?_, fun p mt mc r => ?_⟩
  · obtain rfl := encode_eq_one_byte h
    exact ⟨_, _, exec_segmentHeader s _, read_answer .., by rw [segByte_decSeg]; exact decSeg_toNat b⟩
  · obtain ⟨p, mt, mc, r, rfl, hw⟩ := encode_eq_four_bytes h
    obtain ⟨hp, hmt, hmc⟩ := decDword_u32be b0 b1 b2 b3
    have hcompressed : b3.toNat % 2 = 0 := by
      rw [← u32be_mod_two b0 b1 b2 b3, ← hw, dwordWord_toNat]
      omega
    refine ⟨_, _, exec_dlMessageDword s p mt mc r, read_answer .., ?_⟩
    rw [hw]
    exact ⟨hp, hmt, hmc, hcompressed⟩
  · rw [encode, be32_val_eq, dwordWord_toNat]

/-! ## A number too wide for its field (R65, R170) -/

/-- A request that decodes to FieldOutOfRange is answered with it, and nothing else happens. -/
theorem step_fieldOutOfRange {s : State} {req : Request} {rest : List Request} {field : Field} {n w : Nat}
    (hp : s.program = req :: rest) (hd : decode req = .error (.fieldOutOfRange field n w)) :
    step s = .next (State.answer { s with program := rest } s.block [] (.fieldOutOfRange field n w)) := by
  simp only [step, fetch_cons s req rest hp, hd, State.reject, raise_eq]

/-- A number that fits its field is decoded. -/
theorem fieldOf_fits (fld : Field) {w n : Nat} (h : n < 2 ^ w) : fieldOf fld w n = .ok (BitVec.ofNat w n) := if_pos h

/-- A message number too wide is reported after any TL flits that fit. -/
theorem tlsOf_wide (op : OpName) (tls : List Tl) (d : TlData) (more : List (List Byte × Nat)) {n : Nat}
    (h : ¬ n < 2 ^ 2) :
    tlsOf op (tls.map tlOperand ++ (d.val, n) :: more) = .error (.fieldOutOfRange .messageField n 2) := by
  induction tls with
  | nil => simp only [List.map_nil, List.nil_append, tlsOf, bytesOf_val, fieldOf_wide _ _ _ h]; rfl
  | cons t rest ih =>
    simp only [List.map_cons, List.cons_append, tlOperand, tlsOf, bytesOf_val, fieldOf_toNat]
    rw [ih]; rfl

/-- A DWord too wide is reported after any DWords that fit. -/
theorem dwordsOf_wide (ds : List DWord) (more : List Nat) {n : Nat} (h : ¬ n < 2 ^ 32) :
    dwordsOf (ds.map BitVec.toNat ++ n :: more) = .error (.fieldOutOfRange .dword n 32) := by
  induction ds with
  | nil => simp only [List.map_nil, List.nil_append, dwordsOf, fieldOf_wide _ _ _ h]; rfl
  | cons d rest ih => simp only [List.map_cons, List.cons_append, dwordsOf, fieldOf_toNat, ih]; rfl

section
variable {n : Nat}

/-- The operations on one sequence number (9 bits). -/
theorem oneSeq_wide (op : OpName) (mk : Seq → Instr) (h : ¬ n < 2 ^ 9) :
    oneSeq op mk [.num n] = .error (.fieldOutOfRange .sequence n 9) := by
  rw [oneSeq, fieldOf_wide _ _ _ h]; rfl

theorem decode_oneSeq_wide {op : OpName} (h : ¬ n < 2 ^ 9)
    (hop : op ∈ [OpName.rbRetireThrough, .rbReplayIter, .stIsExpected, .stIsDuplicate, .txMakeAck, .txMakeReplayRequest,
      .epProcessAck, .epReplayFrom]) :
    decode (.call op [.num n]) = .error (.fieldOutOfRange .sequence n 9) := by
  simp only [List.mem_cons, List.not_mem_nil, or_false] at hop
  rcases hop with rfl | rfl | rfl | rfl | rfl | rfl | rfl | rfl <;>
    simp only [decode, decodeCall, oneSeq_wide _ _ h]

/-- RB_ADD looks at its number before its flit. -/
theorem decode_rbAdd_wide (b : List Byte) (h : ¬ n < 2 ^ 9) :
    decode (.call .rbAdd [.num n, .bytes b]) = .error (.fieldOutOfRange .sequence n 9) := by
  simp only [decode, decodeCall, fieldOf_wide _ _ _ h]; rfl

theorem decode_armProcessReceived_wide_seq (lo : Nat) (h : ¬ n < 2 ^ 9) :
    decode (.call .armProcessReceived [.num n, .num lo]) = .error (.fieldOutOfRange .sequence n 9) := by
  simp only [decode, decodeCall, fieldOf_wide _ _ _ h]; rfl

theorem decode_armProcessReceived_wide_txLo {q : Nat} (hq : q < 2 ^ 9) (h : ¬ n < 2 ^ 3) :
    decode (.call .armProcessReceived [.num q, .num n]) = .error (.fieldOutOfRange .txLo n 3) := by
  simp only [decode, decodeCall, fieldOf_fits _ hq, fieldOf_wide _ _ _ h]; rfl

section
variable (tls : List Tl)

theorem decode_flitPack_wide_message (d : TlData) (more : List (List Byte × Nat)) (op pb sn : Nat) (h : ¬ n < 2 ^ 2) :
    decode (.call .flitPack [.tls (tls.map tlOperand ++ (d.val, n) :: more), .num op, .num pb, .num sn]) =
      .error (.fieldOutOfRange .messageField n 2) := by
  simp only [decode, decodeCall, tlsOf_wide _ tls d more h]; rfl

theorem decode_epSendPayload_wide_message (d : TlData) (more : List (List Byte × Nat)) (h : ¬ n < 2 ^ 2) :
    decode (.call .epSendPayload [.tls (tls.map tlOperand ++ (d.val, n) :: more)]) =
      .error (.fieldOutOfRange .messageField n 2) := by
  simp only [decode, decodeCall, tlsOf_wide _ tls d more h]; rfl

theorem decode_flitPack_wide_op (pb sn : Nat) (h : ¬ n < 2 ^ 3) :
    decode (.call .flitPack [.tls (tls.map tlOperand), .num n, .num pb, .num sn]) =
      .error (.fieldOutOfRange .op n 3) := by
  simp only [decode, decodeCall, tlsOf_map, fieldOf_wide _ _ _ h]; rfl

theorem decode_flitPack_wide_payloadBit {op : Nat} (sn : Nat) (hop : op < 2 ^ 3) (h : ¬ n < 2 ^ 1) :
    decode (.call .flitPack [.tls (tls.map tlOperand), .num op, .num n, .num sn]) =
      .error (.fieldOutOfRange .payloadBit n 1) := by
  simp only [decode, decodeCall, tlsOf_map, fieldOf_fits _ hop, fieldOf_wide _ _ _ h]; rfl

theorem decode_flitPack_wide_seq {op pb : Nat} (hop : op < 2 ^ 3) (hpb : pb < 2 ^ 1) (h : ¬ n < 2 ^ 9) :
    decode (.call .flitPack [.tls (tls.map tlOperand), .num op, .num pb, .num n]) =
      .error (.fieldOutOfRange .sequence n 9) := by
  simp only [decode, decodeCall, tlsOf_map, fieldOf_fits _ hop, fieldOf_fits _ hpb, fieldOf_wide _ _ _ h]; rfl

end

theorem decode_dmqEnqueue_wide (c : DlClass) (ds : List DWord) (more : List Nat) (h : ¬ n < 2 ^ 32) :
    decode (.call .dmqEnqueue [.cls c, .dwords (ds.map BitVec.toNat ++ n :: more)]) =
      .error (.fieldOutOfRange .dword n 32) := by
  simp only [decode, decodeCall, dwordsOf_wide ds more h]; rfl

end

/-- Settles O6: each operand is decoded by `fieldOf`, which gives an error rather than a truncated value, the operands
before it decode, and the step answers the error. -/
theorem wideOperandIsReportedNotTruncated : Obligations.WideOperandIsReportedNotTruncated := by
  intro s req rest field n w hp hreq hn
  suffices hd : decode req = .error (.fieldOutOfRange field n w) from
    ⟨_, step_fieldOutOfRange hp hd, rfl, rfl, rfl, rfl⟩
  rcases hreq with ⟨⟨op, hop, rfl⟩, rfl, rfl⟩ | ⟨⟨b, rfl⟩, rfl, rfl⟩ | ⟨⟨lo, rfl⟩, rfl, rfl⟩ | ⟨⟨q, hq, rfl⟩, rfl, rfl⟩ |
    ⟨⟨tls, d, more, ⟨op, pb, sn, rfl⟩ | rfl⟩, rfl, rfl⟩ | ⟨⟨tls, pb, sn, rfl⟩, rfl, rfl⟩ |
    ⟨⟨tls, op, sn, hop, rfl⟩, rfl, rfl⟩ | ⟨⟨tls, op, pb, hop, hpb, rfl⟩, rfl, rfl⟩ | ⟨⟨c, ds, more, rfl⟩, rfl, rfl⟩
  · exact decode_oneSeq_wide hn hop
  · exact decode_rbAdd_wide b hn
  · exact decode_armProcessReceived_wide_seq lo hn
  · exact decode_armProcessReceived_wide_txLo hq hn
  · exact decode_flitPack_wide_message tls d more op pb sn hn
  · exact decode_epSendPayload_wide_message tls d more hn
  · exact decode_flitPack_wide_op tls pb sn hn
  · exact decode_flitPack_wide_payloadBit tls sn hop hn
  · exact decode_flitPack_wide_seq tls hop hpb hn
  · exact decode_dmqEnqueue_wide c ds more hn

/-! ## Command flits (R57, R120, R121) -/

/-- The header bytes of a command flit (R49, R53). -/
theorem encCommand_val (op : BitVec 3) (q : Seq) (lo : BitVec 3) :
    (encCommand op q lo).val =
      [BitVec.ofNat 8 (op.toNat * 32 + q.toNat / 32), BitVec.ofNat 8 (q.toNat % 32 * 8 + lo.toNat), 0#8] := by
  rw [encCommand, be24_val_eq, commandWord_toNat]
  simp only [bytesOfNat, List.cons.injEq, and_true]
  refine ⟨?_, ?_, ?_⟩ <;> apply BitVec.eq_of_toNat_eq <;> simp only [BitVec.toNat_ofNat] <;> omega

/-- The covered region of a sealed flit is its body, as byte strings. -/
theorem sealFlit_take (reflect : Bool) (body : Bytes 636) : (sealFlit reflect body).val.take 636 = body.val := by
  simp [sealFlit_val, body.size]

/-- The builder's flit is a command flit byte by byte: header, zeros, and the CRC of both. -/
theorem cmdFlit_isCommandFlit (reflect : Bool) (op : BitVec 3) (q : Seq) (lo : BitVec 3) :
    IsCommandFlit reflect op.toNat q lo.toNat (cmdFlit reflect op q lo) := by
  rw [IsCommandFlit, cmdFlit, sealFlit_take, sealFlit_val, be32_val_eq]
  simp only [joinBytes_val, zeros_val, encCommand_val, List.replicate_append_replicate, Nat.reduceAdd]

theorem txLo_toNat (t : Tx) : (txLo t).toNat = t.lastSeq.toNat % 8 := by
  rw [txLo, extract_toNat, pow_zero, Nat.div_one]; rfl

/-- TX_MAKE_ACK. -/
theorem exec_txMakeAck (s : State) (q : Seq) :
    exec (.txMakeAck q) s = .next (s.answer
      { s.block with stats := { s.block.stats with acksSent := countUp s.cfg .acksSent s.block.stats.acksSent } } []
      (.flit (cmdFlit s.cfg.crcReflect opAck q (txLo s.block.tx)))) := rfl

/-- TX_MAKE_REPLAY_REQUEST. -/
theorem exec_txMakeReplayRequest (s : State) (q : Seq) :
    exec (.txMakeReplayRequest q) s = .next (s.answer
      { s.block with stats := { s.block.stats with
          replayRequestsSent := countUp s.cfg .replayRequestsSent s.block.stats.replayRequestsSent } } []
      (.flit (cmdFlit s.cfg.crcReflect opReplayReq q (txLo s.block.tx)))) := rfl

/-- Settles O38: both answer `cmdFlit` of their `op` and the low bits of `last_seq`, and count it. -/
theorem commandFlitsAreBuiltAsTheRuleSays : Obligations.CommandFlitsAreBuiltAsTheRuleSays := by
  intro s q
  rw [← txLo_toNat]
  exact ⟨⟨_, _, _, exec_txMakeAck s q, answered_answer .., cmdFlit_isCommandFlit .., countUp_counted .., rfl⟩,
    ⟨_, _, _, exec_txMakeReplayRequest s q, answered_answer .., cmdFlit_isCommandFlit .., countUp_counted .., rfl⟩⟩

end Sys2Proof.Machine

/-! SUPPORT. Proofs of the family of 40_crc32.md: shifting the register is linear over exclusive or, and what the shifts
push out at the top of a word is what the serial circuit takes in. -/

namespace Sys2Proof.Machine

/-! ## Shifting the register is linear over exclusive or -/

theorem xor_xor_xor_comm {w : Nat} (a b c d : BitVec w) : a ^^^ b ^^^ (c ^^^ d) = a ^^^ c ^^^ (b ^^^ d) := by ac_rfl

/-- Each of the two words that shifts out a one adds the polynomial once; added twice it cancels. -/
theorem crcBit_linear (r v : BitVec 32) : crcBit (r ^^^ v) = crcBit r ^^^ crcBit v := by
  have hbit (x : BitVec 32) : crcBit x = x <<< 1 ^^^ (if x.msb then crcPoly else 0#32) := by
    unfold crcBit
    split
    · rfl
    · exact BitVec.xor_zero.symm
  have hpoly : ∀ p q : Bool, (if (p ^^ q) then crcPoly else 0#32) =
      (if p then crcPoly else 0#32) ^^^ (if q then crcPoly else 0#32) := by decide
  rw [hbit, hbit r, hbit v, BitVec.msb_xor, hpoly, BitVec.shiftLeft_xor_distrib, xor_xor_xor_comm]

theorem crcBits_linear (n : Nat) (r v : BitVec 32) : crcBits n (r ^^^ v) = crcBits n r ^^^ crcBits n v := by
  induction n generalizing r v with
  | zero => rfl
  | succ n ih => rw [crcBits, crcBit_linear, ih]; rfl

theorem crcTable_linear (i j : Byte) : crcTable (i ^^^ j) = crcTable i ^^^ crcTable j := by
  rw [crcTable, BitVec.setWidth_xor, BitVec.shiftLeft_xor_distrib, crcBits_linear, crcTable, crcTable]

/-- One byte: the register's own eight shifts, and the byte's table entry. -/
theorem crcByte_eq (r : BitVec 32) (x : Byte) : crcByte r x = crcBits 8 r ^^^ crcTable x := by
  rw [crcByte, crcBits_linear, crcTable]

theorem crcByte_linear (r v : BitVec 32) (x y : Byte) : crcByte (r ^^^ v) (x ^^^ y) = crcByte r x ^^^ crcByte v y := by
  rw [crcByte_eq, crcBits_linear, crcTable_linear, xor_xor_xor_comm, crcByte_eq, crcByte_eq]

/-! ## The table (R71) -/

/-- A table entry is the circuit's register after one byte from zero. -/
theorem crcTable_eq_serialCrc (i : Byte) : crcTable i = serialCrc 0#32 (bitsMsbFirst [i]) := by
  rw [← crcByte_eq_serialCrc, crcByte, BitVec.zero_xor, crcTable]

/-- The eight top bits of a word are its top byte. -/
theorem topBits_eight (v : BitVec 32) : topBits 8 v = bitsMsbFirst [v.extractLsb' 24 8] := by
  simp [topBits, bitsMsbFirst, BitVec.msb_eq_getLsbD_last]

/-- In eight shifts the top byte leaves the register and selects a table entry; the other bytes move up. -/
theorem crcBits_eight (v : BitVec 32) : crcBits 8 v = crcTable (v.extractLsb' 24 8) ^^^ (v <<< 8) := by
  calc crcBits 8 v = crcBits 8 (0#32 ^^^ v) := by rw [BitVec.zero_xor]
    _ = serialCrc 0#32 (topBits 8 v) ^^^ (v <<< 8) := crcBits_xor ..
    _ = crcTable (v.extractLsb' 24 8) ^^^ (v <<< 8) := by rw [topBits_eight, crcTable_eq_serialCrc]

/-- Table entries add, so the entries of the register's top byte and of the message byte are one entry. -/
theorem crcByte_eq_crcByteByTable (r : BitVec 32) (x : Byte) : crcByte r x = crcByteByTable r x := by
  calc crcByte r x = crcTable (r.extractLsb' 24 8) ^^^ (r <<< 8) ^^^ crcTable x := by rw [crcByte_eq, crcBits_eight]
    _ = (r <<< 8) ^^^ (crcTable (r.extractLsb' 24 8) ^^^ crcTable x) := by
      rw [BitVec.xor_comm (crcTable _) (r <<< 8), BitVec.xor_assoc]
    _ = crcByteByTable r x := by rw [← crcTable_linear, crcByteByTable]

/-- Settles O13: eight shifts of the register are a table entry and its other bytes moved up, and table entries add, so
the two steps agree and with them the two loops; the listed entries are computed. -/
theorem crcTableFormComputesTheSame : Obligations.CrcTableFormComputesTheSame := by
  refine ⟨crcByte_eq_crcByteByTable, fun b => ?_, by decide⟩
  have hstep : crcByte = crcByteByTable := funext₂ crcByte_eq_crcByteByTable
  rw [← hstep]
  rfl

/-! ## The affine law (R74 (b)) -/

theorem crcRun_linear {a b : List Byte} (h : a.length = b.length) (r v : BitVec 32) :
    crcRun (r ^^^ v) (List.zipWith (· ^^^ ·) a b) = crcRun r a ^^^ crcRun v b := by
  induction a generalizing b r v with
  | nil => rw [List.eq_nil_of_length_eq_zero h.symm]; rfl
  | cons x xs ih =>
    cases b with
    | nil => cases h
    | cons y ys =>
      calc crcRun (r ^^^ v) (List.zipWith (· ^^^ ·) (x :: xs) (y :: ys))
          = crcRun (crcByte (r ^^^ v) (x ^^^ y)) (List.zipWith (· ^^^ ·) xs ys) := rfl
        _ = crcRun (crcByte r x) xs ^^^ crcRun (crcByte v y) ys := by
          rw [crcByte_linear, ih (Nat.succ.inj h)]

/-- From one register, two strings of equal length leave registers that differ by their difference's run from zero. -/
theorem crcRun_xor_crcRun {a b : List Byte} (h : a.length = b.length) (r : BitVec 32) :
    crcRun r a ^^^ crcRun r b = crcRun 0#32 (List.zipWith (· ^^^ ·) a b) := by
  rw [← crcRun_linear h, BitVec.xor_self]

theorem reverse_xor {w : Nat} (x y : BitVec w) : (x ^^^ y).reverse = x.reverse ^^^ y.reverse := by
  ext i hi
  simp [BitVec.getElem_reverse, BitVec.getMsbD_xor]

/-- The final exclusive or cancels between two CRCs (R75 for the reflected variant). -/
theorem crc32_xor_crc32 (reflect : Bool) {a b : List Byte} (h : a.length = b.length) :
    crc32 reflect a ^^^ crc32 reflect b =
      if reflect then (crcRun 0#32 ((List.zipWith (· ^^^ ·) a b).map BitVec.reverse)).reverse
      else crcRun 0#32 (List.zipWith (· ^^^ ·) a b) := by
  have hout (u v : BitVec 32) : u ^^^ crcXorOut ^^^ (v ^^^ crcXorOut) = u ^^^ v := by
    rw [xor_xor_xor_comm, BitVec.xor_self, BitVec.xor_zero]
  cases reflect
  case false => simp only [crc32, hout, crcRun_xor_crcRun h, Bool.false_eq_true, if_false]
  case true =>
    have hmap : (List.zipWith (· ^^^ ·) a b).map BitVec.reverse =
        List.zipWith (· ^^^ ·) (a.map BitVec.reverse) (b.map BitVec.reverse) := by
      simp only [List.map_zipWith, List.zipWith_map, reverse_xor]
    have hlen : (a.map BitVec.reverse).length = (b.map BitVec.reverse).length := by simp [h]
    simp only [crc32, hout, ← reverse_xor, crcRun_xor_crcRun hlen, hmap, if_true]

/-- A string is its own difference from zeros. -/
theorem zipWith_xor_zeros (a : List Byte) : List.zipWith (· ^^^ ·) a (List.replicate a.length 0#8) = a := by
  induction a with
  | nil => rfl
  | cons x xs ih => simp [List.replicate_succ, ih]

/-- Settles O15: either side is the run from zero over a xor b. -/
theorem crcIsAffine : Obligations.CrcIsAffine := by
  intro reflect a b h
  have hlen : (List.zipWith (· ^^^ ·) a b).length = a.length := by simp [h]
  rw [crc32_xor_crc32 reflect h, crc32_xor_crc32 reflect (by simp [h]), ← hlen, zipWith_xor_zeros]

/-! ## The residue (R74 (d)) -/

/-- The 32 bits of a word are those of its big-endian bytes. -/
theorem topBits_be32 (v : BitVec 32) : topBits 32 v = bitsMsbFirst (be32 v).val := by
  simp [topBits, bitsMsbFirst, be32, BitVec.msb_eq_getLsbD_last]

/-- Four bytes taken one after another are a word added to the register and shifted out. -/
theorem crcRun_be32 (r v : BitVec 32) : crcRun r (be32 v).val = crcBits 32 (r ^^^ v) := by
  rw [crcBits_xor, topBits_be32, ← crcRun_eq_serialCrc, BitVec.shiftLeft_eq_zero (le_refl 32), BitVec.xor_zero]

/-- Settles O16: the appended CRC differs from the register by the final exclusive or alone, so what is shifted out does
not depend on the message. -/
theorem crcResidueIsConstant : Obligations.CrcResidueIsConstant := by
  intro m
  have hshift : crcBits 32 crcXorOut ^^^ crcXorOut = 0x38FB2284#32 := by decide +kernel
  calc crc32 false (m ++ (be32 (crc32 false m)).val)
      = crcRun (crcRun crcInit m) (be32 (crcRun crcInit m ^^^ crcXorOut)).val ^^^ crcXorOut := by
        simp only [crc32, crcRun, List.foldl_append, Bool.false_eq_true, if_false]
    _ = crcBits 32 crcXorOut ^^^ crcXorOut := by
        rw [crcRun_be32, ← BitVec.xor_assoc, BitVec.xor_self, BitVec.zero_xor]
    _ = 0x38FB2284#32 := hshift

/-! ## The check (R73) -/

theorem exec_crc32Check (s : State) (f : Flit) :
    exec (.crc32Check f) s = .next (s.answer s.block [] (.bool (crcGood s.cfg.crcReflect f))) := rfl

/-- Settles O17: CRC32_CHECK answers `crcGood`, which is `CrcMatches` of the flit. -/
theorem crcCheckComparesTheField : Obligations.CrcCheckComparesTheField := fun s f =>
  ⟨_, _, exec_crc32Check s f, read_answer .., crcGood_iff s.cfg.crcReflect f⟩

end Sys2Proof.Machine

/-! SUPPORT. Proofs of the family of 41_flit_codec.md: a packed flit region by region, the slot map as the segments in
index order, and the header bytes by R53's formulas. -/

namespace Sys2Proof.Machine

/-! ## The codec's operations (R83, R84, R87) -/

theorem exec_flitUnpack (s : State) (f : Flit) :
    exec (.flitUnpack f) s = .next (s.answer s.block [] (.tls (flitUnpack f))) := rfl

theorem exec_flitUnpackChecked (s : State) (f : Flit) :
    exec (.flitUnpackChecked f) s = .next (s.answer s.block [] (.checkedTls (flitUnpackChecked s.cfg.crcReflect f))) :=
  rfl

theorem exec_hdrDecode (s : State) (f : Flit) :
    exec (.hdrDecode f) s = .next (s.answer s.block [] (.header (headerFields (flitHeader f)))) := rfl

/-- The checked disassembler where the CRC field matches (R84). -/
theorem flitUnpackChecked_of_matches {reflect : Bool} {f : Flit} (h : CrcMatches reflect f) :
    flitUnpackChecked reflect f = some (flitUnpack f) := if_pos ((crcGood_iff reflect f).2 h)

/-- The checked disassembler where it does not: the CrcError (R84). -/
theorem flitUnpackChecked_of_not_matches {reflect : Bool} {f : Flit} (h : ¬ CrcMatches reflect f) :
    flitUnpackChecked reflect f = none := if_neg (mt (crcGood_iff reflect f).1 h)

/-- A packed flit passes the check, so that its list is answered (R86). -/
theorem flitUnpackChecked_flitPack (reflect : Bool) (tls : List Tl) (h : tls.length ≤ 7) (op : BitVec 3)
    (pb : BitVec 1) (q : Seq) : flitUnpackChecked reflect (flitPack reflect tls h op pb q) = some tls := by
  rw [flitUnpackChecked, crcGood_flitPack, if_pos rfl, flitUnpack_flitPack]

/-- The count of at most seven TL flits fits its field. -/
theorem packedCount_toNat {tls : List Tl} (h : tls.length ≤ 7) : (BitVec.ofNat 4 tls.length).toNat = tls.length := by
  rw [BitVec.toNat_ofNat, Nat.mod_eq_of_lt (by omega)]

/-- Settles O18: a packed flit is sealed, so both checks pass; the disassembler lifts slot by slot what the assembler
put there; and the header is the explicit word of the operands. -/
theorem packedFlitRoundTrips : Obligations.PackedFlitRoundTrips := by
  intro s tls op pb q h
  refine ⟨_, _, _, _, _, _, _, exec_flitPack s tls op pb q h, read_answer .., packedCount_toNat h,
    exec_crc32Check s _, ?_, exec_flitUnpackChecked s _, ?_, exec_hdrDecode s _, read_answer .., ?_⟩
  · rw [crcGood_flitPack]
    exact read_answer ..
  · rw [flitUnpackChecked_flitPack]
    exact read_answer ..
  · rw [flitHeader_flitPack]
    exact decExplicit_explicitWord ..

/-! ## The packed flit byte by byte (R80) -/

/-- The header bytes of a payload flit (R48, R53). -/
theorem encExplicit_val (op : BitVec 3) (pb : BitVec 1) (q : Seq) :
    (encExplicit op pb q).val =
      [BitVec.ofNat 8 (op.toNat * 32 + pb.toNat * 16 + q.toNat / 256), BitVec.ofNat 8 q.toNat, 0#8] := by
  rw [encExplicit, be24_val_eq, explicitWord_toNat]
  simp only [bytesOfNat, List.cons.injEq, and_true]
  refine ⟨?_, ?_, ?_⟩ <;> apply BitVec.eq_of_toNat_eq <;> simp only [BitVec.toNat_ofNat] <;> omega

/-- The segment header of two TL flits as a number: a mark and a message number for each that is there (R52). -/
theorem segByte_segOf_toNat (t0 t1 : Option Tl) :
    (segByte (segOf t0 t1)).toNat =
      t1.elim 0 (fun t => 128 + 32 * t.msg.toNat) + t0.elim 0 (fun t => 16 + 4 * t.msg.toNat) := by
  rw [segByte_toNat]
  cases t0 <;> cases t1 <;> simp [segOf] <;> omega

/-- A byte of a flit as a number. -/
theorem byteAt_toNat (f : Flit) (i : Nat) (h : i < 640) : (byteAt f i h).toNat = flitByte f i := by
  rw [byteAt, flitByte, List.getD_eq_getElem _ _ (by rw [f.size]; exact h)]

/-- Flit byte 3 + k is the word of segment header k (R45). -/
theorem segByte_segHeader_toNat (f : Flit) (k : Fin 5) : (segByte (segHeader f k)).toNat = flitByte f (3 + k.val) := by
  rw [segHeader, segByte_decSeg, byteAt_toNat]

/-- Bytes 636 to 639 of a sealed flit are the big-endian CRC of the bytes before them (R72). -/
theorem sealFlit_drop (reflect : Bool) (body : Bytes 636) :
    (sealFlit reflect body).val.drop 636 =
      bytesOfNat 4 (crc32 reflect ((sealFlit reflect body).val.take 636)).toNat := by
  rw [sealFlit_take, ← be32_val_eq, sealFlit_val]
  exact List.drop_left' body.size

section
variable (reflect : Bool) (tls : List Tl) (h : tls.length ≤ 7) (op : BitVec 3) (pb : BitVec 1) (q : Seq)

theorem flitPack_take_header : (flitPack reflect tls h op pb q).val.take 3 = (encExplicit op pb q).val := by
  obtain ⟨body, hf, hb⟩ := flitPack_val reflect tls h op pb q
  rw [hf, sealFlit_val, hb, List.append_assoc, List.append_assoc]
  exact List.take_left' (encExplicit op pb q).size

theorem flitByte_flitPack_segHeader (k : Fin 5) :
    flitByte (flitPack reflect tls h op pb q) (3 + k.val) =
      tls[2 * k.val + 1]?.elim 0 (fun t => 128 + 32 * t.msg.toNat) +
      tls[2 * k.val]?.elim 0 (fun t => 16 + 4 * t.msg.toNat) := by
  rw [← segByte_segHeader_toNat, segHeader_flitPack, segByte_segOf_toNat]

theorem flitPack_payload : ((flitPack reflect tls h op pb q).val.drop 8).take 628 = packedPayload tls := by
  obtain ⟨body, hf, hb⟩ := flitPack_val reflect tls h op pb q
  rw [hf, sealFlit_val, hb, List.append_assoc _ (packedPayload tls),
    List.drop_left' (by simp [(encExplicit op pb q).size])]
  exact List.take_left' (packedPayload_length tls h)

end

/-- Settles O19: FLIT_PACK answers a sealed body of header, segment headers and payload, each read at its place. -/
theorem packedFlitLayout : Obligations.PackedFlitLayout := by
  intro s tls op pb q h
  refine ⟨_, _, _, exec_flitPack s tls op pb q h, read_answer .., packedCount_toNat h, ?_, fun k hk => ?_,
    flitPack_payload .., sealFlit_drop ..⟩
  · rw [flitPack_take_header, encExplicit_val]
  · rw [flitByte_flitPack_segHeader s.cfg.crcReflect tls h op pb q ⟨k, hk⟩]
    cases tls[2 * k + 1]? <;> cases tls[2 * k]? <;> rfl

/-! ## Disassembly of any flit (R47, R83, R84) -/

/-- The slots of segment k in the form of the slot map: slot 1 only where the segment has 128 bytes (R47). -/
def segmentSlots (k : Fin 5) : List (Nat × Nat × Nat × Nat) :=
  (3 + k.val, 4, 2, 8 + segOff k) :: if 128 ≤ segSize k then [(3 + k.val, 7, 5, 8 + segOff k + 64)] else []

/-- The slot map is the segments' slots in index order (R47). -/
theorem slotMap_eq : slotMap = segments.flatMap segmentSlots := by decide

/-- What one slot of the slot map holds: nothing, or its data bytes and message number. -/
def markedSlot (f : Flit) (slot : Nat × Nat × Nat × Nat) : Option (List Byte × Nat) :=
  if flitByte f slot.1 / 2 ^ slot.2.1 % 2 = 1 then
    some ((f.val.drop slot.2.2.2).take 64, flitByte f slot.1 / 2 ^ slot.2.2.1 % 4)
  else none

theorem markedSlots_eq (f : Flit) : markedSlots f = slotMap.filterMap (markedSlot f) := rfl

/-- A segment header's marks and message numbers, each by arithmetic on its byte (R52). -/
theorem segHeader_toNat (f : Flit) (k : Fin 5) :
    ((segHeader f k).tlFlit0 = 1#1 ↔ flitByte f (3 + k.val) / 2 ^ 4 % 2 = 1) ∧
    (segHeader f k).message0.toNat = flitByte f (3 + k.val) / 2 ^ 2 % 4 ∧
    ((segHeader f k).tlFlit1 = 1#1 ↔ flitByte f (3 + k.val) / 2 ^ 7 % 2 = 1) ∧
    (segHeader f k).message1.toNat = flitByte f (3 + k.val) / 2 ^ 5 % 4 := by
  obtain ⟨ht1, hm1, ht0, hm0, -, -⟩ := decSeg_toNat (byteAt f (3 + k.val) (by omega))
  rw [byteAt_toNat] at ht1 hm1 ht0 hm0
  have := flitByte_lt f (3 + k.val)
  simp only [segHeader, ← BitVec.toNat_inj, ht1, hm1, ht0, hm0, BitVec.toNat_ofNat]
  omega

section
variable (f : Flit) (k : Fin 5)

/-- Slot 0 of a segment in the slot map: its TL flit, where its mark is set. -/
theorem markedSlot_slot0 : markedSlot f (3 + k.val, 4, 2, 8 + segOff k) =
    if (segHeader f k).tlFlit0 = 1#1 then some (tlOperand { data := slot0 f k, msg := (segHeader f k).message0 })
    else none := by
  obtain ⟨hmark, hmessage, -, -⟩ := segHeader_toNat f k
  rw [tlOperand, hmessage]
  exact if_congr hmark.symm rfl rfl

/-- Slot 1 of a segment that has one. -/
theorem markedSlot_slot1 (hs : 128 ≤ segSize k) : markedSlot f (3 + k.val, 7, 5, 8 + segOff k + 64) =
    if (segHeader f k).tlFlit1 = 1#1 then some (tlOperand { data := slot1 f k hs, msg := (segHeader f k).message1 })
    else none := by
  obtain ⟨-, -, hmark, hmessage⟩ := segHeader_toNat f k
  rw [tlOperand, hmessage]
  exact if_congr hmark.symm rfl rfl

/-- One segment lifts what the slot map says of its slots: slot 0 by its mark, slot 1 by its mark where it exists. -/
theorem unpackSegment_eq_markedSlots :
    (unpackSegment f k).map tlOperand = (segmentSlots k).filterMap (markedSlot f) := by
  have hslot0 := markedSlot_slot0 f k
  by_cases hs : 128 ≤ segSize k
  · have hslot1 := markedSlot_slot1 f k hs
    by_cases h0 : (segHeader f k).tlFlit0 = 1#1 <;> by_cases h1 : (segHeader f k).tlFlit1 = 1#1 <;>
      simp [unpackSegment, segmentSlots, hs, hslot0, hslot1, h0, h1]
  · by_cases h0 : (segHeader f k).tlFlit0 = 1#1 <;> simp [unpackSegment, segmentSlots, hs, hslot0, h0]

end

theorem flitUnpack_eq_markedSlots (f : Flit) : (flitUnpack f).map tlOperand = markedSlots f := by
  rw [markedSlots_eq, slotMap_eq, List.filterMap_flatMap, flitUnpack, List.map_flatMap]
  simp only [unpackSegment_eq_markedSlots]

/-- Settles O21: the slot map lists the segments' slots in index order, and each segment lifts its marked ones. -/
theorem unpackLiftsTheMarkedSlots : Obligations.UnpackLiftsTheMarkedSlots := fun s f =>
  ⟨_, _, exec_flitUnpack s f, read_answer .., flitUnpack_eq_markedSlots f⟩

/-- Settles O22: the checked form looks at the CRC that `CrcMatches` speaks of, and answers None or the whole list. -/
theorem checkedUnpackRejectsExactlyBadCrc : Obligations.CheckedUnpackRejectsExactlyBadCrc := by
  refine fun s f => ⟨fun hgood => ⟨_, _, _, exec_flitUnpackChecked s f, ?_, exec_flitUnpack s f, read_answer ..⟩,
    fun hbad => ⟨_, exec_flitUnpackChecked s f, ?_⟩⟩
  · rw [flitUnpackChecked_of_matches hgood]
    exact read_answer ..
  · rw [flitUnpackChecked_of_not_matches hbad]
    exact read_answer ..

/-! ## The header of any flit (R53, R87) -/

/-- Settles O23: the header value is that of flit bytes 0 to 2, whose fields R53's formulas give. -/
theorem headerDecodeGivesBothReadings : Obligations.HeaderDecodeGivesBothReadings := by
  intro s f
  have hexplicit := decExplicit_headerWord (byteAt f 0 (by decide)) (byteAt f 1 (by decide)) (byteAt f 2 (by decide))
  have hcommand := decCommand_headerWord (byteAt f 0 (by decide)) (byteAt f 1 (by decide)) (byteAt f 2 (by decide))
  simp only [byteAt_toNat] at hexplicit hcommand
  obtain ⟨hop, hpb, hq⟩ := hexplicit
  exact ⟨_, _, exec_hdrDecode s f, read_answer .., hop, hpb, hq, hcommand⟩

/-! ## Refusal (R82) -/

/-- Settles O20: both operations test the length of the list before anything else. -/
theorem eightTlFlitsAreRefused : Obligations.EightTlFlitsAreRefused := by
  intro s tls op pb q h
  have hn : ¬ tls.length ≤ 7 := by omega
  exact ⟨dif_neg hn, dif_neg hn⟩

end Sys2Proof.Machine

/-! SUPPORT. Proofs of the family of 42_replay_seq.md: the distance as the number of successor steps, an Ack on a buffer
of consecutive numbers, and the exchange of a payload flit and its Ack between two sides of a link. -/

namespace Sys2Proof.Machine

/-! ## Sequence arithmetic (R95, R96) -/

theorem fwd_self (a : Seq) : fwd a a = 0 := fwd_iterate 0 a

/-- In the ring of valid numbers a number is reached from another by their distance in steps. -/
theorem wrapSeq_iterate_fwd {a b : Seq} (ha : a ≠ 0#9) (hb : b ≠ 0#9) : wrapSeq^[fwd a b] b = a := by
  refine seq_eq_of_mod (wrapSeq_iterate_ne_zero _ b hb) ha ?_
  rw [wrapSeq_iterate_mod]
  unfold fwd
  omega

theorem fwd_eq_zero_iff {a b : Seq} (ha : a ≠ 0#9) (hb : b ≠ 0#9) : fwd a b = 0 ↔ a = b := by
  refine ⟨fun h => ?_, fun h => h ▸ fwd_self a⟩
  rw [← wrapSeq_iterate_fwd ha hb, h, Function.iterate_zero, id]

/-- There and back again is once round the ring. -/
theorem fwd_add_fwd {a b : Seq} (ha : a ≠ 0#9) (hb : b ≠ 0#9) (hab : a ≠ b) : fwd a b + fwd b a = 511 := by
  have hne : fwd a b ≠ 0 := mt (fwd_eq_zero_iff ha hb).1 hab
  unfold fwd at hne ⊢
  omega

theorem fwd_eq_iff {a b : Seq} (ha : a ≠ 0#9) (hb : b ≠ 0#9) {d : Nat} (hd : d < 511) :
    fwd a b = d ↔ a = wrapSeq^[d] b := by
  constructor
  · rintro rfl
    exact (wrapSeq_iterate_fwd ha hb).symm
  · rintro rfl
    rw [fwd_iterate, Nat.mod_eq_of_lt hd]

/-- Settles O24: modulo 511 the successor is one more, so n steps from b lead to a distance of n. -/
theorem sequenceRingArithmetic : Obligations.SequenceRingArithmetic :=
  ⟨fun x => ⟨wrapSeq_toNat x, wrapSeq_ne_zero x⟩, fun a b => ⟨fwd_eq_distance a b, fwd_le a b⟩,
    fun _ _ ha hb => ⟨fwd_eq_zero_iff ha hb, fwd_add_fwd ha hb, fun _ hd => fwd_eq_iff ha hb hd⟩⟩

/-! ## The replay buffer's operations (R98 to R104) -/

section
variable (s : State) (q : Seq)

theorem exec_rbAdd (f : Flit) :
    exec (.rbAdd q f) s = .next (s.answer (rbAdd q f s.block).2 [] (.bool (rbAdd q f s.block).1)) := rfl

theorem exec_rbAdd_room (f : Flit) (h : s.block.rb.length ≠ 512) :
    exec (.rbAdd q f) s =
      .next (s.answer { s.block with rb := s.block.rb ++ [{ seq := q, flit := f }] } [] (.bool true)) := by
  rcases rbAdd_cases q f s.block with ⟨hfull, -⟩ | ⟨-, e⟩
  · exact absurd hfull h
  · rw [exec_rbAdd, e]

theorem exec_rbAdd_full (f : Flit) (h : s.block.rb.length = 512) :
    exec (.rbAdd q f) s = .next (s.answer s.block [] (.bool false)) := by
  rcases rbAdd_cases q f s.block with ⟨-, e⟩ | ⟨hroom, -⟩
  · rw [exec_rbAdd, e]
  · exact absurd h hroom

theorem exec_rbRetireThrough :
    exec (.rbRetireThrough q) s = .next (s.answer (rbRetireThrough q s.block) [] .none) := rfl

theorem exec_epProcessAck : exec (.epProcessAck q) s = .next (s.answer (rbRetireThrough q s.block) [] .none) := rfl

theorem exec_rbReplayIter :
    exec (.rbReplayIter q) s = .next (s.answer s.block [] (.entries (rbReplayIter q s.block))) := rfl

theorem exec_rbOldestSeq :
    exec .rbOldestSeq s = .next (s.answer s.block [] (.optSeq (s.block.rb.head?.map Entry.seq))) := rfl

theorem exec_rbNewestSeq :
    exec .rbNewestSeq s = .next (s.answer s.block [] (.optSeq (s.block.rb.getLast?.map Entry.seq))) := rfl

theorem exec_rbSize : exec .rbSize s = .next (s.answer s.block [] (.size s.block.rb.length)) := rfl

theorem exec_rbClear : exec .rbClear s = .next (s.answer { s.block with rb := [] } [] .none) := rfl

end

/-- Settles O25: both outcomes of RB_ADD, by whether the buffer holds 512 entries. -/
theorem replayBufferAdd : Obligations.ReplayBufferAdd := fun s q f =>
  ⟨fun h => ⟨_, exec_rbAdd_room s q f h, answered_answer .., rfl⟩,
    fun h => ⟨_, exec_rbAdd_full s q f h, read_answer ..⟩⟩

/-- Settles O26: both operations replace the buffer by what the retire loop leaves of it, and `retire_cases` says why
the loop stops. -/
theorem retireThroughStopsWhereTheRuleSays : Obligations.RetireThroughStopsWhereTheRuleSays := by
  intro s a i hi
  have hexec : exec i s = .next (s.answer (rbRetireThrough a s.block) [] .none) := by
    simp only [List.mem_cons, List.not_mem_nil, or_false] at hi
    rcases hi with rfl | rfl
    · exact exec_rbRetireThrough s a
    · exact exec_epProcessAck s a
  obtain ⟨j, hj, hdrop, hbehind, hother, hstop⟩ := retire_cases a s.block.rb
  refine ⟨_, j, hexec, answered_answer .., hj, ?_, fun n e hn he => (seqLeq_iff e.seq a).1 (hbehind n e hn he),
    hother, fun e he => ?_⟩
  · rw [answer_block, rbRetireThrough, hdrop]
  · rw [← seqLeq_iff, Bool.not_eq_true]
    exact hstop e he

/-- Settles O28: `rbReplayIter_cases` for the answer of RB_REPLAY_ITER. -/
theorem replayIteratorStartsAtOldestMatch : Obligations.ReplayIteratorStartsAtOldestMatch := fun s r =>
  ⟨_, _, exec_rbReplayIter s r, read_answer .., rbReplayIter_cases r s.block⟩

/-- Settles O29: the ends of a list, none where it is empty. -/
theorem replayBufferEndsAndSize : Obligations.ReplayBufferEndsAndSize := by
  refine fun s => ⟨⟨_, _, exec_rbOldestSeq s, read_answer .., ?_, fun e rest h => ?_⟩,
    ⟨_, _, exec_rbNewestSeq s, read_answer .., ?_, fun e before h => ?_⟩, ⟨_, exec_rbSize s, read_answer ..⟩⟩
  · rw [Option.map_eq_none_iff, List.head?_eq_none_iff]
  · rw [h, List.head?_cons, Option.map_some]
  · rw [Option.map_eq_none_iff, List.getLast?_eq_none_iff]
  · rw [h, List.getLast?_concat, Option.map_some]

/-! ## An Ack on consecutive numbers (R99, R105) -/

/-- The j-th number after an entry's: the Ack reaches back to the entry when j is below the window. -/
theorem seqLeq_iterate (a : Seq) {j : Nat} (hj : j < 511) : seqLeq a (wrapSeq^[j] a) = decide (j < 255) := by
  rw [seqLeq, fwd_iterate, Nat.mod_eq_of_lt hj, retireWindow]

theorem wrapSeq_iterate_ne_self (a : Seq) {j : Nat} (hpos : 0 < j) (hj : j < 511) : wrapSeq^[j] a ≠ a := by
  intro h
  have hdist := fwd_iterate j a
  rw [h, fwd_self, Nat.mod_eq_of_lt hj] at hdist
  omega

/-- Within the window an Ack of the entry at index j retires it and all before it. -/
theorem retire_iterate_near {l : List Entry} {a : Seq} (hl : l.map Entry.seq = ringFrom a l.length) {j : Nat}
    (hj : j < l.length) (hnear : j < 255) : retire (wrapSeq^[j] a) l = l.drop (j + 1) := by
  induction l generalizing a j with
  | nil => cases hj
  | cons e rest ih =>
    obtain ⟨he, hrest⟩ := List.cons.inj hl
    have hleq : seqLeq e.seq (wrapSeq^[j] a) = true := by
      rw [he, seqLeq_iterate a (by omega), decide_eq_true hnear]
    rw [retire, if_pos hleq]
    cases j with
    | zero => exact if_pos he
    | succ j =>
      have hne : e.seq ≠ wrapSeq^[j + 1] a := he ▸ (wrapSeq_iterate_ne_self a (by omega) (by omega)).symm
      rw [if_neg hne, Function.iterate_succ_apply]
      exact ih hrest (Nat.lt_of_succ_lt_succ hj) (by omega)

/-- Beyond the window the oldest entry already stops the loop. -/
theorem retire_iterate_far {l : List Entry} {a : Seq} (hl : l.map Entry.seq = ringFrom a l.length) {j : Nat}
    (hfar : 255 ≤ j) (hj : j < 511) : retire (wrapSeq^[j] a) l = l := by
  cases l with
  | nil => rfl
  | cons e rest =>
    obtain ⟨he, -⟩ := List.cons.inj hl
    have hleq : seqLeq e.seq (wrapSeq^[j] a) = false := by
      rw [he, seqLeq_iterate a hj, decide_eq_false (by omega)]
    rw [retire, hleq, if_neg Bool.false_ne_true]

/-- A row of RB_ADDs that finds room for all of them appends them all. -/
theorem runOps_rbAdd (entries : List (Seq × Flit)) (s : State) (h : s.block.rb.length + entries.length ≤ 512) :
    ∃ t, runOps (entries.map fun e => .rbAdd e.1 e.2) s = .next t ∧
      t.block.rb = s.block.rb ++ entries.map fun e => { seq := e.1, flit := e.2 } := by
  induction entries generalizing s with
  | nil => exact ⟨s, rfl, by simp⟩
  | cons e rest ih =>
    rw [List.length_cons] at h
    obtain ⟨t, hrun, hrb⟩ := ih
      (s.answer { s.block with rb := s.block.rb ++ [{ seq := e.1, flit := e.2 }] } [] (.bool true)) (by simp; omega)
    refine ⟨t, ?_, by simpa using hrb⟩
    rw [List.map_cons, runOps_cons_next _ _ _ _ (exec_rbAdd_room s e.1 e.2 (by omega))]
    exact hrun

/-- Settles O27: the adds leave consecutive numbers in the buffer, of which the Ack's is at index j - 1; that index is
within the window exactly when j is at most 255. -/
theorem cumulativeAckAndItsLimit : Obligations.CumulativeAckAndItsLimit := by
  intro s a flits j _ hempty hlen hpos hj
  obtain ⟨t, hrun, hrb⟩ := runOps_rbAdd ((ringFrom a flits.length).zip flits) s (by simp [hempty]; omega)
  rw [hempty, List.nil_append] at hrb
  have hflits : t.block.rb.map Entry.flit = flits := by
    rw [hrb, List.map_map]
    exact List.map_snd_zip (by simp)
  have hcount : t.block.rb.length = flits.length := by rw [← List.length_map Entry.flit, hflits]
  have hseqs : t.block.rb.map Entry.seq = ringFrom a t.block.rb.length := by
    rw [hcount, hrb, List.map_map]
    exact List.map_fst_zip (by simp)
  have hretire : retire (wrapSeq^[j - 1] a) t.block.rb = if j ≤ 255 then t.block.rb.drop j else t.block.rb := by
    split
    · rw [retire_iterate_near hseqs (by omega) (by omega), Nat.sub_add_cancel hpos]
    · exact retire_iterate_far hseqs (by omega) (by omega)
  refine ⟨t.answer (rbRetireThrough (wrapSeq^[j - 1] a) t.block) [] .none, ?_, ?_, ?_⟩
  · rw [runOps_append _ _ _ _ hrun, runOps_cons_next _ _ _ _ (exec_rbRetireThrough t _), runOps_nil]
  · rw [answer_block, rbRetireThrough_rb, hretire, ← hcount]
    split
    · exact List.length_drop
    · rfl
  · rw [answer_block, rbRetireThrough_rb, hretire, ← hflits]
    split
    · exact List.map_drop
    · rfl

/-! ## The receive tracker (R106 to R109, R111) -/

section
variable (s : State) (q : Seq)

theorem exec_stIsExpected :
    exec (.stIsExpected q) s = .next (s.answer s.block [] (.bool (isExpected s.block.expectedSeq q))) := rfl

theorem exec_stIsDuplicate :
    exec (.stIsDuplicate q) s = .next (s.answer s.block [] (.bool (isDuplicate s.block.expectedSeq q))) := rfl

theorem exec_stAdvance :
    exec .stAdvance s = .next (s.answer { s.block with expectedSeq := wrapSeq s.block.expectedSeq } [] .none) := rfl

theorem exec_stReset : exec .stReset s = .next (s.answer { s.block with expectedSeq := 1#9 } [] .none) := rfl

theorem exec_armProcessReceived (lo : BitVec 3) :
    exec (.armProcessReceived q lo) s = .next (s.answer (armProcessReceived s.cfg q lo s.block).2 []
      (.optFlit (armProcessReceived s.cfg q lo s.block).1)) := rfl

end

/-- Settles O30: the two tests are the formulas, and the expected number is at distance 0 from itself. -/
theorem arrivalsAreClassifiedOnce : Obligations.ArrivalsAreClassifiedOnce := fun s q =>
  ⟨_, _, _, _, exec_stIsExpected s q, read_answer .., exec_stIsDuplicate s q, read_answer .., isExpected_iff ..,
    isDuplicate_iff .., not_expected_and_duplicate _ _⟩

/-- Advancing m times takes m successor steps. -/
theorem runOps_stAdvance (m : Nat) (s : State) :
    ∃ t, runOps (List.replicate m .stAdvance) s = .next t ∧
      t.block.expectedSeq = wrapSeq^[m] s.block.expectedSeq := by
  induction m generalizing s with
  | zero => exact ⟨s, rfl, rfl⟩
  | succ m ih =>
    rw [List.replicate_succ, runOps_cons_next _ _ _ _ (exec_stAdvance s)]
    exact ih _

/-- The number m steps after 1 (R111). -/
theorem wrapSeq_iterate_one_toNat (m : Nat) : (wrapSeq^[m] 1#9).toNat = m % 511 + 1 := by
  have hmod := wrapSeq_iterate_mod m 1#9
  have hne : (wrapSeq^[m] 1#9).toNat ≠ 0 := fun h =>
    wrapSeq_iterate_ne_zero m 1#9 (by decide) (BitVec.eq_of_toNat_eq h)
  have hlt := (wrapSeq^[m] 1#9).isLt
  have hone : (1#9).toNat = 1 := rfl
  rw [hone] at hmod
  omega

/-- Settles O32: one advance is one successor step, and the number m steps after 1 is valid and m more modulo 511. -/
theorem trackerAdvancesRoundTheRing : Obligations.TrackerAdvancesRoundTheRing := by
  refine ⟨fun s => ⟨_, exec_stAdvance s, answered_answer .., ?_⟩, fun s m hone => ?_⟩
  · rw [answer_block, wrapSeq_eq_ofNat]
  · obtain ⟨t, hrun, hseq⟩ := runOps_stAdvance m s
    exact ⟨t, hrun, by rw [hseq, hone, wrapSeq_iterate_one_toNat]⟩

/-! ## The reserved number 0 (R112) -/

theorem isExpected_zero {e : Seq} (he : e ≠ 0#9) : isExpected e 0#9 = false := decide_eq_false he.symm

/-- 0 is as far behind a number as 511 is: its distance is the number itself modulo 511. -/
theorem isDuplicate_zero {e : Seq} (he : e ≠ 0#9) : isDuplicate e 0#9 = decide (e.toNat ≤ 255) := by
  have hpos : e.toNat ≠ 0 := fun h => he (BitVec.eq_of_toNat_eq h)
  have hlt := e.isLt
  have hzero : (0#9).toNat = 0 := rfl
  rw [Bool.eq_iff_iff, isDuplicate_iff, distance, hzero, decide_eq_true_iff]
  omega

/-- A number that is not expected is not accepted: the block stays as it is. -/
theorem armProcessReceived_block_of_ne {cfg : Config} {q : Seq} {lo : BitVec 3} {b : Block} (hq : q ≠ b.expectedSeq) :
    (armProcessReceived cfg q lo b).2 = b := by
  have hclass : classify b.expectedSeq q ≠ .expected := mt (classify_expected_iff ..).1 hq
  rcases armProcessReceived_cases cfg q lo b with ⟨h, -, -⟩ | ⟨h, -, -⟩ | ⟨-, e⟩ | ⟨-, e⟩
  · exact absurd h hclass
  · exact absurd h hclass
  · rw [e]
  · rw [e]

/-- Where no entry carries the Ack's number the stop test never holds. -/
theorem retire_eq_dropWhile {a : Seq} {l : List Entry} (h : ∀ e ∈ l, e.seq ≠ a) :
    retire a l = l.dropWhile fun e => seqLeq e.seq a := by
  induction l with
  | nil => rfl
  | cons e rest ih =>
    obtain ⟨he, hrest⟩ := List.forall_mem_cons.1 h
    rw [retire, if_neg he, ih hrest, List.dropWhile_cons]

/-- An Ack of 0 compares like one of 511. -/
theorem seqLeq_zero (q : Seq) : seqLeq q 0#9 = decide (distance 511#9 q < 255) := by
  have hdist : distance 0#9 q = distance 511#9 q := by
    have hzero : (0#9).toNat = 0 := rfl
    have htop : (511#9).toNat = 511 := rfl
    rw [distance, distance, hzero, htop]
    omega
  rw [Bool.eq_iff_iff, seqLeq_iff, hdist, decide_eq_true_iff]

theorem rbReplayIter_eq_nil {r : Seq} {b : Block} (h : ∀ e ∈ b.rb, e.seq ≠ r) : rbReplayIter r b = [] :=
  List.dropWhile_eq_nil_iff.2 fun e he => decide_eq_true (h e he)

/-- Settles O31: 0 is not the expected number and no entry carries it, and modulo 511 it is 511. -/
theorem sequenceZeroIsNeverAccepted : Obligations.SequenceZeroIsNeverAccepted := by
  intro s lo he hrb
  refine ⟨⟨_, exec_stIsExpected s _, ?_⟩, ⟨_, exec_stIsDuplicate s _, ?_⟩, ⟨_, exec_armProcessReceived s _ lo, ?_⟩,
    ⟨_, exec_rbRetireThrough s _, answered_answer .., ?_⟩, ⟨_, exec_rbReplayIter s _, ?_⟩⟩
  · rw [isExpected_zero he]
    exact read_answer ..
  · rw [isDuplicate_zero he]
    exact read_answer ..
  · exact armProcessReceived_block_of_ne he.symm
  · simp only [answer_block, rbRetireThrough, retire_eq_dropWhile hrb, seqLeq_zero]
  · rw [rbReplayIter_eq_nil hrb]
    exact read_answer ..

/-! ## A payload flit and its Ack between two sides (R138, R139, R142) -/

/-- EP_SEND_PAYLOAD outside replay, with room and a legal count: the flit is stored and transmitted under the next
number. -/
theorem exec_epSendPayload_stored {s : State} {tls : List Tl} (h : tls.length ≤ 7) (hroom : s.block.rb.length ≠ 512)
    (hcount : s.block.tx.explicitCount ≠ 0#5) (hreplay : s.block.tx.inReplay = false) :
    ∃ q f opp tx, q = wrapSeq s.block.tx.lastSeq ∧ f = flitPack s.cfg.crcReflect tls h 0b000#3 1#1 q ∧
      exec (.epSendPayload tls) s = .next (s.answer
        { s.block with rb := s.block.rb ++ [{ seq := q, flit := f }], tx := tx } [.transmit f] (.sent q opp)) := by
  obtain ⟨opp, tx, htick, -⟩ := tick_ok { s.block.tx with lastSeq := wrapSeq s.block.tx.lastSeq } hcount
  rcases epSendPayload_cases s.cfg.crcReflect tls h s.block with
    ⟨hfull, -⟩ | ⟨-, f, hf, ⟨opp', tx', -, e⟩ | ⟨x, hx, -⟩⟩
  · exact absurd hfull hroom
  · refine ⟨_, f, opp', tx', rfl, hf, ?_⟩
    simp only [exec, execEpSendPayload, dif_pos h, e, hreplay, complete_eq, Bool.false_eq_true, if_false]
  · rw [htick] at hx
    cases hx

theorem exec_epReceiveFlit (s : State) (f : Flit) :
    exec (.epReceiveFlit f) s = .next (s.answer (epReceiveFlit s.cfg f s.block).2.2 (epReceiveFlit s.cfg f s.block).2.1
      (.received (epReceiveFlit s.cfg f s.block).1)) := rfl

section
variable (cfg : Config) (b : Block)

/-- A packed payload flit takes the payload path, with the TL flits it was packed from (R86, R139). -/
theorem epReceiveFlit_flitPack (tls : List Tl) (h : tls.length ≤ 7) (op : BitVec 3) (q : Seq) :
    epReceiveFlit cfg (flitPack cfg.crcReflect tls h op 1#1 q) b =
      receivePayload cfg (flitPack cfg.crcReflect tls h op 1#1 q) tls b := by
  have hpayload : (decCommand (flitHeader (flitPack cfg.crcReflect tls h op 1#1 q))).payloadBit ≠ 0#1 := by
    rw [flitHeader_flitPack, decCommand_explicitWord_payloadBit]
    decide
  have hgood := crcGood_flitPack cfg.crcReflect tls h op 1#1 q
  rcases epReceiveFlit_cases cfg (flitPack cfg.crcReflect tls h op 1#1 q) b with
    ⟨hp, -⟩ | ⟨hp, -⟩ | ⟨hp, -⟩ | ⟨-, hbad, -⟩ | ⟨-, -, e⟩
  · exact absurd hp hpayload
  · exact absurd hp hpayload
  · exact absurd hp hpayload
  · rw [hgood] at hbad; cases hbad
  · rw [e, flitUnpack_flitPack]

/-- An expected payload flit, where every flit is acknowledged: its Ack is transmitted, then it is delivered (R133,
R139). -/
theorem receivePayload_acked {f : Flit} (tls : List Tl) (hn : cfg.ackEveryN = 0)
    (hq : (decExplicit (flitHeader f)).flitSeqNo = b.expectedSeq) :
    receivePayload cfg f tls b = (.accepted tls,
      [.transmit (cmdFlit cfg.crcReflect opAck b.expectedSeq (txLo b.tx)), .deliver tls],
      { b with expectedSeq := wrapSeq b.expectedSeq, arm := { flitsSinceAck := 0 } }) := by
  have hclass : classify b.expectedSeq b.expectedSeq = .expected := (classify_expected_iff ..).2 rfl
  have hdue : ackDue cfg.ackEveryN (b.arm.flitsSinceAck + 1) = true := (ackDue_iff ..).2 (.inl hn)
  simp only [receivePayload, armProcessReceived, hq, hclass, hdue, if_true, List.singleton_append]

/-- A received Ack retires through its number (R142). -/
theorem epReceiveFlit_ack (q : Seq) (lo : BitVec 3) :
    epReceiveFlit cfg (cmdFlit cfg.crcReflect opAck q lo) b = (.command, [.ackEvent q], rbRetireThrough q
      { b with cmd := { b.cmd with acksReceived := countUp cfg .acksReceived b.cmd.acksReceived } }) := by
  have hgood := crcGood_cmdFlit cfg.crcReflect opAck q lo
  rcases epReceiveFlit_cases cfg (cmdFlit cfg.crcReflect opAck q lo) b with
    ⟨-, hbad, -⟩ | ⟨-, -, -, e⟩ | ⟨-, -, hop, -⟩ | ⟨-, hbad, -⟩ | ⟨hother, -, -⟩
  · rw [hgood] at hbad; cases hbad
  · simpa only [flitHeader_cmdFlit, decCommand_commandWord] using e
  · rw [flitHeader_cmdFlit, decCommand_commandWord] at hop; cases hop
  · rw [hgood] at hbad; cases hbad
  · simp at hother

end

theorem ringFrom_succ_last (a : Seq) (n : Nat) : ringFrom a (n + 1) = ringFrom a n ++ [wrapSeq^[n] a] := by
  induction n generalizing a with
  | zero => rfl
  | succ n ih => rw [ringFrom, ih, ringFrom, Function.iterate_succ_apply, List.cons_append]

/-- An Ack of the newest of at most 255 consecutive numbers empties the buffer (R105, R192). -/
theorem retire_newest {l : List Entry} {a : Seq} {k : Nat} (hl : l.map Entry.seq = ringFrom a k) (hk : k ≤ 254)
    {e : Entry} (he : e.seq = wrapSeq^[k] a) : retire e.seq (l ++ [e]) = [] := by
  have hcount : l.length = k := by rw [← List.length_map Entry.seq, hl, ringFrom_length]
  have hseqs : (l ++ [e]).map Entry.seq = ringFrom a (l ++ [e]).length := by
    rw [List.map_append, hl, List.length_append, hcount, List.map_singleton, he, List.length_singleton,
      ringFrom_succ_last]
  rw [he, retire_iterate_near hseqs (by simp; omega) (by omega)]
  exact List.drop_eq_nil_of_le (by simp; omega)

/-- Settles O49: the sent flit is stored under the number that the peer expects; the peer's Ack names that number; and
it is the newest of at most 255 consecutive ones. -/
theorem ackOfSentPayloadEmptiesTheBuffer : Obligations.AckOfSentPayloadEmptiesTheBuffer := by
  intro x y tls a k h hcrc hn hcount hreplay _ hk hseqs hlast hexpected
  have hlen : x.block.rb.length = k := by rw [← List.length_map Entry.seq, hseqs, ringFrom_length]
  obtain ⟨q, f, opp, tx, hq, hf, hsend⟩ := exec_epSendPayload_stored h (by omega) hcount hreplay
  have hqa : q = wrapSeq^[k] a := hq.trans hlast
  have hseqNo : (decExplicit (flitHeader f)).flitSeqNo = y.block.expectedSeq := by
    rw [hf, flitHeader_flitPack, decExplicit_explicitWord, hq, hexpected]
  have haccept : epReceiveFlit y.cfg f y.block = receivePayload y.cfg f tls y.block := by
    rw [hf, hcrc, epReceiveFlit_flitPack]
  rw [receivePayload_acked y.cfg y.block tls hn hseqNo, ← hcrc, hexpected, ← hq] at haccept
  have hack := epReceiveFlit_ack x.cfg
    { x.block with rb := x.block.rb ++ [{ seq := q, flit := f }], tx := tx } q (txLo y.block.tx)
  refine ⟨_, f, q, opp, _, cmdFlit x.cfg.crcReflect opAck q (txLo y.block.tx), _, hsend, answered_answer ..,
    exec_epReceiveFlit y f, ?_, exec_epReceiveFlit _ _, ?_, ?_⟩
  · rw [haccept]
    exact answered_answer ..
  · rw [answer_cfg, answer_block, hack]
    exact answered_answer ..
  · rw [answer_cfg, answer_block, answer_block, hack]
    exact retire_newest (e := { seq := q, flit := f }) hseqs hk hqa

/-! ## Partial resets (R102, R109, R122) -/

theorem exec_txReset (s : State) (z : Bool) :
    exec (.txReset z) s = .next (s.answer
      { s.block with tx := Tx.reset, stats := if z then TxStats.reset else s.block.stats } [] .none) := rfl

/-- Settles O12: each reset writes the constants of its own part. -/
theorem partialResetsTouchOnePart : Obligations.PartialResetsTouchOnePart := fun s =>
  ⟨fun z => ⟨_, exec_txReset s z, answered_answer .., rfl, rfl, rfl, rfl, rfl⟩,
    ⟨_, exec_stReset s, answered_answer .., rfl⟩, ⟨_, exec_rbClear s, answered_answer .., rfl⟩⟩

end Sys2Proof.Machine

/-! SUPPORT. Proofs of the family of 43_tx_controller.md: what each operation of the transmit controller does, what a row
of one operation answers, and the numbers and ticks that such rows give. -/

namespace Sys2Proof.Machine

/-! ## The transmit controller's operations (R115 to R119) -/

section
variable (s : State)

theorem exec_txNextPayloadSeq :
    exec .txNextPayloadSeq s = .next (s.answer
      { s.block with tx := { s.block.tx with lastSeq := wrapSeq s.block.tx.lastSeq } } []
      (.seqToBuffer (wrapSeq s.block.tx.lastSeq) (!s.block.tx.inReplay))) := rfl

theorem exec_txNopSeq : exec .txNopSeq s = .next (s.answer s.block [] (.seq s.block.tx.lastSeq)) := rfl

theorem exec_txStartReplay : exec .txStartReplay s = .next (s.answer (txStartReplay s.cfg s.block) [] .none) := rfl

theorem exec_txFinishReplay : exec .txFinishReplay s = .next (s.answer (txFinishReplay s.block) [] .none) := rfl

end

section
variable {s : State}

theorem exec_txTickExplicitCount_ok {opp : Bool} {tx : Tx} (h : tick s.block.tx = .ok (opp, tx)) :
    exec .txTickExplicitCount s = .next (s.answer { s.block with tx := tx } [] (.bool opp)) := by
  simp only [exec, execTxTickExplicitCount, txTick, h, Except.map, complete_eq]

theorem exec_txTickExplicitCount_error {e : Fault} (h : tick s.block.tx = .error e) :
    exec .txTickExplicitCount s = .fault e := by
  simp only [exec, execTxTickExplicitCount, txTick, h, Except.map]

end

/-- Settles O33: the number is `wrapSeq` of the last one, and the replay buffer is not looked at. -/
theorem nextPayloadSeqAllocates : Obligations.NextPayloadSeqAllocates := fun s =>
  ⟨_, _, exec_txNextPayloadSeq s, wrapSeq_toNat _, answered_answer .., rfl⟩

/-- Settles O35: each operation writes the two flags it names, and entering replay counts by `countUp`. -/
theorem replayModeFlags : Obligations.ReplayModeFlags := fun s =>
  ⟨⟨_, exec_txNopSeq s, read_answer ..⟩,
    ⟨_, _, exec_txStartReplay s, answered_answer .., countUp_counted .., rfl⟩,
    ⟨_, exec_txFinishReplay s, answered_answer .., rfl⟩⟩

/-- Settles O36: the four cases of `tick_cases` are the four clauses. -/
theorem explicitCountTick : Obligations.ExplicitCountTick := by
  intro s
  rcases tick_cases s.block.tx with ⟨hfirst, e⟩ | ⟨hfirst, hone, e⟩ | ⟨hfirst, hmore, e⟩ | ⟨hfirst, hzero, e⟩
  · exact ⟨fun _ => ⟨_, exec_txTickExplicitCount_ok e, answered_answer .., rfl⟩, by simp [hfirst], by simp [hfirst],
      by simp [hfirst]⟩
  · exact ⟨by simp [hfirst], fun _ _ => ⟨_, exec_txTickExplicitCount_ok e, answered_answer .., rfl⟩,
      fun _ _ => by omega, fun _ _ => by omega⟩
  · exact ⟨by simp [hfirst], fun _ _ => by omega,
      fun _ _ => ⟨_, exec_txTickExplicitCount_ok e, answered_answer .., rfl⟩, fun _ _ => by omega⟩
  · exact ⟨by simp [hfirst], fun _ _ => by omega, fun _ _ => by omega,
      fun _ _ => exec_txTickExplicitCount_error e⟩

/-! ## A row of one operation (R6, R41) -/

theorem resultsAfter_eq {s t : State} {as : List Answer} (h : t.trace = s.trace ++ as) :
    resultsAfter s.trace.length t = as.map Answer.result := by
  rw [resultsAfter, h, List.drop_left]

/-- An operation that in phase n answers `r n` and leads to phase n + 1 runs any number of times, and answers `r` of one
phase after another. -/
theorem runOps_replicate {i : Instr} {Phase : Nat → State → Prop} {r : Nat → Result}
    (hstep : ∀ n s, Phase n s → ∃ t es, exec i s = .next t ∧ s.Answered t es (r n) ∧ Phase (n + 1) t)
    (m : Nat) {n : Nat} {s : State} (h : Phase n s) :
    ∃ t as, runOps (List.replicate m i) s = .next t ∧ t.trace = s.trace ++ as ∧
      as.map Answer.result = (List.range m).map fun k => r (n + k) := by
  induction m generalizing n s with
  | zero => exact ⟨s, [], rfl, (List.append_nil _).symm, rfl⟩
  | succ m ih =>
    obtain ⟨u, es, hexec, ⟨-, -, hanswer⟩, hnext⟩ := hstep n s h
    obtain ⟨t, as, hrun, htrace, hresults⟩ := ih hnext
    refine ⟨t, { events := es, result := r n } :: as, ?_, ?_, ?_⟩
    · rw [List.replicate_succ, runOps_cons_next _ _ _ _ hexec, hrun]
    · rw [htrace, hanswer, List.append_assoc, List.singleton_append]
    · simp only [List.map_cons, hresults, List.range_succ_eq_map, List.map_map, Nat.add_zero, Function.comp_def,
        Nat.succ_eq_add_one, Nat.add_assoc, Nat.add_comm 1]

/-! ## Successive numbers (R123) -/

/-- n numbers were allocated from a `last_seq` of 0, and the replay mode is `replay`. -/
def Allocated (replay : Bool) (n : Nat) (s : State) : Prop :=
  s.block.tx.lastSeq = wrapSeq^[n] 0#9 ∧ s.block.tx.inReplay = replay

/-- The first number after reset is 1. -/
theorem wrapSeq_iterate_succ_zero (n : Nat) : wrapSeq^[n + 1] 0#9 = BitVec.ofNat 9 (n % 511 + 1) := by
  have hfirst : wrapSeq 0#9 = 1#9 := rfl
  rw [Function.iterate_succ_apply, hfirst, ← wrapSeq_iterate_one_toNat, BitVec.ofNat_toNat, BitVec.setWidth_eq]

theorem exec_txNextPayloadSeq_allocated {replay : Bool} (n : Nat) (s : State) (h : Allocated replay n s) :
    ∃ t es, exec .txNextPayloadSeq s = .next t ∧
      s.Answered t es (.seqToBuffer (BitVec.ofNat 9 (n % 511 + 1)) (!replay)) ∧ Allocated replay (n + 1) t := by
  obtain ⟨hlast, hreplay⟩ := h
  have hnext : wrapSeq s.block.tx.lastSeq = wrapSeq^[n + 1] 0#9 := by rw [hlast, Function.iterate_succ_apply']
  refine ⟨_, [], exec_txNextPayloadSeq s, ?_, hnext, hreplay⟩
  rw [← wrapSeq_iterate_succ_zero, ← hnext, ← hreplay]
  exact answered_answer ..

/-- Settles O34: each allocation is one successor step, and leaves the replay mode as it is. -/
theorem allocatedNumbersRunRoundTheRing : Obligations.AllocatedNumbersRunRoundTheRing := by
  intro s m hzero
  obtain ⟨t, as, hrun, htrace, hresults⟩ :=
    runOps_replicate exec_txNextPayloadSeq_allocated m (n := 0) (s := s) ⟨hzero, rfl⟩
  refine ⟨t, hrun, ?_⟩
  rw [resultsAfter_eq htrace, hresults]
  simp only [Nat.zero_add]

/-! ## The period of the tick (R124) -/

/-- How many ticks it takes until one answers true, that one included. -/
def Tx.ticksToOpportunity (t : Tx) : Nat := if t.firstReplay then 1 else t.explicitCount.toNat

/-- A tick answers true exactly when it is the last to wait for; then the next 31 begin, otherwise one less is left. -/
theorem tick_ticksToOpportunity {t : Tx} (h : t.ticksToOpportunity ≠ 0) :
    ∃ t', tick t = .ok (decide (t.ticksToOpportunity = 1), t') ∧
      t'.ticksToOpportunity = if t.ticksToOpportunity = 1 then 31 else t.ticksToOpportunity - 1 := by
  rcases tick_cases t with ⟨hfirst, e⟩ | ⟨hfirst, hone, e⟩ | ⟨hfirst, hmore, e⟩ | ⟨hfirst, hzero, -⟩
  · have hticks : t.ticksToOpportunity = 1 := if_pos hfirst
    exact ⟨_, by rw [e, hticks]; rfl, by rw [if_pos hticks]; rfl⟩
  · have hticks : t.ticksToOpportunity = 1 := by simp [Tx.ticksToOpportunity, hfirst, hone]
    exact ⟨_, by rw [e, hticks]; rfl, by rw [if_pos hticks]; simp [Tx.ticksToOpportunity, hfirst]⟩
  · have hticks : t.ticksToOpportunity = t.explicitCount.toNat := by simp [Tx.ticksToOpportunity, hfirst]
    have hlt := t.explicitCount.isLt
    refine ⟨_, by rw [e, hticks, decide_eq_false (by omega)], ?_⟩
    rw [hticks, if_neg (by omega)]
    simp only [Tx.ticksToOpportunity, hfirst, Bool.false_eq_true, if_false, BitVec.toNat_ofNat]
    omega
  · exact absurd (by simp [Tx.ticksToOpportunity, hfirst, hzero]) h

/-- n ticks, counted modulo 31, have gone by since the period began. -/
def Ticked (n : Nat) (s : State) : Prop := s.block.tx.ticksToOpportunity = 31 - n % 31

theorem exec_txTickExplicitCount_ticked (n : Nat) (s : State) (h : Ticked n s) :
    ∃ t es, exec .txTickExplicitCount s = .next t ∧ s.Answered t es (.bool (decide ((n + 1) % 31 = 0))) ∧
      Ticked (n + 1) t := by
  unfold Ticked at h
  obtain ⟨tx, htick, hleft⟩ := tick_ticksToOpportunity (t := s.block.tx) (by omega)
  have hlast : s.block.tx.ticksToOpportunity = 1 ↔ (n + 1) % 31 = 0 := by omega
  rw [decide_eq_decide.2 hlast] at htick
  refine ⟨_, _, exec_txTickExplicitCount_ok htick, answered_answer .., hleft.trans ?_⟩
  split <;> omega

/-- Settles O37: a count of 31 is the start of a period, and entering replay puts the tick 30 ticks into one. -/
theorem tickPeriodIsThirtyOne : Obligations.TickPeriodIsThirtyOne := by
  refine ⟨fun s m hfirst hcount => ?_, fun s m => ?_⟩
  · have hticked : Ticked 0 s := by simp [Ticked, Tx.ticksToOpportunity, hfirst, hcount]
    obtain ⟨t, as, hrun, htrace, hresults⟩ := runOps_replicate exec_txTickExplicitCount_ticked m hticked
    refine ⟨t, hrun, ?_⟩
    rw [resultsAfter_eq htrace, hresults]
    simp only [Nat.zero_add]
  · have hticked : Ticked 30 (s.answer (txStartReplay s.cfg s.block) [] .none) := rfl
    obtain ⟨t, as, hrun, htrace, hresults⟩ := runOps_replicate exec_txTickExplicitCount_ticked m hticked
    rw [answer_trace, List.append_assoc] at htrace
    refine ⟨t, (runOps_cons_next _ _ _ _ (exec_txStartReplay s)).trans hrun, ?_⟩
    have hperiod (k : Nat) : (30 + k + 1) % 31 = k % 31 := by omega
    simp only [resultsAfter_eq htrace, List.singleton_append, List.map_cons, hresults, hperiod]

end Sys2Proof.Machine

/-! SUPPORT. Proofs of the family of 44_cmd_ackreq.md: the header fields that the receive path tests, by R53's formulas;
the command processor, the Ack manager and EP_RECEIVE_FLIT, one equation per case; and the batching of Acks as a count
modulo ACK_EVERY_N. -/

namespace Sys2Proof.Machine

/-! ## The header of a received flit (R53) -/

section
variable (f : Flit)

/-- R53's formulas for the fields of a command header are what the decoder reads. -/
theorem decCommand_flitHeader :
    (decCommand (flitHeader f)).op.toNat = hdrOp f ∧
    (decCommand (flitHeader f)).payloadBit.toNat = hdrPayloadBit f ∧
    (decCommand (flitHeader f)).ackReqSeq.toNat = hdrAckReqSeq f := by
  obtain ⟨hop, hpb, hack, -⟩ :=
    decCommand_headerWord (byteAt f 0 (by decide)) (byteAt f 1 (by decide)) (byteAt f 2 (by decide))
  simp only [byteAt_toNat] at hop hpb hack
  exact ⟨hop, hpb, hack⟩

theorem payloadBit_eq_zero_iff : (decCommand (flitHeader f)).payloadBit = 0#1 ↔ hdrPayloadBit f = 0 := by
  obtain ⟨-, hpb, -⟩ := decCommand_flitHeader f
  rw [← BitVec.toNat_inj, hpb, BitVec.toNat_ofNat, Nat.zero_mod]

theorem op_eq_opAck_iff : (decCommand (flitHeader f)).op = opAck ↔ hdrOp f = 2 := by
  obtain ⟨hop, -, -⟩ := decCommand_flitHeader f
  rw [← BitVec.toNat_inj, hop]
  exact Iff.rfl

theorem op_eq_opReplayReq_iff : (decCommand (flitHeader f)).op = opReplayReq ↔ hdrOp f = 3 := by
  obtain ⟨hop, -, -⟩ := decCommand_flitHeader f
  rw [← BitVec.toNat_inj, hop]
  exact Iff.rfl

theorem ackReqSeq_eq_ofNat : (decCommand (flitHeader f)).ackReqSeq = BitVec.ofNat 9 (hdrAckReqSeq f) := by
  obtain ⟨-, -, hack⟩ := decCommand_flitHeader f
  rw [← hack, BitVec.ofNat_toNat, BitVec.setWidth_eq]

end

/-! ## The command processor (R130, R131) -/

theorem exec_cmdProcess (s : State) (f : Flit) :
    exec (.cmdProcess f) s = .next (s.answer (cmdProcess s.cfg f s.block).2.2 (cmdProcess s.cfg f s.block).2.1
      (.bool (cmdProcess s.cfg f s.block).1)) := rfl

theorem not_crcGood_iff (reflect : Bool) (f : Flit) : (!crcGood reflect f) = true ↔ ¬ CrcMatches reflect f := by
  rw [← crcGood_iff, Bool.not_eq_true', Bool.not_eq_true]

/-- CMD_PROCESS in its normative order, with the header fields by R53's formulas. -/
theorem cmdProcess_eq (cfg : Config) (f : Flit) (b : Block) : cmdProcess cfg f b =
    if hdrPayloadBit f ≠ 0 then (false, [], b)
    else if !crcGood cfg.crcReflect f then (true, [], b)
    else if hdrOp f = 2 then
      (true, [.ackEvent (BitVec.ofNat 9 (hdrAckReqSeq f))],
        { b with cmd := { b.cmd with acksReceived := countUp cfg .acksReceived b.cmd.acksReceived } })
    else if hdrOp f = 3 then
      (true, [.replayRequestEvent (BitVec.ofNat 9 (hdrAckReqSeq f))],
        { b with cmd := { b.cmd with
            replayRequestsReceived := countUp cfg .replayRequestsReceived b.cmd.replayRequestsReceived } })
    else (false, [], b) := by
  simp only [cmdProcess, ne_eq, payloadBit_eq_zero_iff, op_eq_opAck_iff, op_eq_opReplayReq_iff, ackReqSeq_eq_ofNat]

section
variable {cfg : Config} {f : Flit} (b : Block)

/-- A payload flit is not consumed, whatever its CRC and `op`. -/
theorem cmdProcess_payload (hpb : hdrPayloadBit f = 1) : cmdProcess cfg f b = (false, [], b) := by
  rw [cmdProcess_eq, if_pos (by omega)]

section
variable (hpb : hdrPayloadBit f = 0)
include hpb

/-- A command flit with a bad CRC is consumed without a trace, whatever its `op`. -/
theorem cmdProcess_badCrc (hbad : ¬ CrcMatches cfg.crcReflect f) : cmdProcess cfg f b = (true, [], b) := by
  rw [cmdProcess_eq, if_neg (not_not.2 hpb), if_pos ((not_crcGood_iff ..).2 hbad)]

variable (hgood : CrcMatches cfg.crcReflect f)
include hgood

theorem cmdProcess_ack (hop : hdrOp f = 2) : cmdProcess cfg f b =
    (true, [.ackEvent (BitVec.ofNat 9 (hdrAckReqSeq f))],
      { b with cmd := { b.cmd with acksReceived := countUp cfg .acksReceived b.cmd.acksReceived } }) := by
  rw [cmdProcess_eq, if_neg (not_not.2 hpb), if_neg (fun h => (not_crcGood_iff ..).1 h hgood), if_pos hop]

theorem cmdProcess_replayRequest (hop : hdrOp f = 3) : cmdProcess cfg f b =
    (true, [.replayRequestEvent (BitVec.ofNat 9 (hdrAckReqSeq f))],
      { b with cmd := { b.cmd with
          replayRequestsReceived := countUp cfg .replayRequestsReceived b.cmd.replayRequestsReceived } }) := by
  rw [cmdProcess_eq, if_neg (not_not.2 hpb), if_neg (fun h => (not_crcGood_iff ..).1 h hgood), if_neg (by omega),
    if_pos hop]

theorem cmdProcess_unassigned (hack : hdrOp f ≠ 2) (hreplay : hdrOp f ≠ 3) :
    cmdProcess cfg f b = (false, [], b) := by
  rw [cmdProcess_eq, if_neg (not_not.2 hpb), if_neg (fun h => (not_crcGood_iff ..).1 h hgood), if_neg hack,
    if_neg hreplay]

end

end

/-- Settles O39: CMD_PROCESS answers `cmdProcess`, and its five cases are the five clauses. -/
theorem commandRecognition : Obligations.CommandRecognition := by
  refine fun s f => ⟨_, exec_cmdProcess s f, fun hpb => ?_, fun hpb hbad => ?_, fun hpb hgood hop => ?_,
    fun hpb hgood hop => ?_, fun hpb hgood hack hreplay => ?_⟩
  · rw [cmdProcess_payload s.block hpb]
    exact read_answer ..
  · rw [cmdProcess_badCrc s.block hpb hbad]
    exact read_answer ..
  · rw [cmdProcess_ack s.block hpb hgood hop]
    exact ⟨answered_answer .., _, countUp_counted .., rfl⟩
  · rw [cmdProcess_replayRequest s.block hpb hgood hop]
    exact ⟨answered_answer .., _, countUp_counted .., rfl⟩
  · rw [cmdProcess_unassigned s.block hpb hgood hack hreplay]
    exact read_answer ..

/-! ## The Ack manager (R133) -/

theorem classify_gap_iff (e q : Seq) : classify e q = .gap ↔ q ≠ e ∧ ¬ isDuplicate e q = true := by
  rw [Ne, ← classify_expected_iff, ← classify_duplicate_iff]
  cases classify e q <;> decide

section
variable {cfg : Config} {q : Seq} (lo : BitVec 3) {b : Block}

theorem armProcessReceived_acked (hq : q = b.expectedSeq)
    (hdue : cfg.ackEveryN = 0 ∨ cfg.ackEveryN ≤ b.arm.flitsSinceAck + 1) :
    armProcessReceived cfg q lo b = (some (cmdFlit cfg.crcReflect opAck q lo),
      { b with expectedSeq := wrapSeq b.expectedSeq, arm := { flitsSinceAck := 0 } }) := by
  simp only [armProcessReceived, (classify_expected_iff ..).2 hq, (ackDue_iff ..).2 hdue, if_true]

theorem armProcessReceived_batched (hq : q = b.expectedSeq) (hroom : b.arm.flitsSinceAck + 1 < cfg.ackEveryN) :
    armProcessReceived cfg q lo b = (none,
      { b with expectedSeq := wrapSeq b.expectedSeq, arm := { flitsSinceAck := b.arm.flitsSinceAck + 1 } }) := by
  have hdue : ¬ ackDue cfg.ackEveryN (b.arm.flitsSinceAck + 1) = true := by rw [ackDue_iff]; omega
  simp only [armProcessReceived, (classify_expected_iff ..).2 hq, if_neg hdue]

theorem armProcessReceived_duplicate (hd : 1 ≤ distance b.expectedSeq q ∧ distance b.expectedSeq q ≤ 255) :
    armProcessReceived cfg q lo b = (none, b) := by
  rw [← isDuplicate_iff, ← classify_duplicate_iff] at hd
  simp only [armProcessReceived, hd]

theorem armProcessReceived_gap (hq : q ≠ b.expectedSeq)
    (hd : ¬ (1 ≤ distance b.expectedSeq q ∧ distance b.expectedSeq q ≤ 255)) :
    armProcessReceived cfg q lo b = (some (cmdFlit cfg.crcReflect opReplayReq b.expectedSeq lo), b) := by
  rw [← isDuplicate_iff] at hd
  simp only [armProcessReceived, (classify_gap_iff ..).2 ⟨hq, hd⟩]

end

/-- Settles O41: ARM_PROCESS_RECEIVED answers `armProcessReceived`, and its four cases are the four clauses. -/
theorem ackManagerDecides : Obligations.AckManagerDecides := by
  refine fun s q lo => ⟨_, _, exec_armProcessReceived s q lo, answered_answer .., fun hq hdue => ?_,
    fun hq _ hroom => ?_, fun hpos hnear => ?_, fun hq hd => ?_⟩
  · rw [armProcessReceived_acked lo hq hdue, ← hq, wrapSeq_eq_ofNat]
    exact ⟨⟨_, rfl, cmdFlit_isCommandFlit ..⟩, rfl⟩
  · rw [armProcessReceived_batched lo hq hroom, ← hq, wrapSeq_eq_ofNat]
    exact ⟨rfl, rfl⟩
  · rw [armProcessReceived_duplicate lo ⟨hpos, hnear⟩]
    exact ⟨rfl, rfl⟩
  · rw [armProcessReceived_gap lo hq hd]
    exact ⟨⟨_, rfl, cmdFlit_isCommandFlit ..⟩, rfl⟩

/-! ## Batching (R134) -/

/-- n in-order arrivals came since a batch began; without batching the count says nothing. -/
def Batched (n : Nat) (s : State) : Prop := s.cfg.ackEveryN ≠ 0 → s.block.arm.flitsSinceAck = n % s.cfg.ackEveryN

/-- What arrival number n of those in order is answered, where it carries number q. -/
def ackOfArrival (cfg : Config) (lo : BitVec 3) (n : Nat) (q : Seq) : Option Flit :=
  if cfg.ackEveryN = 0 ∨ n % cfg.ackEveryN = 0 then some (cmdFlit cfg.crcReflect opAck q lo) else none

/-- Counting modulo N: the count reaches N exactly at a multiple of N, and goes on by one otherwise. -/
theorem succ_mod_cases {N : Nat} (hN : N ≠ 0) (n : Nat) :
    N ≤ n % N + 1 ∧ (n + 1) % N = 0 ∨ n % N + 1 < N ∧ (n + 1) % N = n % N + 1 := by
  have hlt : n % N < N := Nat.mod_lt n (Nat.pos_of_ne_zero hN)
  rw [← Nat.mod_add_mod]
  by_cases hfull : n % N + 1 = N
  · exact .inl ⟨hfull.ge, by rw [hfull, Nat.mod_self]⟩
  · exact .inr ⟨by omega, Nat.mod_eq_of_lt (by omega)⟩

/-- The next number in order arrives. -/
theorem exec_armProcessReceived_inOrder (lo : BitVec 3) {n : Nat} {s : State} (h : Batched n s) :
    ∃ t, exec (.armProcessReceived s.block.expectedSeq lo) s = .next t ∧
      s.Answered t [] (.optFlit (ackOfArrival s.cfg lo (n + 1) s.block.expectedSeq)) ∧
      t.block.expectedSeq = wrapSeq s.block.expectedSeq ∧ Batched (n + 1) t := by
  refine ⟨_, exec_armProcessReceived s _ lo, ?_⟩
  by_cases hN : s.cfg.ackEveryN = 0
  · rw [armProcessReceived_acked lo rfl (.inl hN), ackOfArrival, if_pos (.inl hN)]
    exact ⟨answered_answer .., rfl, fun hN' => absurd hN hN'⟩
  · have hcount : s.block.arm.flitsSinceAck = n % s.cfg.ackEveryN := h hN
    rcases succ_mod_cases hN n with ⟨hfull, hmod⟩ | ⟨hroom, hmod⟩
    · rw [← hcount] at hfull
      rw [armProcessReceived_acked lo rfl (.inr hfull), ackOfArrival, if_pos (.inr hmod)]
      exact ⟨answered_answer .., rfl, fun _ => hmod.symm⟩
    · rw [← hcount] at hroom hmod
      rw [armProcessReceived_batched lo rfl hroom, ackOfArrival, if_neg (by omega)]
      exact ⟨answered_answer .., rfl, fun _ => hmod.symm⟩

/-- A row of arrivals in order is answered one by one, by where each stands in its batch. -/
theorem runOps_armProcessReceived (lo : BitVec 3) (m : Nat) {n : Nat} {s : State} (h : Batched n s) :
    ∃ t as, runOps ((ringFrom s.block.expectedSeq m).map fun q => .armProcessReceived q lo) s = .next t ∧
      t.trace = s.trace ++ as ∧
      as.map Answer.result = (List.range m).map fun k =>
        .optFlit (ackOfArrival s.cfg lo (n + k + 1) (wrapSeq^[k] s.block.expectedSeq)) := by
  induction m generalizing n s with
  | zero => exact ⟨s, [], rfl, (List.append_nil _).symm, rfl⟩
  | succ m ih =>
    obtain ⟨u, hexec, ⟨hcfg, -, hanswer⟩, hseq, hbatched⟩ := exec_armProcessReceived_inOrder lo h
    obtain ⟨t, as, hrun, htrace, hresults⟩ := ih hbatched
    rw [hseq] at hrun
    refine ⟨t, { events := [], result := .optFlit (ackOfArrival s.cfg lo (n + 1) s.block.expectedSeq) } :: as, ?_, ?_,
      ?_⟩
    · exact (runOps_cons_next _ _ _ _ hexec).trans hrun
    · rw [htrace, hanswer, List.append_assoc, List.singleton_append]
    · simp only [List.map_cons, hresults, hcfg, hseq, List.range_succ_eq_map, List.map_map, Function.comp_def,
        Nat.succ_eq_add_one, Function.iterate_succ_apply, Function.iterate_zero_apply, Nat.add_assoc,
        Nat.add_comm 1]

/-- Settles O42: a count of 0 is the start of a batch, and the i-th arrival is answered by where it stands in one; an
arrival that is not expected leaves the whole block as it is. -/
theorem acksAreBatchedByN : Obligations.AcksAreBatchedByN := by
  refine ⟨fun s lo m hzero => ?_, fun s q lo hq => ⟨_, exec_armProcessReceived s q lo, ?_⟩⟩
  · have hbatched : Batched 0 s := fun _ => by rw [hzero, Nat.zero_mod]
    obtain ⟨t, as, hrun, htrace, hresults⟩ := runOps_armProcessReceived lo m hbatched
    rw [← resultsAfter_eq htrace] at hresults
    refine ⟨t, hrun, by rw [hresults, List.length_map, List.length_range], fun i hi => ?_⟩
    have hanswer : (resultsAfter s.trace.length t)[i]? =
        some (.optFlit (ackOfArrival s.cfg lo (i + 1) (wrapSeq^[i] s.block.expectedSeq))) := by
      rw [hresults, List.getElem?_map, List.getElem?_range hi, Option.map_some, Nat.zero_add]
    rw [hanswer, ackOfArrival]
    refine ⟨fun hdue => ?_, fun hN hmod => ?_⟩
    · rw [if_pos hdue]
      exact ⟨_, rfl, cmdFlit_isCommandFlit ..⟩
    · rw [if_neg (not_or.2 ⟨hN, hmod⟩)]
  · rw [answer_block, armProcessReceived_block_of_ne hq]

/-! ## The replay of stored flits (R141) -/

theorem exec_epReplayFrom (s : State) (r : Seq) :
    exec (.epReplayFrom r) s = .next (s.answer (epReplayFrom s.cfg r s.block).2.2 (epReplayFrom s.cfg r s.block).2.1
      (.count (epReplayFrom s.cfg r s.block).1)) := rfl

/-- Settles O47: both outcomes of `epReplayFrom_cases`, by whether RB_REPLAY_ITER's answer is empty. -/
theorem replayReemitsStoredFlits : Obligations.ReplayReemitsStoredFlits := by
  intro s r
  rcases epReplayFrom_cases s.cfg r s.block with ⟨hview, e⟩ | ⟨hview, e⟩
  · refine ⟨_, _, _, countUp s.cfg .replayUnknownSeq s.block.replayUnknownSeq, exec_rbReplayIter s r, read_answer ..,
      exec_epReplayFrom s r, fun _ => ?_, fun h => absurd hview h⟩
    rw [e]
    exact ⟨answered_answer .., countUp_counted .., rfl⟩
  · refine ⟨_, _, _, countUp s.cfg .replaySequences s.block.stats.replaySequences, exec_rbReplayIter s r,
      read_answer .., exec_epReplayFrom s r, fun h => absurd h hview, fun _ => ?_⟩
    rw [e]
    exact ⟨answered_answer .., countUp_counted .., rfl⟩

/-! ## Receiving a command (R142) -/

section
variable {cfg : Config} {f : Flit} (b : Block) (hpb : hdrPayloadBit f = 0) (hgood : CrcMatches cfg.crcReflect f)
include hpb hgood

theorem epReceiveFlit_goodAck (hop : hdrOp f = 2) : epReceiveFlit cfg f b =
    (.command, [.ackEvent (BitVec.ofNat 9 (hdrAckReqSeq f))],
      { rbRetireThrough (BitVec.ofNat 9 (hdrAckReqSeq f)) b with
        cmd := { b.cmd with acksReceived := countUp cfg .acksReceived b.cmd.acksReceived } }) := by
  simp only [epReceiveFlit, cmdProcess_ack b hpb hgood hop, if_true, handleEvents_ack]
  rfl

/-- The handler's events follow the command's own, and of the block the command's counter alone is not the handler's. -/
theorem epReceiveFlit_goodReplayRequest (hop : hdrOp f = 3) : epReceiveFlit cfg f b =
    (.command, .replayRequestEvent (BitVec.ofNat 9 (hdrAckReqSeq f)) ::
        (epReplayFrom cfg (BitVec.ofNat 9 (hdrAckReqSeq f)) b).2.1,
      { (epReplayFrom cfg (BitVec.ofNat 9 (hdrAckReqSeq f)) b).2.2 with
        cmd := { b.cmd with
          replayRequestsReceived := countUp cfg .replayRequestsReceived b.cmd.replayRequestsReceived } }) := by
  simp only [epReceiveFlit, cmdProcess_replayRequest b hpb hgood hop, if_true, handleEvents_replayRequest,
    epReplayFrom_cmd]

end

/-- Settles O46: the events of CMD_PROCESS are handled on the block it leaves, and neither handler looks at the
command's counter. -/
theorem commandReceptionRunsItsHandler : Obligations.CommandReceptionRunsItsHandler := by
  refine fun s f hgood hpb => ⟨fun hop => ?_, fun hop => ?_⟩
  · refine ⟨_, _, countUp s.cfg .acksReceived s.block.cmd.acksReceived, exec_epProcessAck s _,
      exec_epReceiveFlit s f, ?_⟩
    rw [epReceiveFlit_goodAck s.block hpb hgood hop]
    exact ⟨answered_answer .., countUp_counted .., rfl⟩
  · refine ⟨_, _, _, _, countUp s.cfg .replayRequestsReceived s.block.cmd.replayRequestsReceived,
      exec_epReplayFrom s _, answered_answer .., exec_epReceiveFlit s f, ?_⟩
    rw [epReceiveFlit_goodReplayRequest s.block hpb hgood hop]
    exact ⟨answered_answer .., countUp_counted .., rfl⟩

/-! ## Receiving a payload (R139) -/

/-- The low bits of `last_seq` by arithmetic. -/
theorem txLo_eq_ofNat (t : Tx) : txLo t = BitVec.ofNat 3 t.lastSeq.toNat := by
  apply BitVec.eq_of_toNat_eq
  rw [txLo_toNat, BitVec.toNat_ofNat]

section
variable {cfg : Config} {f : Flit} (b : Block)

/-- A good flit that is no command takes the payload path, with the TL flits of its slots. -/
theorem epReceiveFlit_goodPayload (hgood : CrcMatches cfg.crcReflect f)
    (hkind : hdrPayloadBit f = 1 ∨ (hdrOp f ≠ 2 ∧ hdrOp f ≠ 3)) :
    epReceiveFlit cfg f b = receivePayload cfg f (flitUnpack f) b := by
  have hcmd : cmdProcess cfg f b = (false, [], b) := by
    by_cases hpb : hdrPayloadBit f = 1
    · exact cmdProcess_payload b hpb
    · obtain ⟨hack, hreplay⟩ := hkind.resolve_left hpb
      exact cmdProcess_unassigned b (Nat.mod_two_ne_one.1 hpb) hgood hack hreplay
  simp only [epReceiveFlit, hcmd, Bool.false_eq_true, if_false, flitUnpackChecked_of_matches hgood]

/-- What EP_RECEIVE_FLIT answers for an arrival of each class (R139). -/
def Arrival.received (tls : List Tl) : Arrival → Received
  | .expected => .accepted tls
  | .duplicate => .duplicate
  | .gap => .gap

/-- What it delivers: the TL flits of an expected arrival, and no others (decision D26). -/
def Arrival.delivered (tls : List Tl) : Arrival → List Event
  | .expected => [.deliver tls]
  | .duplicate => []
  | .gap => []

/-- The command flit that the Ack manager gives is transmitted before anything is delivered. -/
theorem receivePayload_eq (tls : List Tl) {q : Seq} (hq : (decExplicit (flitHeader f)).flitSeqNo = q) :
    receivePayload cfg f tls b =
      ((classify b.expectedSeq q).received tls,
        (armProcessReceived cfg q (txLo b.tx) b).1.toList.map .transmit ++ (classify b.expectedSeq q).delivered tls,
        (armProcessReceived cfg q (txLo b.tx) b).2) := by
  simp only [receivePayload, hq]
  cases classify b.expectedSeq q <;> cases (armProcessReceived cfg q (txLo b.tx) b).1 <;> rfl

end

/-- Settles O45: the block and the command flit are ARM_PROCESS_RECEIVED's, and the class of the number decides what is
answered and delivered. -/
theorem payloadReception : Obligations.PayloadReception := by
  intro s f hgood hkind
  have hreceive : epReceiveFlit s.cfg f s.block = _ :=
    (epReceiveFlit_goodPayload s.block hgood hkind).trans (receivePayload_eq s.block (flitUnpack f) rfl)
  rw [← txLo_eq_ofNat]
  simp only [hdrSeqNo_eq, BitVec.ofNat_toNat, BitVec.setWidth_eq, BitVec.toNat_inj, ne_eq]
  generalize (decExplicit (flitHeader f)).flitSeqNo = q at hreceive ⊢
  refine ⟨_, _, _, _, _, (armProcessReceived s.cfg q (txLo s.block.tx) s.block).1.toList.map .transmit,
    exec_flitUnpack s f, read_answer .., exec_armProcessReceived s q _, answered_answer .., ?_,
    exec_epReceiveFlit s f, ?_, fun hq => ?_, fun hq => ⟨fun hd => ?_, fun hd => ?_⟩⟩
  · cases (armProcessReceived s.cfg q (txLo s.block.tx) s.block).1 <;> rfl
  · rw [hreceive]; rfl
  · rw [hreceive, (classify_expected_iff ..).2 hq]
    exact answered_answer ..
  · rw [hreceive, (classify_duplicate_iff ..).2 ((isDuplicate_iff ..).2 hd), Arrival.delivered, List.append_nil]
    exact answered_answer ..
  · rw [hreceive, (classify_gap_iff ..).2 ⟨hq, mt (isDuplicate_iff ..).1 hd⟩, Arrival.delivered, List.append_nil]
    exact answered_answer ..

/-! ## Sending a payload (R138) -/

/-- The tick, where the count is legal: the opportunity comes after entering replay and on the last count. -/
theorem tick_of_count_ne_zero {t : Tx} (h : t.explicitCount ≠ 0#5) :
    ∃ opp, (opp = true ↔ t.firstReplay = true ∨ t.explicitCount.toNat = 1) ∧
      tick t = .ok (opp, { t with
        explicitCount := if opp then 0x1F#5 else BitVec.ofNat 5 (t.explicitCount.toNat - 1)
        firstReplay := false }) := by
  rcases tick_cases t with ⟨hfirst, e⟩ | ⟨hfirst, hone, e⟩ | ⟨hfirst, hmore, e⟩ | ⟨-, hzero, -⟩
  · exact ⟨true, by simp [hfirst], e⟩
  · exact ⟨true, by simp [hone], by simp [e, hfirst]⟩
  · have hlast : t.explicitCount.toNat ≠ 1 := by omega
    exact ⟨false, by simp [hfirst, hlast], by simp [e, hfirst]⟩
  · exact absurd (BitVec.eq_of_toNat_eq hzero) h

section
variable {s : State} {tls : List Tl} (h : tls.length ≤ 7)
include h

/-- EP_SEND_PAYLOAD with a full replay buffer. -/
theorem exec_epSendPayload_full (hfull : s.block.rb.length = 512) :
    exec (.epSendPayload tls) s = .next (s.answer s.block [] .replayBufferFull) := by
  rcases epSendPayload_cases s.cfg.crcReflect tls h s.block with ⟨-, e⟩ | ⟨hroom, -⟩
  · simp only [exec, execEpSendPayload, dif_pos h, e, complete_eq]
  · exact absurd hfull hroom

/-- EP_SEND_PAYLOAD with room, where the tick of the controller under the next number completes. -/
theorem exec_epSendPayload_room (hroom : s.block.rb.length ≠ 512) {q : Seq} (hq : q = wrapSeq s.block.tx.lastSeq)
    {opp : Bool} {tx : Tx} (htick : tick { s.block.tx with lastSeq := q } = .ok (opp, tx)) :
    exec (.epSendPayload tls) s = .next (s.answer
      { s.block with
        rb := if s.block.tx.inReplay then s.block.rb
          else s.block.rb ++ [{ seq := q, flit := flitPack s.cfg.crcReflect tls h 0b000#3 1#1 q }],
        tx := tx }
      [.transmit (flitPack s.cfg.crcReflect tls h 0b000#3 1#1 q)] (.sent q opp)) := by
  subst hq
  rcases epSendPayload_cases s.cfg.crcReflect tls h s.block with
    ⟨hfull, -⟩ | ⟨-, f, rfl, ⟨opp', tx', htick', e⟩ | ⟨x, hx, -⟩⟩
  · exact absurd hfull hroom
  · rw [htick] at htick'
    cases htick'
    simp only [exec, execEpSendPayload, dif_pos h, e, complete_eq]
  · rw [htick] at hx
    cases hx

end

/-- Settles O43: with room the number is `wrapSeq` of the last one, the flit is FLIT_PACK's, and the rest is the
tick. -/
theorem sendPayload : Obligations.SendPayload := by
  refine fun s tls h => ⟨fun hroom hcount => ?_, fun hfull => ⟨_, exec_epSendPayload_full h hfull, read_answer ..⟩⟩
  obtain ⟨opp, hopp, htick⟩ :=
    tick_of_count_ne_zero (t := { s.block.tx with lastSeq := wrapSeq s.block.tx.lastSeq }) hcount
  exact ⟨_, _, _, _, _, opp, wrapSeq_toNat s.block.tx.lastSeq, exec_flitPack s tls _ _ _ h, read_answer ..,
    exec_epSendPayload_room h hroom rfl htick, answered_answer .., hopp, rfl⟩

end Sys2Proof.Machine

/-! SUPPORT. Proofs of the family of 45_arbiter.md: which operations touch the arbiter and which answer a DWord, a packet in
flight through a row of operations, a packet at the back of its FIFO, and the round robin as a fixed cycle of the classes. -/

namespace Sys2Proof.Machine

/-! ## The operations that leave the arbiter alone (R20, R159) -/

section
variable (cfg : Config) (f : Flit) (b : Block)

theorem rbAdd_dmq (q : Seq) : (rbAdd q f b).2.dmq = b.dmq := by
  rcases rbAdd_cases q f b with ⟨-, e⟩ | ⟨-, e⟩ <;> rw [e]

theorem cmdProcess_dmq : (cmdProcess cfg f b).2.2.dmq = b.dmq := by
  rcases cmdProcess_cases cfg f b with ⟨-, e⟩ | ⟨-, -, e⟩ | ⟨-, -, -, e⟩ | ⟨-, -, -, e⟩ | ⟨-, -, -, -, e⟩ <;> rw [e]

theorem armProcessReceived_dmq (q : Seq) (lo : BitVec 3) : (armProcessReceived cfg q lo b).2.dmq = b.dmq := by
  rcases armProcessReceived_cases cfg q lo b with ⟨-, -, e⟩ | ⟨-, -, e⟩ | ⟨-, e⟩ | ⟨-, e⟩ <;> rw [e]

theorem epReplayFrom_dmq (r : Seq) : (epReplayFrom cfg r b).2.2.dmq = b.dmq := by
  rcases epReplayFrom_cases cfg r b with ⟨-, e⟩ | ⟨-, e⟩ <;> rw [e]
  rfl

theorem epReceiveFlit_dmq : (epReceiveFlit cfg f b).2.2.dmq = b.dmq := by
  rcases epReceiveFlit_cases cfg f b with
    ⟨-, -, e⟩ | ⟨-, -, -, e⟩ | ⟨-, -, -, e⟩ | ⟨-, -, e⟩ | ⟨-, -, e⟩ <;> rw [e]
  · rfl
  · rw [epReplayFrom_dmq]
  · rw [receivePayload_block, armProcessReceived_dmq]

end

section
variable {i : Instr} {s t : State} (h : exec i s = .next t)
include h

/-- The arbiter is written by DMQ_ENQUEUE, DMQ_POP_NEXT_DWORD and RESET only (R20). -/
theorem exec_dmq (hi : i.opName ∉ [some .dmqEnqueue, some .dmqPopNextDword, some .reset]) :
    t.block.dmq = s.block.dmq := by
  cases i with
  | dmqEnqueue | dmqPopNextDword | reset => simp [Instr.opName] at hi
  | flitPack => obtain ⟨r, rfl⟩ := execFlitPack_next h; rfl
  | txTickExplicitCount => obtain ⟨opp, tx, -, rfl⟩ := execTxTickExplicitCount_next h; rfl
  | epSendPayload => rcases execEpSendPayload_next h with rfl | ⟨-, q, f, opp, tx, -, -, -, -, rfl⟩ <;> rfl
  | rbAdd q f => cases h; exact rbAdd_dmq f s.block q
  | cmdProcess f => cases h; exact cmdProcess_dmq s.cfg f s.block
  | armProcessReceived q lo => cases h; exact armProcessReceived_dmq s.cfg s.block q lo
  | epReplayFrom r => cases h; exact epReplayFrom_dmq s.cfg s.block r
  | epReceiveFlit f => cases h; exact epReceiveFlit_dmq s.cfg f s.block
  -- The other operations write a part of the block that is not the arbiter, or none.
  | _ => cases h; rfl

/-- Only DMQ_POP_NEXT_DWORD answers a DWord (R65, R151). -/
theorem exec_answers_no_dword (hi : i ≠ .dmqPopNextDword) :
    ∃ a, t.trace = s.trace ++ [a] ∧ ∀ b, a.result ≠ .optBytes b := by
  cases i with
  | dmqPopNextDword => exact absurd rfl hi
  | flitPack tls =>
    by_cases hl : tls.length ≤ 7
    · rw [exec_flitPack s tls _ _ _ hl] at h; cases h; exact ⟨_, rfl, by simp⟩
    · simp [exec, execFlitPack, hl] at h
  | txTickExplicitCount => obtain ⟨opp, tx, -, rfl⟩ := execTxTickExplicitCount_next h; exact ⟨_, rfl, by simp⟩
  | dmqEnqueue => obtain ⟨first, rest, -, -, rfl⟩ := execDmqEnqueue_next h; exact ⟨_, rfl, by simp⟩
  | epSendPayload =>
    rcases execEpSendPayload_next h with rfl | ⟨-, q, f, opp, tx, -, -, -, -, rfl⟩ <;> exact ⟨_, rfl, by simp⟩
  | _ => cases h; exact ⟨_, rfl, by simp⟩

end

/-! ## A pop (R151) -/

section
variable {s : State}

theorem exec_dmqPopNextDword_ok {r : Option (Bytes 4) × Dmq}
    (h : dmqPop s.cfg.rrFirstAfterNone s.block.dmq = .ok r) :
    exec .dmqPopNextDword s = .next (s.answer { s.block with dmq := r.2 } [] (.optBytes r.1)) := by
  simp only [exec, execDmqPopNextDword, h, complete_eq]

theorem exec_dmqPopNextDword_error {e : Fault} (h : dmqPop s.cfg.rrFirstAfterNone s.block.dmq = .error e) :
    exec .dmqPopNextDword s = .fault e := by
  simp only [exec, execDmqPopNextDword, h]

section
variable (hlock : s.block.dmq.uartMultiProgress = true)
include hlock

theorem exec_pop_locked {x : DWord} {rest : List DWord} (hpend : s.block.dmq.uartPending = x :: rest) :
    exec .dmqPopNextDword s = .next (s.answer
      { s.block with dmq := { s.block.dmq with uartPending := rest, uartMultiProgress := decide (rest ≠ []) } } []
      (.optBytes (some (be32 x)))) := by
  rcases dmqPop_cases s.cfg.rrFirstAfterNone s.block.dmq with ⟨-, hnil, -⟩ | ⟨y, others, -, hpend', e⟩ | ⟨hfree, -⟩
  · simp [hpend] at hnil
  · rw [hpend] at hpend'
    cases hpend'
    exact exec_dmqPopNextDword_ok e
  · simp [hlock] at hfree

theorem exec_pop_locked_nil (hpend : s.block.dmq.uartPending = []) :
    exec .dmqPopNextDword s = .fault .lockWithoutPending := by
  rcases dmqPop_cases s.cfg.rrFirstAfterNone s.block.dmq with ⟨-, -, e⟩ | ⟨y, others, -, hpend', -⟩ | ⟨hfree, -⟩
  · exact exec_dmqPopNextDword_error e
  · simp [hpend] at hpend'
  · simp [hlock] at hfree

end

theorem exec_pop_unlocked (hlock : s.block.dmq.uartMultiProgress = false) {r : Option (Bytes 4) × Dmq}
    (hr : roundRobin (scanOrder s.cfg.rrFirstAfterNone s.block.dmq.lastServed) s.block.dmq = r) :
    exec .dmqPopNextDword s = .next (s.answer { s.block with dmq := r.2 } [] (.optBytes r.1)) := by
  rcases dmqPop_cases s.cfg.rrFirstAfterNone s.block.dmq with ⟨hheld, -⟩ | ⟨-, -, hheld, -⟩ | ⟨-, e⟩
  · simp [hlock] at hheld
  · simp [hlock] at hheld
  · rw [hr] at e
    exact exec_dmqPopNextDword_ok e

end

/-- Settles O52: the lock's two cases of a pop. -/
theorem popUnderTheLock : Obligations.PopUnderTheLock :=
  ⟨fun _ x _ hlock hpend => ⟨_, _, exec_pop_locked hlock hpend, answered_answer .., be32_val_eq x, rfl⟩,
    fun _ hlock hpend => exec_pop_locked_nil hlock hpend⟩

/-! ## A packet in flight (R20, R153, R156) -/

/-- `dws` are the DWords of the packet in flight that are still to be emitted, where `served` was served last; the lock is
held exactly while there are some. -/
def InFlight (dws : List DWord) (served : Option DlClass) (s : State) : Prop :=
  s.block.dmq.uartPending = dws ∧ s.block.dmq.uartMultiProgress = decide (dws ≠ []) ∧ s.block.dmq.lastServed = served

section
variable {s t : State} {served : Option DlClass} {dws : List DWord}

/-- A pop emits the next DWord of the packet. -/
theorem InFlight.pop {x : DWord} (hs : InFlight (x :: dws) served s) (h : exec .dmqPopNextDword s = .next t) :
    InFlight dws served t ∧ t.trace = s.trace ++ [{ events := [], result := .optBytes (some (be32 x)) }] := by
  obtain ⟨hpend, hlock, hserved⟩ := hs
  rw [exec_pop_locked (by simpa using hlock) hpend] at h
  cases h
  exact ⟨⟨rfl, rfl, hserved⟩, rfl⟩

/-- Any other operation but RESET leaves the packet alone, and emits nothing: DMQ_ENQUEUE touches a FIFO only. -/
theorem InFlight.other {i : Instr} (hs : InFlight dws served s) (hpop : i ≠ .dmqPopNextDword) (hreset : i ≠ .reset)
    (h : exec i s = .next t) :
    InFlight dws served t ∧ ∃ a, t.trace = s.trace ++ [a] ∧ ∀ b, a.result ≠ .optBytes b := by
  refine ⟨?_, exec_answers_no_dword h hpop⟩
  cases i with
  | dmqPopNextDword => exact absurd rfl hpop
  | reset => exact absurd rfl hreset
  | dmqEnqueue c dws' =>
    obtain ⟨first, rest, -, -, rfl⟩ := execDmqEnqueue_next h
    simpa [InFlight] using hs
  | _ =>
    rw [InFlight, exec_dmq h (by simp [Instr.opName])]
    exact hs

theorem emittedDwords_cons_other {r : Result} (h : ∀ b, r ≠ .optBytes b) (rest : List Result) :
    emittedDwords (r :: rest) = emittedDwords rest := by
  cases r with
  | optBytes b => exact absurd rfl (h b)
  | _ => rfl

theorem runOps_cons_inv {i : Instr} {ops : List Instr} (h : runOps (i :: ops) s = .next t) :
    ∃ u, exec i s = .next u ∧ runOps ops u = .next t := by
  cases hx : exec i s with
  | next u => exact ⟨u, rfl, (runOps_cons_next i ops s u hx).symm.trans h⟩
  | fault f => simp [runOps, hx] at h
  | refused r => simp [runOps, hx] at h

/-- A row of operations without RESET that pops no more DWords than the packet has left emits so many of them. -/
theorem InFlight.runOps {ops : List Instr} (hs : InFlight dws served s) (hreset : .reset ∉ ops)
    (hcount : ops.count .dmqPopNextDword ≤ dws.length) (h : runOps ops s = .next t) :
    InFlight (dws.drop (ops.count .dmqPopNextDword)) served t ∧ ∃ as, t.trace = s.trace ++ as ∧
      emittedDwords (as.map Answer.result) =
        (dws.take (ops.count .dmqPopNextDword)).map fun d => bytesOfNat 4 d.toNat := by
  induction ops generalizing s dws with
  | nil => cases h; exact ⟨hs, [], by simp, rfl⟩
  | cons i ops ih =>
    obtain ⟨u, hexec, hrun⟩ := runOps_cons_inv h
    obtain ⟨hi, hops⟩ := List.ne_and_not_mem_of_not_mem_cons hreset
    by_cases hpop : i = .dmqPopNextDword
    · subst hpop
      rw [List.count_cons_self] at hcount ⊢
      cases dws with
      | nil => simp at hcount
      | cons x rest =>
        obtain ⟨hu, htrace⟩ := hs.pop hexec
        obtain ⟨ht, as, hanswers, hemitted⟩ := ih hu hops (Nat.le_of_succ_le_succ hcount) hrun
        refine ⟨ht, _ :: as, by rw [hanswers, htrace, List.append_assoc, List.singleton_append], ?_⟩
        simp only [List.map_cons, emittedDwords, be32_val_eq, hemitted, List.take_succ_cons]
    · rw [List.count_cons_of_ne hpop] at hcount ⊢
      obtain ⟨hu, a, htrace, ha⟩ := hs.other hpop (Ne.symm hi) hexec
      obtain ⟨ht, as, hanswers, hemitted⟩ := ih hu hops hcount hrun
      refine ⟨ht, a :: as, by rw [hanswers, htrace, List.append_assoc, List.singleton_append], ?_⟩
      rw [List.map_cons, emittedDwords_cons_other ha, hemitted]

end

/-- Settles O54: the packet in flight is an invariant of a row of operations that each pop shortens by the DWord it
emits. -/
theorem transportIsNotInterrupted : Obligations.TransportIsNotInterrupted := by
  intro s t ops hlock hreset hcount hpend h
  have hs : InFlight s.block.dmq.uartPending s.block.dmq.lastServed s := ⟨rfl, by simp [hlock, hpend], rfl⟩
  obtain ⟨⟨hleft, hheld, hserved⟩, as, htrace, hemitted⟩ := hs.runOps hreset hcount h
  refine ⟨by rw [resultsAfter_eq htrace, hemitted], hleft, ?_, hserved⟩
  simp [hheld]

/-! ## A packet to the back of its FIFO (R150) -/

theorem packetAdmitted_iff (c : DlClass) (dws : List DWord) :
    packetAdmitted c dws = true ↔ 1 ≤ dws.length ∧ dws.length ≤ 33 ∧ (dws.length = 1 ∨ c = .uart) := by
  simp only [packetAdmitted, Bool.and_eq_true, Bool.or_eq_true, decide_eq_true_eq, and_assoc]

section
variable {s : State} {c : DlClass}

theorem exec_dmqEnqueue_admitted {x : DWord} {rest : List DWord} (ha : packetAdmitted c (x :: rest) = true)
    (hroom : fifoHasRoom s.cfg s.block.dmq c = true) :
    exec (.dmqEnqueue c (x :: rest)) s = .next (s.answer
      { s.block with dmq := dmqEnqueue c { first := x, rest := rest } s.block.dmq } [] .none) := by
  simp only [exec, execDmqEnqueue, ha, hroom, if_true, complete_eq]

theorem exec_dmqEnqueue_inadmissible {dws : List DWord} (ha : packetAdmitted c dws = false) :
    exec (.dmqEnqueue c dws) s = .refused (.illegalPacket c dws.length) := by
  rcases execDmqEnqueue_cases c dws s with ⟨-, e⟩ | ⟨ha', -⟩ | ⟨-, -, -, ha', -⟩
  · exact e
  · simp [ha] at ha'
  · simp [ha] at ha'

end

/-- Settles O51: what R150 admits goes to the back of its FIFO, and what it does not admit is refused. -/
theorem enqueueAppendsOrRefuses : Obligations.EnqueueAppendsOrRefuses := by
  refine ⟨fun s c x rest hlen hclass hroom => ?_, fun s c dws hbad => exec_dmqEnqueue_inadmissible ?_⟩
  · have ha : packetAdmitted c (x :: rest) = true :=
      (packetAdmitted_iff ..).2 ⟨by simp, Nat.succ_le_succ hlen, hclass.imp_left fun h => by simp [h]⟩
    refine ⟨_, exec_dmqEnqueue_admitted ha ((fifoHasRoom_iff ..).2 hroom), answered_answer ..,
      queueOf_setQueue_same .., fun c' hc => queueOf_setQueue_other _ _ _ _ hc, ?_⟩
    cases c <;> rfl
  · rw [← Bool.not_eq_true, packetAdmitted_iff]
    rintro ⟨hone, hmost, hclass⟩
    rcases hbad with hempty | hlong | ⟨hseveral, hother⟩
    · omega
    · omega
    · exact hclass.elim hseveral hother

/-! ## Starting a packet (R151 step 3) -/

section
variable (d : Dmq) (c : DlClass) (p : Packet) (others : List Packet)

@[simp] theorem servePacket_dword : (servePacket d c p others).1 = be32 p.first := by
  rcases servePacket_cases d c p others with ⟨-, e⟩ | ⟨-, e⟩ <;> rw [e]

/-- Of the FIFOs, starting a packet writes that of its class. -/
theorem queueOf_servePacket (c' : DlClass) :
    queueOf (servePacket d c p others).2 c' = queueOf (setQueue d c others) c' := by
  rcases servePacket_cases d c p others with ⟨-, e⟩ | ⟨-, e⟩ <;> rw [e] <;> cases c' <;> rfl

@[simp] theorem queueOf_servePacket_same : queueOf (servePacket d c p others).2 c = others := by
  rw [queueOf_servePacket, queueOf_setQueue_same]

theorem queueOf_servePacket_other {c' : DlClass} (h : c' ≠ c) :
    queueOf (servePacket d c p others).2 c' = queueOf d c' := by
  rw [queueOf_servePacket, queueOf_setQueue_other _ _ _ _ h]

theorem servePacket_lastServed :
    (servePacket d c p others).2.lastServed = if p.rest = [] then some c else some .uart := by
  rcases servePacket_cases d c p others with ⟨h, e⟩ | ⟨h, e⟩ <;> simp [e, h]

theorem servePacket_lock :
    (servePacket d c p others).2.uartMultiProgress = (d.uartMultiProgress || decide (p.rest ≠ [])) := by
  rcases servePacket_cases d c p others with ⟨h, e⟩ | ⟨h, e⟩ <;> simp [e, h]

theorem servePacket_pending :
    (servePacket d c p others).2.uartPending = if p.rest = [] then d.uartPending else p.rest := by
  rcases servePacket_cases d c p others with ⟨h, e⟩ | ⟨h, e⟩ <;> simp [e, h]

end

/-! ## The round robin (R151 step 2, R152) -/

section
variable {d : Dmq} {order : List DlClass}

theorem roundRobin_empty (h : ∀ c ∈ order, queueOf d c = []) : roundRobin order d = (none, d) := by
  rcases roundRobin_cases order d with ⟨-, e⟩ | ⟨before, c, after, p, others, rfl, -, hc, -⟩
  · exact e
  · simp [h c (by simp)] at hc

/-- The first class of the scan with a packet waiting is served. -/
theorem roundRobin_first {before after : List DlClass} {c : DlClass} {p : Packet} {others : List Packet}
    (hbefore : ∀ c' ∈ before, queueOf d c' = []) (hc : queueOf d c = p :: others) :
    roundRobin (before ++ c :: after) d = (some (be32 p.first), (servePacket d c p others).2) := by
  induction before with
  | nil => simp [roundRobin, hc]
  | cons c' before ih =>
    obtain ⟨hempty, hrest⟩ := List.forall_mem_cons.1 hbefore
    simp only [List.cons_append, roundRobin, hempty, ih hrest]

end

section
variable {s : State} (hlock : s.block.dmq.uartMultiProgress = false)
include hlock

theorem exec_pop_empty (hempty : ∀ c, queueOf s.block.dmq c = []) :
    exec .dmqPopNextDword s = .next (s.answer s.block [] (.optBytes none)) :=
  exec_pop_unlocked hlock (roundRobin_empty fun c _ => hempty c)

theorem exec_pop_serves {before after : List DlClass} {c : DlClass} {p : Packet} {others : List Packet}
    (hscan : scanOrder s.cfg.rrFirstAfterNone s.block.dmq.lastServed = before ++ c :: after)
    (hbefore : ∀ c' ∈ before, queueOf s.block.dmq c' = []) (hc : queueOf s.block.dmq c = p :: others) :
    exec .dmqPopNextDword s = .next (s.answer
      { s.block with dmq := (servePacket s.block.dmq c p others).2 } [] (.optBytes (some (be32 p.first)))) :=
  exec_pop_unlocked hlock (hscan ▸ roundRobin_first hbefore hc)

end

/-- Settles O53: the order is the model's scan, of which the first class with a packet waiting is served. -/
theorem popRoundRobin : Obligations.PopRoundRobin := by
  intro s order hlock horder
  have hscan : scanOrder s.cfg.rrFirstAfterNone s.block.dmq.lastServed = order := by
    rw [horder]
    rcases s.block.dmq.lastServed with _ | _ | _ | _ <;> cases s.cfg.rrFirstAfterNone <;> rfl
  refine ⟨fun hempty => ?_, fun before after c p others hfirst hbefore hc => ?_⟩
  · exact ⟨_, exec_pop_empty hlock hempty, read_answer ..⟩
  · refine ⟨_, _, exec_pop_serves hlock (hscan.trans hfirst) hbefore hc, answered_answer .., be32_val_eq _,
      queueOf_servePacket_same .., fun c' hc' => queueOf_servePacket_other _ _ _ _ hc', servePacket_lastServed .., ?_,
      servePacket_pending .., rfl⟩
    rw [answer_block, servePacket_lock, hlock, Bool.false_or]

/-! ## The scan as a cycle of the classes (R152) -/

/-- The class that a scan tries after `c`. -/
def nextClass : DlClass → DlClass
  | .basic => .control
  | .control => .uart
  | .uart => .basic

/-- The scan that begins with `c`. -/
def scanFrom (c : DlClass) : List DlClass := [c, nextClass c, nextClass (nextClass c)]

theorem scanOrder_some (rr : RrFirst) (c : DlClass) : scanOrder rr (some c) = scanFrom (nextClass c) := by
  cases c <;> rfl

theorem exists_scanFrom (rr : RrFirst) (o : Option DlClass) : ∃ c, scanOrder rr o = scanFrom c := by
  cases o with
  | some c => exact ⟨_, scanOrder_some rr c⟩
  | none => cases rr <;> exact ⟨_, rfl⟩

theorem scanFrom_nodup (c : DlClass) : (scanFrom c).Nodup := by cases c <;> decide

/-- Going round, every third class is the same. -/
theorem nextClass_iterate_mod (n : Nat) (c : DlClass) : nextClass^[n % 3] c = nextClass^[n] c := by
  have hperiod : Function.IsPeriodicPt nextClass 3 c := by cases c <;> rfl
  exact hperiod.iterate_mod_apply n

theorem nextClass_iterate_eq_iff (n : Nat) (c : DlClass) : nextClass^[n] c = c ↔ n % 3 = 0 := by
  rw [← nextClass_iterate_mod]
  have hlt : n % 3 < 3 := Nat.mod_lt n (by decide)
  generalize n % 3 = r at hlt
  interval_cases r <;> cases c <;> decide

theorem scanFrom_getElem? (c : DlClass) (n : Nat) : (scanFrom c)[n % 3]? = some (nextClass^[n] c) := by
  rw [← nextClass_iterate_mod]
  have hlt : n % 3 < 3 := Nat.mod_lt n (by decide)
  generalize n % 3 = r at hlt
  interval_cases r <;> rfl

/-! ## Going round the three FIFOs (R155) -/

/-- The packet whose turn it is n pops after one that serves `c`, where every packet is a single DWord. -/
def turn (d : Dmq) (c : DlClass) (n : Nat) : Option Packet := (queueOf d (nextClass^[n] c))[n / 3]?

theorem turn_zero (d : Dmq) (c : DlClass) : turn d c 0 = (queueOf d c).head? := List.head?_eq_getElem?.symm

/-- Serving a class hands the turn to the next one. -/
theorem turn_servePacket {d : Dmq} {c : DlClass} {p : Packet} {others : List Packet} (hc : queueOf d c = p :: others)
    (n : Nat) : turn (servePacket d c p others).2 (nextClass c) n = turn d c (n + 1) := by
  unfold turn
  rw [Function.iterate_succ_apply, ← Function.iterate_succ_apply]
  by_cases hround : (n + 1) % 3 = 0
  · rw [(nextClass_iterate_eq_iff (n + 1) c).2 hround, queueOf_servePacket_same, hc,
      show (n + 1) / 3 = n / 3 + 1 by omega, List.getElem?_cons_succ]
  · rw [queueOf_servePacket_other _ _ _ _ (mt (nextClass_iterate_eq_iff (n + 1) c).1 hround),
      show (n + 1) / 3 = n / 3 by omega]

/-- A row of pops emits the packets whose turn it is, while these are there and are single DWords. -/
theorem runOps_pops (m : Nat) {s : State} {c : DlClass} (hlock : s.block.dmq.uartMultiProgress = false)
    (hscan : scanOrder s.cfg.rrFirstAfterNone s.block.dmq.lastServed = scanFrom c)
    (hsupply : ∀ n < m, ∃ p, turn s.block.dmq c n = some p ∧ p.rest = []) :
    ∃ t as, runOps (List.replicate m .dmqPopNextDword) s = .next t ∧ t.trace = s.trace ++ as ∧
      ∀ n < m, ∃ p, turn s.block.dmq c n = some p ∧
        (as.map Answer.result)[n]? = some (.optBytes (some (be32 p.first))) := by
  induction m generalizing s c with
  | zero => exact ⟨s, [], rfl, by simp, by simp⟩
  | succ m ih =>
    obtain ⟨p, hp, hsingle⟩ := hsupply 0 (Nat.succ_pos m)
    obtain ⟨others, hc⟩ := List.head?_eq_some_iff.1 ((turn_zero ..).symm.trans hp)
    have hexec := exec_pop_serves hlock (before := []) hscan (by simp) hc
    obtain ⟨t, as, hrun, htrace, hresults⟩ := ih
      (s := s.answer { s.block with dmq := (servePacket s.block.dmq c p others).2 } []
        (.optBytes (some (be32 p.first)))) (c := nextClass c)
      (by simp [servePacket_lock, hlock, hsingle])
      (by simp [servePacket_lastServed, hsingle, scanOrder_some])
      (fun n hn => by simpa [turn_servePacket hc] using hsupply (n + 1) (Nat.succ_lt_succ hn))
    refine ⟨t, { events := [], result := .optBytes (some (be32 p.first)) } :: as,
      (runOps_cons_next _ _ _ _ hexec).trans hrun, ?_, fun n hn => ?_⟩
    · rw [htrace, answer_trace, List.append_assoc, List.singleton_append]
    · cases n with
      | zero => exact ⟨p, hp, rfl⟩
      | succ n =>
        obtain ⟨q, hq, hresult⟩ := hresults n (Nat.lt_of_succ_lt_succ hn)
        exact ⟨q, (turn_servePacket hc n).symm.trans hq, hresult⟩

/-- Settles O55: with k single DWords at the front of each FIFO there is a packet for each of 3k turns, and turn n is
that of the class in place n mod 3 of the scan. -/
theorem roundRobinIsFair : Obligations.RoundRobinIsFair := by
  intro s k hlock hlen hsingle
  obtain ⟨c, hscan⟩ := exists_scanFrom s.cfg.rrFirstAfterNone s.block.dmq.lastServed
  have hsupply : ∀ n < 3 * k, ∃ p, turn s.block.dmq c n = some p ∧ p.rest = [] := by
    intro n hn
    have hk : n / 3 < k := by omega
    obtain ⟨p, hp⟩ : ∃ p, turn s.block.dmq c n = some p :=
      ⟨_, List.getElem?_eq_getElem (hk.trans_le (hlen _))⟩
    have htake : ((queueOf s.block.dmq (nextClass^[n] c)).take k)[n / 3]? = some p := by
      rwa [List.getElem?_take_of_lt hk]
    exact ⟨p, hp, hsingle _ p (List.mem_of_getElem? htake)⟩
  obtain ⟨t, as, hrun, htrace, hresults⟩ := runOps_pops (3 * k) hlock hscan hsupply
  refine ⟨t, scanFrom c, hrun, rfl, scanFrom_nodup c, fun n hn => ?_⟩
  obtain ⟨p, hp, hresult⟩ := hresults n hn
  exact ⟨_, p, _, scanFrom_getElem? c n, hp, by rw [resultsAfter_eq htrace, hresult], be32_val_eq _⟩

end Sys2Proof.Machine

/-! SUPPORT. Proofs of the family of 60_exceptions.md: a payload flit between two sides in step, a received flit with a bad
CRC, and what an operation that reports an error leaves of the block. -/

namespace Sys2Proof.Machine

/-! ## A payload flit between two sides (R180, R138, R139) -/

section
variable (cfg : Config) {q : Seq} {b : Block} (hq : q = b.expectedSeq)
include hq

/-- An expected arrival advances the tracker, whether it is acknowledged or batched (R133). -/
theorem armProcessReceived_expectedSeq (lo : BitVec 3) :
    (armProcessReceived cfg q lo b).2.expectedSeq = wrapSeq b.expectedSeq := by
  by_cases hdue : cfg.ackEveryN = 0 ∨ cfg.ackEveryN ≤ b.arm.flitsSinceAck + 1
  · rw [armProcessReceived_acked lo hq hdue]
  · rw [armProcessReceived_batched lo hq (by omega)]

/-- A packed payload flit under the expected number is accepted: after the Ack manager's command flit, if any, the TL
flits it was packed from are delivered, and the next number is expected (R86, R139). -/
theorem epReceiveFlit_flitPack_expected {tls : List Tl} (h : tls.length ≤ 7) (op : BitVec 3) :
    ∃ es b', epReceiveFlit cfg (flitPack cfg.crcReflect tls h op 1#1 q) b = (.accepted tls, es ++ [.deliver tls], b') ∧
      (es = [] ∨ ∃ cf, es = [.transmit cf]) ∧ b'.expectedSeq = wrapSeq q := by
  have hseq : (decExplicit (flitHeader (flitPack cfg.crcReflect tls h op 1#1 q))).flitSeqNo = q := by
    rw [flitHeader_flitPack, decExplicit_explicitWord]
  refine ⟨(armProcessReceived cfg q (txLo b.tx) b).1.toList.map .transmit, _, ?_, ?_,
    (armProcessReceived_expectedSeq cfg hq (txLo b.tx)).trans (congrArg wrapSeq hq.symm)⟩
  · rw [epReceiveFlit_flitPack, receivePayload_eq b tls hseq, (classify_expected_iff ..).2 hq]
    rfl
  · cases (armProcessReceived cfg q (txLo b.tx) b).1 with
    | none => exact .inl rfl
    | some cf => exact .inr ⟨cf, rfl⟩

end

/-- Settles O48: X packs under the number after its last one, which is the number Y expects; X's tick keeps that number
and Y's tracker goes on to the next. -/
theorem sentPayloadIsDelivered : Obligations.SentPayloadIsDelivered := by
  intro x y tls h hcrc hroom hcount hexpected
  obtain ⟨opp, tx, htick, hlast, -⟩ := tick_ok { x.block.tx with lastSeq := wrapSeq x.block.tx.lastSeq } hcount
  obtain ⟨es, b, haccept, hes, hnext⟩ := epReceiveFlit_flitPack_expected y.cfg hexpected.symm h 0b000#3
  rw [← hcrc] at haccept
  refine ⟨_, _, _, opp, _, es, exec_epSendPayload_room h hroom rfl htick, answered_answer .., exec_epReceiveFlit y _, ?_,
    hes, ?_⟩
  · rw [haccept]
    exact answered_answer ..
  · rw [answer_block, answer_block, haccept, hnext, hlast]

/-! ## A received flit with a bad CRC (R166, R169) -/

section
variable {cfg : Config} {f : Flit} (b : Block) (hbad : ¬ CrcMatches cfg.crcReflect f)
include hbad

theorem epReceiveFlit_badPayload (hpb : hdrPayloadBit f = 1) : epReceiveFlit cfg f b =
    (.crcError, [], { b with rxCrcErrors := countUp cfg .rxCrcErrors b.rxCrcErrors }) := by
  simp only [epReceiveFlit, cmdProcess_payload b hpb, Bool.false_eq_true, if_false,
    flitUnpackChecked_of_not_matches hbad]

theorem epReceiveFlit_badCommand (hpb : hdrPayloadBit f = 0) : epReceiveFlit cfg f b = (.command, [], b) := by
  simp only [epReceiveFlit, cmdProcess_badCrc b hpb hbad, if_true, handleEvents_nil]

end

/-- Settles O44: a bad payload flit passes CMD_PROCESS and fails the checked disassembler; a bad command flit is consumed
by CMD_PROCESS without an event to handle. -/
theorem badCrcIsDroppedOnReceive : Obligations.BadCrcIsDroppedOnReceive := by
  refine fun s f hbad => ⟨fun hpb =>
    ⟨_, countUp s.cfg .rxCrcErrors s.block.rxCrcErrors, exec_epReceiveFlit s f, ?_⟩,
    fun hpb => ⟨_, exec_epReceiveFlit s f, ?_⟩⟩
  · rw [epReceiveFlit_badPayload s.block hbad hpb]
    exact ⟨answered_answer .., countUp_counted .., rfl⟩
  · rw [epReceiveFlit_badCommand s.block hbad hpb]
    exact read_answer ..

/-! ## What an error changes (R165, R175) -/

/-- The block `b'` that an error of kind `e` in operation `i` leaves of `b`: the error's own counter counts one more, where
R165's table gives it one, and nothing else changes. -/
def ErrorChange (cfg : Config) (i : Instr) (e : ErrorKind) (b b' : Block) : Prop :=
  ∃ m n,
    (if e = .crcError ∧ i.opName = some .epReceiveFlit then Counted cfg.statWidth b.rxCrcErrors m
      else m = b.rxCrcErrors) ∧
    (if e = .replayRequestForUnknownSeq ∧ i.opName = some .epReplayFrom then
      Counted cfg.statWidth b.replayUnknownSeq n
      else n = b.replayUnknownSeq) ∧
    b' = { b with rxCrcErrors := m, replayUnknownSeq := n }

section
variable (cfg : Config) (b : Block)

/-- Outside EP_RECEIVE_FLIT and EP_REPLAY_FROM no error has a counter. -/
theorem errorChange_unchanged {i : Instr} (hi : i.opName ∉ [some .epReceiveFlit, some .epReplayFrom]) (e : ErrorKind) :
    ErrorChange cfg i e b b := by
  simp only [List.mem_cons, List.not_mem_nil, or_false, not_or] at hi
  obtain ⟨hreceive, hreplay⟩ := hi
  exact ⟨_, _, by rw [if_neg (fun h => hreceive h.2)], by rw [if_neg (fun h => hreplay h.2)], rfl⟩

theorem errorChange_rxCrcErrors (f : Flit) : ErrorChange cfg (.epReceiveFlit f) .crcError b
    { b with rxCrcErrors := countUp cfg .rxCrcErrors b.rxCrcErrors } :=
  ⟨_, _, countUp_counted .., rfl, rfl⟩

theorem errorChange_replayUnknownSeq (r : Seq) : ErrorChange cfg (.epReplayFrom r) .replayRequestForUnknownSeq b
    { b with replayUnknownSeq := countUp cfg .replayUnknownSeq b.replayUnknownSeq } :=
  ⟨_, _, rfl, countUp_counted .., rfl⟩

/-- RB_ADD reports an error on a full buffer only (R167). -/
theorem rbAdd_error {q : Seq} {f : Flit} {e : ErrorKind}
    (he : reportedError (.rbAdd q f) (.bool (rbAdd q f b).1) = some e) : (rbAdd q f b).2 = b := by
  rcases rbAdd_cases q f b with ⟨-, hr⟩ | ⟨-, hr⟩ <;> rw [hr] at he ⊢
  cases he

/-- EP_RECEIVE_FLIT reports an error on a payload flit with a bad CRC only (R166). -/
theorem epReceiveFlit_error {f : Flit} {e : ErrorKind}
    (he : reportedError (.epReceiveFlit f) (.received (epReceiveFlit cfg f b).1) = some e) :
    (epReceiveFlit cfg f b).2.1 = [] ∧ ErrorChange cfg (.epReceiveFlit f) e b (epReceiveFlit cfg f b).2.2 := by
  rcases epReceiveFlit_cases cfg f b with
    ⟨-, -, hr⟩ | ⟨-, -, -, hr⟩ | ⟨-, -, -, hr⟩ | ⟨-, -, hr⟩ | ⟨-, -, hr⟩ <;> rw [hr] at he ⊢
  · cases he
  · cases he
  · cases he
  · cases he; exact ⟨rfl, errorChange_rxCrcErrors cfg b f⟩
  · rw [receivePayload_eq b (flitUnpack f) rfl] at he
    cases hclass : classify b.expectedSeq (decExplicit (flitHeader f)).flitSeqNo <;> rw [hclass] at he <;> cases he

/-- EP_REPLAY_FROM reports an error on a number that no entry has only (R168). -/
theorem epReplayFrom_error {r : Seq} {e : ErrorKind}
    (he : reportedError (.epReplayFrom r) (.count (epReplayFrom cfg r b).1) = some e) :
    (epReplayFrom cfg r b).2.1 = [] ∧ ErrorChange cfg (.epReplayFrom r) e b (epReplayFrom cfg r b).2.2 := by
  rcases epReplayFrom_cases cfg r b with ⟨-, hr⟩ | ⟨hview, hr⟩ <;> rw [hr] at he ⊢
  · cases he; exact ⟨rfl, errorChange_replayUnknownSeq cfg b r⟩
  · obtain ⟨x, rest, hcons⟩ := List.exists_cons_of_ne_nil hview
    rw [hcons] at he
    cases he

end

/-- An operation whose answer reports an error raises no event and makes no other change than the error's (R175). -/
theorem exec_errorChange {i : Instr} {s t : State} (h : exec i s = .next t) :
    ∃ b es r, t = s.answer b es r ∧
      ∀ e, reportedError i r = some e → es = [] ∧ ErrorChange s.cfg i e s.block b := by
  have unchanged := errorChange_unchanged s.cfg s.block (i := i)
  cases i with
  | flitUnpackChecked | rbReplayIter =>
    cases h
    exact ⟨_, _, _, rfl, fun e _ => ⟨rfl, unchanged (by simp [Instr.opName]) e⟩⟩
  | rbAdd q f =>
    cases h
    refine ⟨_, _, _, rfl, fun e he => ⟨rfl, ?_⟩⟩
    rw [rbAdd_error s.block he]
    exact unchanged (by simp [Instr.opName]) e
  | epReceiveFlit f => cases h; exact ⟨_, _, _, rfl, fun e he => epReceiveFlit_error s.cfg s.block he⟩
  | epReplayFrom r => cases h; exact ⟨_, _, _, rfl, fun e he => epReplayFrom_error s.cfg s.block he⟩
  | epSendPayload tls =>
    rcases execEpSendPayload_next h with rfl | ⟨-, q, f, opp, tx, -, -, -, -, rfl⟩
    · exact ⟨_, _, _, rfl, fun e _ => ⟨rfl, unchanged (by simp [Instr.opName]) e⟩⟩
    · exact ⟨_, _, _, rfl, nofun⟩
  | flitPack tls =>
    by_cases hl : tls.length ≤ 7
    · rw [exec_flitPack s tls _ _ _ hl] at h; cases h; exact ⟨_, _, _, rfl, nofun⟩
    · simp [exec, execFlitPack, hl] at h
  | txTickExplicitCount => obtain ⟨opp, tx, -, rfl⟩ := execTxTickExplicitCount_next h; exact ⟨_, _, _, rfl, nofun⟩
  | dmqEnqueue => obtain ⟨first, rest, -, -, rfl⟩ := execDmqEnqueue_next h; exact ⟨_, _, _, rfl, nofun⟩
  | dmqPopNextDword => obtain ⟨r, -, rfl⟩ := execDmqPopNextDword_next h; exact ⟨_, _, _, rfl, nofun⟩
  -- The other operations complete with a result that R165's table does not name.
  | _ => cases h; exact ⟨_, _, _, rfl, nofun⟩

/-- Settles O60: the answer in question is the one that the operation itself added to the trace. -/
theorem errorsChangeOnlyTheirCounter : Obligations.ErrorsChangeOnlyTheirCounter := by
  intro i s t a e h htrace he
  obtain ⟨b, es, r, rfl, herror⟩ := exec_errorChange h
  obtain rfl : { events := es, result := r } = a := by simpa using htrace
  exact herror e he

end Sys2Proof.Machine

/-! SUPPORT. Proofs of the family of 70_reset_and_hazards.md: the power-on state and RESET (rules R185, R186). -/

namespace Sys2Proof.Machine

/-- Settles O10: `State.reset` holds `Block.reset`, a fixed block, whose twenty fields are compared one by one. -/
theorem powerOnState : Obligations.PowerOnState := by
  unfold Obligations.PowerOnState
  decide

/-- RESET writes the power-on block over the whole block, whatever the block was (R186). -/
theorem exec_reset (s : State) : exec .reset s = .next (s.answer Block.reset [] .none) := rfl

/-- Settles O11: RESET answers the power-on block, and an answer leaves configuration and what is presented. -/
theorem resetRestoresPowerOnState : Obligations.ResetRestoresPowerOnState :=
  fun s => ⟨_, exec_reset s, answered_answer .., answer_block ..⟩

end Sys2Proof.Machine

/-! SUPPORT. Proofs of the statements about the whole model: decoding and encoding are inverse, a step runs what its
request decodes to, BitCodec as a number with a place for each field, header words and command flits by themselves, every
well-formed instruction completes, and each part of the block is written by the operations named for it. -/

namespace Sys2Proof.Machine

/-! ## The row of a word (R51, R58, R59) -/

/-- A header word with `payload_bit` 1 (R51). -/
theorem decodeHeader_explicitWord (op ra : BitVec 3) (q : Seq) (rb : BitVec 8) :
    decodeHeader (explicitWord op 1#1 ra q rb) =
      if op = 0b000#3 then .explicitFlitHeader ra q rb else .payloadFlitAsReceived op ra q rb := by
  have hkind : headerKind (explicitWord op 1#1 ra q rb) = .payload := by simp [headerKind]
  simp only [decodeHeader, hkind, decExplicit_explicitWord, explicitWord_reservedA, explicitWord_reservedB]

theorem decodeHeader_ack (a : Seq) (lo : BitVec 3) (r : BitVec 8) :
    decodeHeader (commandWord 0b010#3 0#1 a lo r) = .ack a lo r := by
  have hkind : headerKind (commandWord 0b010#3 0#1 a lo r) = .ack := by simp [headerKind]
  simp only [decodeHeader, hkind, decCommand_commandWord, commandWord_reserved]

theorem decodeHeader_replayRequest (a : Seq) (lo : BitVec 3) (r : BitVec 8) :
    decodeHeader (commandWord 0b011#3 0#1 a lo r) = .replayRequest a lo r := by
  have hkind : headerKind (commandWord 0b011#3 0#1 a lo r) = .replayRequest := by simp [headerKind]
  simp only [decodeHeader, hkind, decCommand_commandWord, commandWord_reserved]

/-- A command word whose `op` is neither Ack nor Replay Request (R58). -/
theorem decodeHeader_unassigned {op : BitVec 3} (hack : op ≠ 0b010#3) (hreplay : op ≠ 0b011#3) (rest : BitVec 20) :
    decodeHeader (op ++ 0#1 ++ rest : BitVec (3 + 1 + 20)) = .unassignedCommandOp op rest := by
  have hop : (decCommand (op ++ 0#1 ++ rest : BitVec (3 + 1 + 20))).op = op := unassigned_op op rest
  have hpb : (decCommand (op ++ 0#1 ++ rest : BitVec (3 + 1 + 20))).payloadBit = 0#1 := unassigned_payloadBit op rest
  have hkind : headerKind (op ++ 0#1 ++ rest : BitVec (3 + 1 + 20)) = .notConsumed := by
    simp [headerKind, hop, hpb, hack, hreplay]
  simp only [decodeHeader, hkind, hop, unassigned_rest]

theorem decodeDword_dwordWord (p : BitVec 23) (mt : BitVec 3) (mc : BitVec 4) (r : BitVec 1) :
    decodeDword (dwordWord p mt mc r) = .ok (.dlMessageDword p mt mc r) := by
  simp only [decodeDword, dwordWord_compressed, decDword_dwordWord, dwordWord_reserved, if_true]

/-! ## Decoding an encoding (R48 to R59, R65) -/

/-- An operation on one sequence number is given the number itself. -/
theorem oneSeq_toNat (op : OpName) (mk : Seq → Instr) (q : Seq) : oneSeq op mk [.num q.toNat] = .ok (mk q) := by
  rw [oneSeq, fieldOf_toNat]
  rfl

/-- An operation on one flit is given the flit itself. -/
theorem oneFlit_val (op : OpName) (mk : Flit → Instr) (f : Flit) : oneFlit op mk [.bytes f.val] = .ok (mk f) := by
  rw [oneFlit, bytesOf_val]
  rfl

theorem decode_encode {i : Instr} (hi : i.wellFormed = true) : decode (encode i) = .ok i := by
  cases i with
  | explicitFlitHeader ra q rb => rw [encode, decode, decodeWire_be24, decodeHeader_explicitWord, if_pos rfl]
  | payloadFlitAsReceived op ra q rb =>
    rw [encode, decode, decodeWire_be24, decodeHeader_explicitWord, if_neg (of_decide_eq_true hi)]
  | ack a lo r => rw [encode, decode, decodeWire_be24, decodeHeader_ack]
  | replayRequest a lo r => rw [encode, decode, decodeWire_be24, decodeHeader_replayRequest]
  | unassignedCommandOp op rest =>
    obtain ⟨hack, hreplay⟩ : op ≠ 0b010#3 ∧ op ≠ 0b011#3 := by simpa [Instr.wellFormed] using hi
    rw [encode, decode, decodeWire_be24, decodeHeader_unassigned hack hreplay]
  | segmentHeader f => rw [encode, decode, decodeWire, decSeg_segByte]
  | dlMessageDword p mt mc r => rw [encode, decode, decodeWire_be32, decodeDword_dwordWord]
  | flitPack tls op pb q => simp only [encode, decode, decodeCall, tlsOf_map, fieldOf_toNat]; rfl
  | rbAdd q f => simp only [encode, decode, decodeCall, fieldOf_toNat, bytesOf_val]; rfl
  | armProcessReceived q lo => simp only [encode, decode, decodeCall, fieldOf_toNat]; rfl
  | dmqEnqueue c dws => simp only [encode, decode, decodeCall, dwordsOf_map]; rfl
  | epSendPayload tls => simp only [encode, decode, decodeCall, tlsOf_map]; rfl
  | crc32Check | flitUnpack | flitUnpackChecked | hdrDecode | cmdProcess | epReceiveFlit =>
    rw [encode, decode, decodeCall, oneFlit_val]
  | rbRetireThrough | rbReplayIter | stIsExpected | stIsDuplicate | txMakeAck | txMakeReplayRequest | epProcessAck
  | epReplayFrom => rw [encode, decode, decodeCall, oneSeq_toNat]
  -- The other operations have no operand, or one that is taken as it is.
  | _ => rfl

/-- Settles O4: a wire word has the row its bits say, and a call's operands fit the fields they were taken from. -/
theorem decodeInvertsEncode : Obligations.DecodeInvertsEncode := fun _ hi => decode_encode hi

/-! ## Encoding what was decoded (R48 to R59, R65) -/

/-- Every header value is the word of a well-formed instruction: its `payload_bit`, then its `op`, say of which row. -/
theorem exists_encode_be24 (h : BitVec 24) : ∃ i : Instr, i.wellFormed = true ∧ encode i = .wire (be24 h).val := by
  by_cases hpb : h.extractLsb' 20 1 = 1#1
  · have hword := explicitWord_fields h
    rw [hpb] at hword
    by_cases hop : h.extractLsb' 21 3 = 0b000#3
    · exact ⟨.explicitFlitHeader _ _ _, rfl, by rw [encode, ← hop, hword]⟩
    · exact ⟨.payloadFlitAsReceived _ _ _ _, decide_eq_true hop, by rw [encode, hword]⟩
  · have hcommand := commandWord_fields h
    have hunassigned := unassigned_fields h
    rw [bit_eq_zero hpb] at hcommand hunassigned
    by_cases hack : h.extractLsb' 21 3 = 0b010#3
    · exact ⟨.ack _ _ _, rfl, by rw [encode, ← hack, hcommand]⟩
    · by_cases hreplay : h.extractLsb' 21 3 = 0b011#3
      · exact ⟨.replayRequest _ _ _, rfl, by rw [encode, ← hreplay, hcommand]⟩
      · exact ⟨.unassignedCommandOp (h.extractLsb' 21 3) _, by simp [Instr.wellFormed, hack, hreplay],
          by rw [encode, hunassigned]⟩

/-- A word that decodes is the word of a well-formed instruction (R38: one byte, three or four). -/
theorem exists_encode_wire {b : List Byte} {j : Instr} (hj : decodeWire b = .ok j) :
    ∃ i : Instr, i.wellFormed = true ∧ encode i = .wire b := by
  unfold decodeWire at hj
  split at hj
  · next b0 => exact ⟨.segmentHeader (decSeg b0), rfl, by rw [encode, segByte_decSeg]⟩
  · next b0 b1 b2 => rw [← be24_headerWord]; exact exists_encode_be24 _
  · next b0 b1 b2 b3 =>
    unfold decodeDword at hj
    split at hj
    · next hcompressed =>
      exact ⟨.dlMessageDword _ _ _ _, rfl, by rw [encode, dwordWord_fields _ hcompressed, be32_u32be]⟩
    · cases hj
  · cases hj

theorem bind_eq_ok {ε α β : Type} {x : Except ε α} {f : α → Except ε β} {b : β} (h : (x >>= f) = .ok b) :
    ∃ a, x = .ok a ∧ f a = .ok b := by
  cases x with
  | error e => cases h
  | ok a => exact ⟨a, rfl, h⟩

theorem map_eq_ok {ε α β : Type} {x : Except ε α} {f : α → β} {b : β} (h : x.map f = .ok b) :
    ∃ a, x = .ok a ∧ f a = b := by
  cases x with
  | error e => cases h
  | ok a => cases h; exact ⟨a, rfl, rfl⟩

/-- A call that decodes is the call of the instruction it decodes to. -/
theorem encode_of_decodeCall {op : OpName} {ops : List Operand} {i : Instr} (h : decodeCall op ops = .ok i) :
    encode i = .call op ops := by
  cases op with
  | crc32Check | flitUnpack | flitUnpackChecked | hdrDecode | cmdProcess | epReceiveFlit =>
    obtain ⟨f, rfl, rfl⟩ := oneFlit_ok h; rfl
  | rbRetireThrough | rbReplayIter | stIsExpected | stIsDuplicate | txMakeAck | txMakeReplayRequest | epProcessAck
  | epReplayFrom => obtain ⟨q, rfl, rfl⟩ := oneSeq_ok h; rfl
  | crc32 | txReset =>
    simp only [decodeCall] at h
    split at h <;> cases h
    rfl
  | flitPack =>
    simp only [decodeCall] at h
    split at h
    · obtain ⟨tls, htls, h⟩ := bind_eq_ok h
      obtain ⟨op, hop, h⟩ := bind_eq_ok h
      obtain ⟨pb, hpb, h⟩ := bind_eq_ok h
      obtain ⟨q, hq, h⟩ := bind_eq_ok h
      cases h
      rw [encode, tlsOf_ok htls, fieldOf_ok hop, fieldOf_ok hpb, fieldOf_ok hq]
    · cases h
  | rbAdd =>
    simp only [decodeCall] at h
    split at h
    · obtain ⟨q, hq, h⟩ := bind_eq_ok h
      obtain ⟨f, hf, h⟩ := bind_eq_ok h
      cases h
      rw [encode, fieldOf_ok hq, bytesOf_ok hf]
    · cases h
  | armProcessReceived =>
    simp only [decodeCall] at h
    split at h
    · obtain ⟨q, hq, h⟩ := bind_eq_ok h
      obtain ⟨lo, hlo, h⟩ := bind_eq_ok h
      cases h
      rw [encode, fieldOf_ok hq, fieldOf_ok hlo]
    · cases h
  | dmqEnqueue =>
    simp only [decodeCall] at h
    split at h
    · obtain ⟨dws, hdws, rfl⟩ := map_eq_ok h
      rw [encode, dwordsOf_ok hdws]
    · cases h
  | epSendPayload =>
    simp only [decodeCall] at h
    split at h
    · obtain ⟨tls, htls, rfl⟩ := map_eq_ok h
      rw [encode, tlsOf_ok htls]
    · cases h
  -- The other operations have no operand.
  | _ => obtain ⟨rfl, rfl⟩ := noOperands_ok h; rfl

/-- Settles O5: a call is read off its operands; a word is the word of some well-formed instruction, which by
`decode_encode` is the one it decodes to. -/
theorem encodeInvertsDecode : Obligations.EncodeInvertsDecode := by
  intro r i h
  cases r with
  | call op ops => exact ⟨encode_of_decodeCall h, nofun⟩
  | wire b =>
    obtain ⟨j, hj, hb⟩ := exists_encode_wire h
    obtain rfl : i = j := Except.ok.inj (by rw [← h, ← hb, decode_encode hj])
    exact ⟨hb, fun _ _ => hj⟩

/-! ## Words of the opcode table, and a step (R6, R11) -/

/-- Settles O1: nine words, each decoded. -/
theorem tableWordsDecodeToTheirRows : Obligations.TableWordsDecodeToTheirRows := by
  unfold Obligations.TableWordsDecodeToTheirRows
  decide

/-- A table word that decodes is, as bytes, a request that decodes to the same instruction. -/
theorem decode_tableBytes {nbits w : Nat} {i : Instr} (h : decodeTableWord nbits w = some i) :
    decode (.wire (tableBytes nbits w)) = .ok i := by
  unfold decodeTableWord at h
  split at h <;> cases h
  next hd => exact hd

theorem step_nil {s : State} (h : s.program = []) : step s = .next s := by rw [step, fetch_nil s h]

theorem step_cons {s : State} {r : Request} {rest : List Request} {i : Instr} (hp : s.program = r :: rest)
    (hd : decode r = .ok i) : step s = exec i { s with program := rest } := by
  simp only [step, fetch_cons s r rest hp, hd]

/-- Settles O7: the two cases of a step, and a word just presented is the next request. -/
theorem stepRunsTheDecodedInstruction : Obligations.StepRunsTheDecodedInstruction :=
  ⟨fun _ _ _ _ => step_cons, fun _ => step_nil, fun _ _ _ _ h => step_cons rfl (decode_tableBytes h)⟩

/-! ## BitCodec (R8) -/

/-- The fields of a bit string as one number: the field written first has the highest place. -/
def fieldsValue : List (Nat × Nat) → Nat
  | [] => 0
  | (v, _) :: fs => v * 2 ^ (fs.map Prod.snd).sum + fieldsValue fs

/-- Every value fits its width. -/
def FieldsFit (fields : List (Nat × Nat)) : Prop := ∀ f ∈ fields, f.1 < 2 ^ f.2

theorem fieldsFit_cons {v w : Nat} {fs : List (Nat × Nat)} : FieldsFit ((v, w) :: fs) ↔ v < 2 ^ w ∧ FieldsFit fs :=
  List.forall_mem_cons

theorem fieldsValue_lt {fields : List (Nat × Nat)} (h : FieldsFit fields) :
    fieldsValue fields < 2 ^ (fields.map Prod.snd).sum := by
  induction fields with
  | nil => exact Nat.one_pos
  | cons f fs ih =>
    obtain ⟨v, w⟩ := f
    obtain ⟨hv, hfs⟩ := fieldsFit_cons.1 h
    rw [fieldsValue, List.map_cons, List.sum_cons, pow_add]
    calc v * 2 ^ (fs.map Prod.snd).sum + fieldsValue fs
        < v * 2 ^ (fs.map Prod.snd).sum + 2 ^ (fs.map Prod.snd).sum := Nat.add_lt_add_left (ih hfs) _
      _ = (v + 1) * 2 ^ (fs.map Prod.snd).sum := (Nat.succ_mul ..).symm
      _ ≤ 2 ^ w * 2 ^ (fs.map Prod.snd).sum := Nat.mul_le_mul_right _ hv

theorem packBits_fit {fields : List (Nat × Nat)} (h : FieldsFit fields) (acc : Nat) :
    packBits fields acc = some (acc * 2 ^ (fields.map Prod.snd).sum + fieldsValue fields) := by
  induction fields generalizing acc with
  | nil => simp [packBits, fieldsValue]
  | cons f fs ih =>
    obtain ⟨v, w⟩ := f
    obtain ⟨hv, hfs⟩ := fieldsFit_cons.1 h
    rw [packBits, if_pos hv, ih hfs, fieldsValue, List.map_cons, List.sum_cons]
    congr 1
    ring

theorem packBits_wide {fields : List (Nat × Nat)} (h : ¬ FieldsFit fields) (acc : Nat) : packBits fields acc = none := by
  induction fields generalizing acc with
  | nil => simp [FieldsFit] at h
  | cons f fs ih =>
    obtain ⟨v, w⟩ := f
    rw [packBits]
    split
    · next hv => exact ih (fun hfs => h (fieldsFit_cons.2 ⟨hv, hfs⟩)) _
    · rfl

/-- Reading fields that stand above `pad` bits of padding, whatever stands above the fields. -/
theorem unpackBits_fieldsValue {fields : List (Nat × Nat)} (h : FieldsFit fields) (pad n : Nat)
    (hn : n / 2 ^ pad % 2 ^ (fields.map Prod.snd).sum = fieldsValue fields) :
    unpackBits (fields.map Prod.snd) ((fields.map Prod.snd).sum + pad) n = fields.map Prod.fst := by
  induction fields with
  | nil => rfl
  | cons f fs ih =>
    obtain ⟨v, w⟩ := f
    obtain ⟨-, hfs⟩ := fieldsFit_cons.1 h
    have hlt := fieldsValue_lt hfs
    rw [fieldsValue, List.map_cons, List.sum_cons] at hn
    simp only [List.map_cons, List.sum_cons]
    generalize hW : (fs.map Prod.snd).sum = W at *
    have hplace : w + W + pad - w = W + pad := by omega
    -- The number without its padding is the rest of the fields below, and the first field above.
    have hrest : n / 2 ^ pad % 2 ^ W = fieldsValue fs := by
      rw [← Nat.mod_mod_of_dvd _ (Nat.pow_dvd_pow 2 (Nat.le_add_left W w)), hn, Nat.mul_add_mod_self_right,
        Nat.mod_eq_of_lt hlt]
    have hfirst : n / 2 ^ (W + pad) % 2 ^ w = v := by
      rw [Nat.add_comm W pad, pow_add, ← Nat.div_div_eq_div_mul, ← Nat.mod_mul_left_div_self, ← pow_add, hn,
        Nat.mul_comm, Nat.mul_add_div (Nat.two_pow_pos W), Nat.div_eq_of_lt hlt, Nat.add_zero]
    rw [unpackBits, hplace, hfirst, ih hfs hrest]

theorem packMsb_fit {fields : List (Nat × Nat)} (h : FieldsFit fields) {n : Nat}
    (hn : ((fields.map Prod.snd).sum + 7) / 8 = n) :
    packMsb fields = some (bytesOfNat n (fieldsValue fields * 2 ^ (8 * n - (fields.map Prod.snd).sum))) := by
  subst hn
  simp only [packMsb, totalWidth, packBits_fit h, Nat.zero_mul, Nat.zero_add, Option.map_some]

theorem packMsb_wide {fields : List (Nat × Nat)} (h : ¬ FieldsFit fields) : packMsb fields = none := by
  simp only [packMsb, packBits_wide h, Option.map_none]

/-- `unpack_msb` inverts `pack_msb`: below the fields there are only the padding bits of the last byte. -/
theorem unpackMsb_packed {fields : List (Nat × Nat)} (h : FieldsFit fields) {n : Nat}
    (hn : ((fields.map Prod.snd).sum + 7) / 8 = n) :
    unpackMsb (fields.map Prod.snd) (bytesOfNat n (fieldsValue fields * 2 ^ (8 * n - (fields.map Prod.snd).sum))) =
      fields.map Prod.fst := by
  have hlt := fieldsValue_lt h
  have hwidth : (fields.map Prod.snd).sum + (8 * n - (fields.map Prod.snd).sum) = 8 * n := by omega
  have hfits : fieldsValue fields * 2 ^ (8 * n - (fields.map Prod.snd).sum) < 256 ^ n := by
    calc fieldsValue fields * 2 ^ (8 * n - (fields.map Prod.snd).sum)
        < 2 ^ (fields.map Prod.snd).sum * 2 ^ (8 * n - (fields.map Prod.snd).sum) :=
          Nat.mul_lt_mul_of_pos_right hlt (Nat.two_pow_pos _)
      _ = 256 ^ n := by rw [← pow_add, hwidth, pow_mul]; rfl
  rw [unpackMsb, bytesOfNat_length, natOfBytes_bytesOfNat, Nat.mod_eq_of_lt hfits, ← hwidth]
  apply unpackBits_fieldsValue h
  rw [hwidth, Nat.mul_div_cancel _ (Nat.two_pow_pos _), Nat.mod_eq_of_lt hlt]

/-! ## The encoders as field lists (R54) -/

/-- Fields that fill whole bytes are packed without padding. -/
theorem packMsb_whole {fields : List (Nat × Nat)} (h : FieldsFit fields) {n v : Nat}
    (hn : (fields.map Prod.snd).sum = 8 * n) (hv : fieldsValue fields = v) :
    packMsb fields = some (bytesOfNat n v) := by
  rw [packMsb_fit h (n := n) (by omega), hn, Nat.sub_self, pow_zero, Nat.mul_one, hv]

theorem packMsb_encExplicit (op : BitVec 3) (pb : BitVec 1) (q : Seq) :
    packMsb [(op.toNat, 3), (pb.toNat, 1), (0, 3), (q.toNat, 9), (0, 8)] = some (encExplicit op pb q).val := by
  rw [encExplicit, be24_val_eq]
  refine packMsb_whole (by simp [FieldsFit, op.isLt, pb.isLt, q.isLt]) rfl ?_
  rw [explicitWord_toNat]
  simp only [fieldsValue, List.map_cons, List.map_nil, List.sum_cons, List.sum_nil, BitVec.toNat_ofNat]
  omega

theorem packMsb_encCommand (op : BitVec 3) (a : Seq) (lo : BitVec 3) :
    packMsb [(op.toNat, 3), (0, 1), (a.toNat, 9), (lo.toNat, 3), (0, 8)] = some (encCommand op a lo).val := by
  rw [encCommand, be24_val_eq]
  refine packMsb_whole (by simp [FieldsFit, op.isLt, a.isLt, lo.isLt]) rfl ?_
  rw [commandWord_toNat]
  simp only [fieldsValue, List.map_cons, List.map_nil, List.sum_cons, List.sum_nil, BitVec.toNat_ofNat]
  omega

theorem packMsb_encSeg (t1 : BitVec 1) (m1 : BitVec 2) (t0 : BitVec 1) (m0 : BitVec 2) :
    packMsb [(t1.toNat, 1), (m1.toNat, 2), (t0.toNat, 1), (m0.toNat, 2), (0, 1), (0, 1)] =
      some [encSeg t1 m1 t0 m0] := by
  have hbyte : [encSeg t1 m1 t0 m0] = bytesOfNat 1 (encSeg t1 m1 t0 m0).toNat := by simp [bytesOfNat]
  rw [hbyte]
  refine packMsb_whole (by simp [FieldsFit, t1.isLt, m1.isLt, t0.isLt, m0.isLt]) rfl ?_
  rw [encSeg, segByte_toNat]
  simp only [fieldsValue, List.map_cons, List.map_nil, List.sum_cons, List.sum_nil, BitVec.toNat_ofNat]
  omega

/-- Settles O3: packed fields are a number with a place for each, over padding; the encoders' words are such numbers. -/
theorem bitCodecRoundTrip : Obligations.BitCodecRoundTrip := by
  refine ⟨fun fields h => ⟨_, packMsb_fit h rfl, bytesOfNat_length .., unpackMsb_packed h rfl⟩, fun fields h => ?_,
    packMsb_encExplicit, packMsb_encCommand, packMsb_encSeg⟩
  obtain ⟨f, hf, hwide⟩ := h
  exact packMsb_wide fun hfit => hwide (hfit f hf)

/-! ## A header word by itself (R50, R51, R53, R58) -/

/-- The instruction of a flit header answers what its three bytes say, whichever of the five rows it is. -/
theorem exec_of_encode_three_bytes {i : Instr} {b0 b1 b2 : Byte} (h : encode i = .wire [b0, b1, b2]) (s : State) :
    exec i s = s.describeHeader (headerWord b0 b1 b2) := by
  cases i with
  | explicitFlitHeader | payloadFlitAsReceived | ack | replayRequest | unassignedCommandOp =>
    cases h
    rw [headerWord_be24]
    rfl
  | _ => cases h

/-- The kind of a header by R53's formulas for `payload_bit` and `op`. -/
theorem headerKind_headerWord (b0 b1 b2 : Byte) : headerKind (headerWord b0 b1 b2) =
    if b0.toNat / 16 % 2 ≠ 0 then .payload
    else if b0.toNat / 32 = 2 then .ack
    else if b0.toNat / 32 = 3 then .replayRequest
    else .notConsumed := by
  obtain ⟨hop, hpb, -⟩ := decCommand_headerWord b0 b1 b2
  simp only [headerKind, ← BitVec.toNat_inj, ne_eq, hop, hpb, BitVec.toNat_ofNat]

/-- Settles O8: the instruction answers the decoders' readings of its bytes, and of the four kinds exactly one is met. -/
theorem headerWordsAreReadBothWays : Obligations.HeaderWordsAreReadBothWays := by
  intro s i b0 b1 b2 h
  obtain ⟨hop, hpb, hq⟩ := decExplicit_headerWord b0 b1 b2
  obtain ⟨hop', hpb', hack, hlo⟩ := decCommand_headerWord b0 b1 b2
  refine ⟨_, _, _, exec_of_encode_three_bytes h s, read_answer .., hop, hpb, hq, hop', hpb', hack, hlo, ?_⟩
  rw [headerKind_headerWord]
  split_ifs <;> simp <;> omega

/-! ## Command flits from one side to the other (R57, R120, R121, R130) -/

section
variable (s : State) (q : Seq) (lo : BitVec 3)

theorem exec_cmdProcess_builtAck : ∃ t,
    exec (.cmdProcess (cmdFlit s.cfg.crcReflect opAck q lo)) s = .next t ∧
      s.Answered t [.ackEvent q] (.bool true) := by
  have hanswer : cmdProcess s.cfg (cmdFlit s.cfg.crcReflect opAck q lo) s.block = (true, [.ackEvent q],
      { s.block with cmd := { s.block.cmd with
          acksReceived := countUp s.cfg .acksReceived s.block.cmd.acksReceived } }) := by
    simp [cmdProcess]
  rw [exec_cmdProcess, hanswer]
  exact ⟨_, rfl, answered_answer ..⟩

theorem exec_cmdProcess_builtReplayRequest : ∃ t,
    exec (.cmdProcess (cmdFlit s.cfg.crcReflect opReplayReq q lo)) s = .next t ∧
      s.Answered t [.replayRequestEvent q] (.bool true) := by
  have hop : opReplayReq ≠ opAck := by decide
  have hanswer : cmdProcess s.cfg (cmdFlit s.cfg.crcReflect opReplayReq q lo) s.block = (true, [.replayRequestEvent q],
      { s.block with cmd := { s.block.cmd with
          replayRequestsReceived := countUp s.cfg .replayRequestsReceived s.block.cmd.replayRequestsReceived } }) := by
    simp [cmdProcess, hop]
  rw [exec_cmdProcess, hanswer]
  exact ⟨_, rfl, answered_answer ..⟩

end

/-- Settles O40: a builder's flit passes the check of a side with its CRC variant, and its header is read back. -/
theorem builtCommandsAreRecognised : Obligations.BuiltCommandsAreRecognised := by
  intro x y q hcrc
  obtain ⟨yAck, hackExec, hackAnswer⟩ := exec_cmdProcess_builtAck y q (txLo x.block.tx)
  obtain ⟨yReplay, hreplayExec, hreplayAnswer⟩ := exec_cmdProcess_builtReplayRequest y q (txLo x.block.tx)
  rw [← hcrc] at hackExec hreplayExec
  exact ⟨⟨_, _, _, exec_txMakeAck x q, answered_answer .., hackExec, hackAnswer⟩,
    ⟨_, _, _, exec_txMakeReplayRequest x q, answered_answer .., hreplayExec, hreplayAnswer⟩⟩

/-! ## Completing (R6) -/

/-- A legal state has no lock without a pending DWord (R20), so that a pop always completes. -/
theorem exec_dmqPopNextDword_completes {s : State}
    (hlock : s.block.dmq.uartMultiProgress = true → s.block.dmq.uartPending ≠ []) :
    ∃ t, exec .dmqPopNextDword s = .next t := by
  rcases dmqPop_cases s.cfg.rrFirstAfterNone s.block.dmq with ⟨hheld, hnil, -⟩ | ⟨x, rest, -, -, e⟩ | ⟨-, e⟩
  · exact absurd hnil (hlock hheld)
  · exact ⟨_, exec_dmqPopNextDword_ok e⟩
  · exact ⟨_, exec_dmqPopNextDword_ok e⟩

theorem exec_epSendPayload_completes {s : State} {tls : List Tl} (h : tls.length ≤ 7)
    (hcount : s.block.tx.explicitCount ≠ 0#5) : ∃ t, exec (.epSendPayload tls) s = .next t := by
  by_cases hfull : s.block.rb.length = 512
  · exact ⟨_, exec_epSendPayload_full h hfull⟩
  · obtain ⟨opp, tx, htick, -⟩ := tick_ok { s.block.tx with lastSeq := wrapSeq s.block.tx.lastSeq } hcount
    exact ⟨_, exec_epSendPayload_room h hfull rfl htick⟩

theorem exec_completes {s : State} {i : Instr} (hs : s.Legal) (hi : i.wellFormed = true)
    (hroom : ∀ c dws depth, i = .dmqEnqueue c dws → s.cfg.arbFifoDepth = some depth →
      (queueOf s.block.dmq c).length < depth) :
    ∃ t, exec i s = .next t := by
  cases i with
  | flitPack tls op pb q => exact ⟨_, exec_flitPack s tls op pb q (of_decide_eq_true hi)⟩
  | epSendPayload tls => exact exec_epSendPayload_completes (of_decide_eq_true hi) hs.countNonzero
  | txTickExplicitCount =>
    obtain ⟨opp, tx, htick, -⟩ := tick_ok s.block.tx hs.countNonzero
    exact ⟨_, exec_txTickExplicitCount_ok htick⟩
  | dmqPopNextDword => exact exec_dmqPopNextDword_completes hs.lockPending.1
  | dmqEnqueue c dws =>
    cases dws with
    | nil => cases hi
    | cons x rest =>
      exact ⟨_, exec_dmqEnqueue_admitted hi ((fifoHasRoom_iff ..).2 fun depth => hroom c _ depth rfl)⟩
  -- The other operations complete on every path.
  | _ => exact ⟨_, rfl⟩

/-- An admitted packet for a full finite FIFO (log entry 14). -/
theorem exec_dmqEnqueue_full {s : State} {c : DlClass} {dws : List DWord} (ha : packetAdmitted c dws = true)
    {depth : Nat} (hdepth : s.cfg.arbFifoDepth = some depth) (hfull : depth ≤ (queueOf s.block.dmq c).length) :
    exec (.dmqEnqueue c dws) s = .refused (.arbFifoFull c) := by
  rcases execDmqEnqueue_cases c dws s with ⟨hbad, -⟩ | ⟨-, -, e⟩ | ⟨-, -, -, -, hroom, -⟩
  · rw [ha] at hbad; cases hbad
  · exact e
  · exact absurd ((fifoHasRoom_iff ..).1 hroom depth hdepth) (Nat.not_lt.2 hfull)

/-- Settles O58: what could stop an instruction is its operands, which are admitted, a count of 0 or a lock with nothing
pending, which no legal state has, or a full FIFO. -/
theorem wellFormedInstructionsComplete : Obligations.WellFormedInstructionsComplete :=
  ⟨fun _ _ => exec_completes, fun _ _ _ _ ha => exec_dmqEnqueue_full ha⟩

/-! ## What each operation on the block writes (R14 to R21) -/

section
variable (cfg : Config) (b : Block)

theorem rbAdd_writes (q : Seq) (f : Flit) : ∃ l, (rbAdd q f b).2 = { b with rb := l } := by
  rcases rbAdd_cases q f b with ⟨-, e⟩ | ⟨-, e⟩ <;> rw [e] <;> exact ⟨_, rfl⟩

theorem cmdProcess_writes (f : Flit) : ∃ c, (cmdProcess cfg f b).2.2 = { b with cmd := c } := by
  rcases cmdProcess_cases cfg f b with ⟨-, e⟩ | ⟨-, -, e⟩ | ⟨-, -, -, e⟩ | ⟨-, -, -, e⟩ | ⟨-, -, -, -, e⟩ <;> rw [e] <;>
    exact ⟨_, rfl⟩

theorem armProcessReceived_writes (q : Seq) (lo : BitVec 3) :
    ∃ e a, (armProcessReceived cfg q lo b).2 = { b with expectedSeq := e, arm := a } := by
  rcases armProcessReceived_cases cfg q lo b with ⟨-, -, e⟩ | ⟨-, -, e⟩ | ⟨-, e⟩ | ⟨-, e⟩ <;> rw [e] <;>
    exact ⟨_, _, rfl⟩

theorem epReplayFrom_writes (r : Seq) : ∃ tx stats n,
    (epReplayFrom cfg r b).2.2 = { b with tx := tx, stats := stats, replayUnknownSeq := n } := by
  rcases epReplayFrom_cases cfg r b with ⟨-, e⟩ | ⟨-, e⟩ <;> rw [e] <;> exact ⟨_, _, _, rfl⟩

end

/-- Each part of the block that the operation `op` is not named for is in `b'` as it was in `b` (R14 to R24). -/
structure WritesOnlyNamed (op : Option OpName) (b b' : Block) : Prop where
  rb : op ∉ [some .rbAdd, some .rbRetireThrough, some .rbClear, some .reset, some .epSendPayload, some .epReceiveFlit,
    some .epProcessAck] → b'.rb = b.rb
  expectedSeq : op ∉ [some .stAdvance, some .stReset, some .armProcessReceived, some .reset, some .epReceiveFlit] →
    b'.expectedSeq = b.expectedSeq
  tx : op ∉ [some .txNextPayloadSeq, some .txStartReplay, some .txFinishReplay, some .txTickExplicitCount,
    some .txReset, some .reset, some .epSendPayload, some .epReceiveFlit, some .epReplayFrom] → b'.tx = b.tx
  stats : op ∉ [some .txStartReplay, some .txMakeAck, some .txMakeReplayRequest, some .txReset, some .reset,
    some .epReceiveFlit, some .epReplayFrom] → b'.stats = b.stats
  cmd : op ∉ [some .cmdProcess, some .reset, some .epReceiveFlit] → b'.cmd = b.cmd
  arm : op ∉ [some .armProcessReceived, some .reset, some .epReceiveFlit] → b'.arm = b.arm
  dmq : op ∉ [some .dmqEnqueue, some .dmqPopNextDword, some .reset] → b'.dmq = b.dmq
  rxCrcErrors : op ∉ [some .reset, some .epReceiveFlit] → b'.rxCrcErrors = b.rxCrcErrors
  replayUnknownSeq : op ∉ [some .reset, some .epReceiveFlit, some .epReplayFrom] →
    b'.replayUnknownSeq = b.replayUnknownSeq

/-- An operation that leaves the block alone is named for no part. -/
theorem writesOnlyNamed_refl (op : Option OpName) (b : Block) : WritesOnlyNamed op b b := by
  constructor <;> exact fun _ => rfl

theorem exec_writesOnlyNamed {i : Instr} {s t : State} (h : exec i s = .next t) :
    WritesOnlyNamed i.opName s.block t.block := by
  cases i with
  | flitPack => obtain ⟨r, rfl⟩ := execFlitPack_next h; exact writesOnlyNamed_refl ..
  | txTickExplicitCount =>
    obtain ⟨opp, tx, -, rfl⟩ := execTxTickExplicitCount_next h
    constructor <;> simp [Instr.opName]
  | dmqEnqueue =>
    obtain ⟨first, rest, -, -, rfl⟩ := execDmqEnqueue_next h
    constructor <;> simp [Instr.opName]
  | dmqPopNextDword =>
    obtain ⟨r, -, rfl⟩ := execDmqPopNextDword_next h
    constructor <;> simp [Instr.opName]
  | epSendPayload =>
    rcases execEpSendPayload_next h with rfl | ⟨-, q, f, opp, tx, -, -, -, -, rfl⟩
    · exact writesOnlyNamed_refl ..
    · constructor <;> simp [Instr.opName]
  | txNextPayloadSeq => cases h; constructor <;> simp [Instr.opName, txNextPayloadSeq_eq]
  | rbAdd q f =>
    cases h
    obtain ⟨l, e⟩ := rbAdd_writes s.block q f
    constructor <;> simp [Instr.opName, e]
  | cmdProcess f =>
    cases h
    obtain ⟨c, e⟩ := cmdProcess_writes s.cfg s.block f
    constructor <;> simp [Instr.opName, e]
  | armProcessReceived q lo =>
    cases h
    obtain ⟨q', a, e⟩ := armProcessReceived_writes s.cfg s.block q lo
    constructor <;> simp [Instr.opName, e]
  | epReplayFrom r =>
    cases h
    obtain ⟨tx, stats, n, e⟩ := epReplayFrom_writes s.cfg s.block r
    constructor <;> simp [Instr.opName, e]
  | epReceiveFlit f =>
    cases h
    have e := epReceiveFlit_dmq s.cfg f s.block
    constructor <;> simp [Instr.opName, e]
  -- The other operations complete on every path, with the parts they write in sight.
  | _ => cases h; constructor <;> simp [Instr.opName]

/-- Settles O59: an operation that completes adds its answer, and writes no part that is not its own. -/
theorem onlyNamedOperationsWrite : Obligations.OnlyNamedOperationsWrite := by
  intro i s t h
  obtain ⟨hrb, hexpected, htx, hstats, hcmd, harm, hdmq, hcrc, hunknown⟩ := exec_writesOnlyNamed h
  obtain ⟨b, es, r, rfl⟩ := exec_next_answer h
  exact ⟨rfl, rfl, ⟨_, rfl⟩, hrb, hexpected, htx, hstats, hcmd, harm, hdmq, hcrc, hunknown⟩

end Sys2Proof.Machine
